-- ==== Sys2Proof/Word.lean ====
section
/-! DEFINITION. The plain types of the values the spec treats as bits: bus words, bytes, symbols, window offsets (spec/00_scope.md R7, spec/20_memory.md R46–R50). -/

namespace Sys2Proof

/-- A word of the host bus and of every register: 32 bits (R7, R47). -/
abbrev Word := BitVec 32

/-- A byte of the packed table (R34). -/
abbrev Byte := BitVec 8

/-- A symbol, "an integer in [0,255]" (R18, R50). -/
abbrev Symbol := BitVec 8

/-- A byte offset into the 4096-byte host register window (R46). -/
abbrev Offset := BitVec 12

end Sys2Proof
end

