-- ==== Sys2Proof/Syntax.lean ====
section
/-! DEFINITION. The block's commands, one constructor per row of spec/opcode_table.json (spec/30_encoding.md R72). -/

namespace Sys2Proof

/-- A command. An operand is the 8-bit ARG field, taken zero-extended (R71). Which values of it are legal is
`Instr.wellFormed`. -/
inductive Instr where
  /-- CLEAR (R96) -/
  | clear
  /-- STAT_FREQ (R100) -/
  | statFreq
  /-- BUILD_FREQ (R102) -/
  | buildFreq
  /-- TABLE_DECODE (R123) -/
  | tableDecode
  /-- TABLE_ENCODE (R125) -/
  | tableEncode
  /-- LOAD_REF k (R128) -/
  | loadRef (k : BitVec 8)
  /-- BUILD_ANCHORS (R140) -/
  | buildAnchors
  /-- ENC_INIT mode (R146) -/
  | encInit (mode : BitVec 8)
  /-- ENC_STEP sym (R150) -/
  | encStep (sym : Symbol)
  /-- ENC_RUN (R156) -/
  | encRun
  /-- ENC_DONE (R160) -/
  | encDone
  /-- DEC_INIT (R164) -/
  | decInit
  /-- DEC_STEP (R167) -/
  | decStep
  /-- DEC_RUN (R172) -/
  | decRun
  /-- DEC_DONE (R176) -/
  | decDone
deriving DecidableEq, Repr

end Sys2Proof
end

