-- ==== Sys2Proof/WellFormed.lean ====
section
/-! DEFINITION. Which commands have a command word: the legal operands of spec/30_encoding.md R71. -/

namespace Sys2Proof

/-- The legal operands of R71: LOAD_REF takes 0..3, ENC_INIT takes 0 or 1, ENC_STEP takes every symbol. -/
def Instr.wellFormed : Instr → Bool
  | .loadRef k => decide (k.toNat < 4)
  | .encInit mode => decide (mode.toNat < 2)
  | .encStep _ => true
  | .clear | .statFreq | .buildFreq | .tableDecode | .tableEncode | .buildAnchors => true
  | .encRun | .encDone | .decInit | .decStep | .decRun | .decDone => true

end Sys2Proof
end

