-- ==== Sys2Proof/Decode.lean ====
section
/-! DEFINITION. The command word (spec/30_encoding.md R69–R74): its fields, the decoder, total on every 32-bit word and rejecting by name, the encoder, and the rows of spec/opcode_table.json as masks and patterns. -/

namespace Sys2Proof

/-- Why a word is illegal, in the order the checks are made (R73; 60_exceptions.md R186). -/
inductive Illegal where
  /-- RSV, bits [31:16], is not 0. -/
  | reservedBits
  /-- OP, bits [7:0], is not in the opcode map. -/
  | unknownOpcode
  /-- ARG, bits [15:8], is outside the legal set of its OP. -/
  | argumentOutOfRange
deriving DecidableEq, Repr

/-- OP, bits [7:0] (R70). -/
def wordOp (w : Word) : BitVec 8 := w.extractLsb' 0 8

/-- ARG, bits [15:8] (R70). -/
def wordArg (w : Word) : BitVec 8 := w.extractLsb' 8 8

/-- RSV, bits [31:16] (R70). -/
def wordRsv (w : Word) : BitVec 16 := w.extractLsb' 16 16

/-- The opcodes of R72 whose ARG must be 0. -/
def plainCommand (op : BitVec 8) : Option Instr :=
  match op.toNat with
  | 0x01 => some .clear
  | 0x02 => some .statFreq
  | 0x03 => some .buildFreq
  | 0x04 => some .tableDecode
  | 0x05 => some .tableEncode
  | 0x07 => some .buildAnchors
  | 0x12 => some .encRun
  | 0x13 => some .encDone
  | 0x20 => some .decInit
  | 0x21 => some .decStep
  | 0x22 => some .decRun
  | 0x23 => some .decDone
  | _ => none

/-- The decoding of OP and ARG once RSV is known to be 0 (R71, R72). -/
def decodeFields (op arg : BitVec 8) : Except Illegal Instr :=
  match op.toNat with
  | 0x11 => .ok (.encStep arg)
  | 0x10 => if arg.toNat < 2 then .ok (.encInit arg) else .error .argumentOutOfRange
  | 0x06 => if arg.toNat < 4 then .ok (.loadRef arg) else .error .argumentOutOfRange
  | _ =>
    match plainCommand op with
    | some i => if arg.toNat = 0 then .ok i else .error .argumentOutOfRange
    | none => .error .unknownOpcode

/-- R74, with the reason of a rejection in the order of R186. -/
def decode (w : Word) : Except Illegal Instr :=
  if wordRsv w = 0 then decodeFields (wordOp w) (wordArg w) else .error .reservedBits

/-- OP of a command (R72). -/
def opcode : Instr → BitVec 8
  | .clear => 0x01
  | .statFreq => 0x02
  | .buildFreq => 0x03
  | .tableDecode => 0x04
  | .tableEncode => 0x05
  | .loadRef _ => 0x06
  | .buildAnchors => 0x07
  | .encInit _ => 0x10
  | .encStep _ => 0x11
  | .encRun => 0x12
  | .encDone => 0x13
  | .decInit => 0x20
  | .decStep => 0x21
  | .decRun => 0x22
  | .decDone => 0x23

/-- ARG of a command (R71): 0 where it has no operand. -/
def argument : Instr → BitVec 8
  | .loadRef k => k
  | .encInit mode => mode
  | .encStep sym => sym
  | .clear | .statFreq | .buildFreq | .tableDecode | .tableEncode | .buildAnchors => 0
  | .encRun | .encDone | .decInit | .decStep | .decRun | .decDone => 0

/-- The word of a command: RSV = 0, then ARG, then OP (R70; R75: "(a << 8) | OP(M)"). -/
def encode (i : Instr) : Word := 0#16 ++ (argument i ++ opcode i)

/-- The name of a command in R72 and in spec/opcode_table.json. -/
def mnemonic : Instr → String
  | .clear => "CLEAR"
  | .statFreq => "STAT_FREQ"
  | .buildFreq => "BUILD_FREQ"
  | .tableDecode => "TABLE_DECODE"
  | .tableEncode => "TABLE_ENCODE"
  | .loadRef _ => "LOAD_REF"
  | .buildAnchors => "BUILD_ANCHORS"
  | .encInit _ => "ENC_INIT"
  | .encStep _ => "ENC_STEP"
  | .encRun => "ENC_RUN"
  | .encDone => "ENC_DONE"
  | .decInit => "DEC_INIT"
  | .decStep => "DEC_STEP"
  | .decRun => "DEC_RUN"
  | .decDone => "DEC_DONE"

/-- A row of spec/opcode_table.json: a word belongs to it when its bits under the mask are the pattern. -/
structure OpcodeRow where
  name : String
  pattern : Word
  mask : Word
deriving DecidableEq, Repr

/-- The fifteen rows of spec/opcode_table.json. -/
def opcodeRows : List OpcodeRow :=
  [⟨"CLEAR", 0x00000001, 0xFFFFFFFF⟩, ⟨"STAT_FREQ", 0x00000002, 0xFFFFFFFF⟩, ⟨"BUILD_FREQ", 0x00000003, 0xFFFFFFFF⟩,
   ⟨"TABLE_DECODE", 0x00000004, 0xFFFFFFFF⟩, ⟨"TABLE_ENCODE", 0x00000005, 0xFFFFFFFF⟩,
   ⟨"LOAD_REF", 0x00000006, 0xFFFFFCFF⟩, ⟨"BUILD_ANCHORS", 0x00000007, 0xFFFFFFFF⟩] ++
  [⟨"ENC_INIT", 0x00000010, 0xFFFFFEFF⟩, ⟨"ENC_STEP", 0x00000011, 0xFFFF00FF⟩, ⟨"ENC_RUN", 0x00000012, 0xFFFFFFFF⟩,
   ⟨"ENC_DONE", 0x00000013, 0xFFFFFFFF⟩] ++
  [⟨"DEC_INIT", 0x00000020, 0xFFFFFFFF⟩, ⟨"DEC_STEP", 0x00000021, 0xFFFFFFFF⟩, ⟨"DEC_RUN", 0x00000022, 0xFFFFFFFF⟩,
   ⟨"DEC_DONE", 0x00000023, 0xFFFFFFFF⟩]

/-- Whether a word belongs to a row. -/
def rowMatches (r : OpcodeRow) (w : Word) : Bool := w &&& r.mask == r.pattern

/-- The instruction the decoder reads from a table word of `nbits` bits: the bits above `nbits` are 0, and a command is
one 32-bit word (R69), so a word with a higher bit set is none. -/
def decodeTableWord (nbits w : Nat) : Option Instr :=
  let bits := w % 2 ^ nbits
  if bits < 2 ^ 32 then
    match decode (BitVec.ofNat 32 bits) with
    | .ok i => some i
    | .error _ => none
  else none

end Sys2Proof
end

