-- ==== Sys2Proof/Config.lean ====
section
/-! DEFINITION. The fixed parameters of the block (spec/00_scope.md R7) and the one the platform leaves open, BLOCK_BASE (spec/20_memory.md R46). -/

namespace Sys2Proof.Config

/-- NSYM: "the alphabet size is fixed at 256" (R7). -/
abbrev nsym : Nat := 256

/-- MAXLEN: the longest codeword has 16 bits (R7). -/
abbrev maxlen : Nat := 16

/-- PACKED_BYTES: 16 counts and 256 value bytes (R7, R34). -/
abbrev packedBytes : Nat := 272

/-- BLOCK_BASE: where the platform places the window (R46). It has no body: no proof can see its value, and no rule of
the block depends on it (log entry 6). -/
opaque blockBase : Nat

/-- The platform address of a window offset (R46: "every offset in this spec is relative to it"). -/
def busAddress (off : Offset) : Nat := blockBase + off.toNat

end Sys2Proof.Config
end

