-- ==== Sys2Proof/Machine/State.lean ====
section
/-! DEFINITION. The state of one block instance and of the agents at its ports, as plain data (spec/10_state.md R19–R42, spec/00_scope.md R10, spec/20_memory.md R61), the two ways a step could stop, and the state after reset (R40). -/

namespace Sys2Proof.Machine

/-- STATUS.CODE (60_exceptions.md R182). The values 9–15 are never produced, so they have no constructor. -/
inductive StatusCode where
  | ok
  | tableOverflow
  | symbolNotCoded
  | truncatedStream
  | corruptTable
  | outputFull
  | illegalCommand
  | illegalState
  | preconditionViolated
deriving DecidableEq, Repr

/-- PHASE (R21). The values 5–7 are never held, so they have no constructor. -/
inductive Phase where
  | idle
  | encActive
  | encDone
  | decActive
  | decDone
deriving DecidableEq, Repr

/-- RUNKIND (R37): the iterating command in progress. STATUS.BUSY is 1 exactly when it is not `none`. -/
inductive RunKind where
  | none
  | stat
  | enc
  | dec
deriving DecidableEq, Repr

/-- FAULT (R27): its three sticky bits. The reserved bits [31:3] read 0 and are not stored. -/
structure FaultBits where
  busyWrite : Bool
  badAccess : Bool
  freqOverflow : Bool
deriving DecidableEq, Repr

/-- The stored part of a code entry (R31). Its `symbol` field is wired to the index. -/
structure CodeEntry where
  depth : BitVec 5
  code : BitVec 16
deriving DecidableEq, Repr

/-- The byte memory of the block, PACKED (R34): addresses strictly rising, no entry equal to 0, which an unlisted address
reads as (R40: reset value 0). -/
abbrev Memory := List Host.Cell

/-- The agent behind a source port (R10, R61). `items` is what it will deliver, oldest first. `rest` is what it delivers for
ever after them, or nothing: it is then exhausted. `answers` are its draws for the coming availability calls, one for each
call: a `false` reports nothing available at that call. After the draws it reports a value whenever it has one. -/
structure Source (α : Type) where
  items : List α
  rest : Option α
  answers : List Bool
deriving DecidableEq, Repr

/-- The agent behind a sink port (R10, R61). `taken` is what it has accepted, oldest first. `answers` are its draws for the
coming can-accept calls, one for each call, and `rest` is its answer to every call after them. -/
structure Sink (α : Type) where
  taken : List α
  answers : List Bool
  rest : Bool
deriving DecidableEq, Repr

/-- What the outside does next at the register window or at the reset line (R10, R46–R56, R200). -/
inductive Event where
  /-- A host read of `width` bytes at `off` (R47). -/
  | read (width : Nat) (off : Offset)
  /-- A host write of `width` bytes at `off` (R47). -/
  | write (width : Nat) (off : Offset) (data : Word)
  /-- POLL: read STATUS until BUSY = 0 (R75). -/
  | poll
  /-- The host makes no access now: a running command makes an iteration (R59 O3). -/
  | pass
  /-- Power-on or the platform's reset line (R200). -/
  | reset
deriving DecidableEq, Repr

/-- The block's state (R19) and, below the line, the environment's: the four stream agents (R10, R63), what the host will
do, and the values its reads have returned. The constant ID (R28), the wired ENTRY[s].symbol (R31) and the reserved bits
are not stored, and STATUS.BUSY is read off `runKind` (R37). The ROM REF_TABLES is a parameter of the block (R127) that no
step changes. -/
structure State where
  /-- STATUS.CODE (R20) -/
  code : StatusCode
  /-- STATUS.LAST_OP (R20) -/
  lastOp : BitVec 8
  /-- RUNKIND (R37), and STATUS.BUSY with it -/
  runKind : RunKind
  /-- PHASE (R21) -/
  phase : Phase
  /-- COUNT (R22) -/
  count : Word
  /-- BITCOUNT (R23) -/
  bitCount : Word
  /-- DEC_SYMBOL.SYM (R24) -/
  decSym : Symbol
  /-- DEC_SYMBOL.VALID (R24) -/
  decValid : Bool
  /-- DEC_BITS.N (R25) -/
  decBits : BitVec 5
  /-- ENC_LAST_BITS.N (R26) -/
  encLastBits : BitVec 5
  /-- FAULT (R27) -/
  fault : FaultBits
  /-- FREQ[0..255] (R30) -/
  freq : Vector Word 256
  /-- ENTRY[0..255] (R31) -/
  entry : Vector CodeEntry 256
  /-- PACKED[0..271] (R34) -/
  packed : Memory
  /-- FIRST[1..16] (R35), FIRST[L] at position L − 1 -/
  first : Vector Word 16
  /-- INDEX[1..16] (R35), INDEX[L] at position L − 1 -/
  index : Vector Word 16
  /-- REF_TABLES[0..3] (R36), constant; its contents are a parameter (R127, log entry 4) -/
  refTables : Vector RefTable 4
  /-- The environment's symbol source (R61) -/
  symSource : Source Symbol
  /-- The environment's symbol sink (R61) -/
  symSink : Sink Symbol
  /-- The environment's bit source (R61) -/
  bitSource : Source Bool
  /-- The environment's bit sink (R61) -/
  bitSink : Sink Bool
  /-- What the host and the reset line will do, first event first (log entry 3) -/
  host : List Event
  /-- The values the host's reads have returned, oldest first (log entry 3) -/
  readLog : List Word
deriving DecidableEq, Repr

/-- The machine never stops with a fault: "The block has no traps" (R15), every failure is a status code or a FAULT bit, and
the machine goes on (60_exceptions.md R189). So this type has no constructor: nobody raises one. -/
inductive Fault where
deriving DecidableEq, Repr

/-- Why a command has no meaning. -/
inductive Refusal where
  /-- Raised by `exec` for an instruction that is not modelled; safe, since no claim about it can then be proved. No arm of
  this model raises it. -/
  | notModelled (mnemonic : String)
deriving DecidableEq, Repr

/-- What a step or a command answers. -/
abbrev Result := Host.Outcome State Fault Refusal

/-- The state after reset: the block as R40 gives it, with R127's default reference tables (log entry 4). The agents are the environment's, which reset does not touch (R200);
with nothing attached the sources are exhausted and the sinks accept (log entry 2), and the host has nothing to do. -/
def State.reset : State where
  code := .ok
  lastOp := 0
  runKind := .none
  phase := .idle
  count := 0
  bitCount := 0
  decSym := 0
  decValid := false
  decBits := 0
  encLastBits := 0
  fault := ⟨false, false, false⟩
  freq := Vector.replicate 256 0
  entry := Vector.replicate 256 ⟨0, 0⟩
  packed := []
  first := Vector.replicate 16 0
  index := Vector.replicate 16 0
  refTables := defaultRefTables
  symSource := ⟨[], none, []⟩
  symSink := ⟨[], [], true⟩
  bitSource := ⟨[], none, []⟩
  bitSink := ⟨[], [], true⟩
  host := []
  readLog := []

end Sys2Proof.Machine
end

