-- ==== Sys2Proof/Machine/Ops.lean ====
section
/-! DEFINITION. The named operations every command is written over: bytes of PACKED, elements of the arrays, the port primitives (spec/00_scope.md R13, R14), the phase check (spec/40_session.md R89, R92), and starting and finishing a command (R94, R95). The block has no exceptions: an error is a `finish` with a non-OK status (R15, R189). -/

namespace Sys2Proof.Machine

/-! ### PACKED (R34) -/

/-- The byte at address `a`: an unlisted address reads 0 (R40). -/
def readByte : Memory → Nat → Byte
  | [], _ => 0
  | c :: m, a => if c.1 = a then c.2 else readByte m a

/-- Takes the entry of address `a` out. -/
def eraseByte : Memory → Nat → Memory
  | [], _ => []
  | c :: m, a => if c.1 = a then eraseByte m a else c :: eraseByte m a

/-- Puts an entry at its place among rising addresses. -/
def insertCell (c : Host.Cell) : Memory → Memory
  | [] => [c]
  | d :: m => if c.1 < d.1 then c :: d :: m else d :: insertCell c m

/-- PACKED[a] <- b, in canonical form: writing 0 removes the entry. -/
def writeByte (m : Memory) (a : Nat) (b : Byte) : Memory :=
  if b = 0 then eraseByte m a else insertCell (a, b) (eraseByte m a)

/-- A memory that holds the given bytes from address `a` on and 0 everywhere else. -/
def memoryFrom : Nat → List Byte → Memory
  | _, [] => []
  | a, b :: bs => if b = 0 then memoryFrom (a + 1) bs else (a, b) :: memoryFrom (a + 1) bs

/-- All 272 bytes of PACKED at once (R125, R128). -/
def memoryOf (bs : List Byte) : Memory := memoryFrom 0 bs

/-- The canonical form from address `lo` on: addresses strictly rising and below 272, no entry equal to 0. -/
def Memory.wfFrom : Nat → Memory → Bool
  | _, [] => true
  | lo, c :: m => decide (lo ≤ c.1) && decide (c.1 < Config.packedBytes) && decide (c.2 ≠ 0) && Memory.wfFrom (c.1 + 1) m

/-- The canonical form of PACKED, so that equal contents are equal data. -/
def Memory.wf (m : Memory) : Bool := Memory.wfFrom 0 m

/-! ### Arrays (R13) -/

/-- The 256 symbols in order. -/
def allSymbols : List Symbol := (List.range 256).map (BitVec.ofNat 8)

/-- The lengths 1..16 in order. -/
def lengths : List Nat := List.range' 1 16

/-- FREQ[a] -/
def freqAt (s : State) (a : Symbol) : Word := s.freq[a.toNat]'a.isLt

/-- FREQ[a] <- v -/
def setFreq (a : Symbol) (v : Word) (s : State) : State := { s with freq := s.freq.set a.toNat v a.isLt }

/-- ENTRY[a] -/
def entryAt (s : State) (a : Symbol) : CodeEntry := s.entry[a.toNat]'a.isLt

/-- ENTRY[*].depth and ENTRY[*].code <- e -/
def setEntries (e : Vector CodeEntry 256) (s : State) : State := { s with entry := e }

/-- FIRST[L], for L in 1..16 -/
def firstAt (s : State) (L : Nat) : Word := (s.first[L - 1]?).getD 0

/-- INDEX[L], for L in 1..16 -/
def indexAt (s : State) (L : Nat) : Word := (s.index[L - 1]?).getD 0

/-- The packed-table buffer <- m -/
def setPacked (m : Memory) (s : State) : State := { s with packed := m }

/-- REF_TABLES[k], for k in 0..3 (R36) -/
def refTableAt (s : State) (k : BitVec 8) : RefTable := s.refTables[k.toNat % 4]'(Nat.mod_lt _ (by omega))

/-- COUNTS[L] of a packed table, for L in 1..16: byte L − 1 (R13, R120). COUNTS[0] stands for no codes. -/
def tableCount (m : Memory) (L : Nat) : Nat := if L = 0 then 0 else (readByte m (L - 1)).toNat

/-- VALUES[k] of a packed table: byte 16 + k (R13, R120). -/
def tableValue (m : Memory) (k : Nat) : Symbol := readByte m (16 + k)

/-- The largest d ≤ n with f d > 0, or 0 when there is none. -/
def greatestUsed (f : Nat → Nat) : Nat → Nat
  | 0 => 0
  | n + 1 => if 0 < f (n + 1) then n + 1 else greatestUsed f n

/-! ### One symbol's assignment, as the builders make it -/

/-- depth[sym] <- depth; code[sym] <- code -/
structure Assignment where
  sym : Symbol
  depth : Nat
  code : Nat
deriving DecidableEq, Repr

/-- The entry fields of an assignment (R31: 5 bits of depth, 16 bits of code). -/
def assignedEntry (a : Assignment) : CodeEntry := ⟨BitVec.ofNat 5 a.depth, BitVec.ofNat 16 a.code⟩

/-- Every depth and code <- 0, then the assignments in order (R110, R123). -/
def entriesOf (l : List Assignment) : Vector CodeEntry 256 :=
  l.foldl (fun v a => v.set a.sym.toNat (assignedEntry a) a.sym.isLt) (Vector.replicate 256 ⟨0, 0⟩)

/-! ### Port primitives (R14, R61) -/

/-- The value a pull would deliver now. -/
def Source.offer {α : Type} (p : Source α) : Option α :=
  match p.items with
  | [] => p.rest
  | x :: _ => some x

/-- One availability call: the agent's answer, with the value a pull right after it delivers, and the agent after it. -/
def Source.avail {α : Type} (p : Source α) : Option α × Source α :=
  (if p.answers.headD true then p.offer else none, { p with answers := p.answers.tail })

/-- The agent after a pull. -/
def Source.pull {α : Type} (p : Source α) : Source α := { p with items := p.items.tail }

/-- One can-accept call: the agent's answer and the agent after it. -/
def Sink.canAccept {α : Type} (p : Sink α) : Bool × Sink α :=
  (p.answers.headD p.rest, { p with answers := p.answers.tail })

/-- The agent after a push. -/
def Sink.push {α : Type} (v : α) (p : Sink α) : Sink α := { p with taken := p.taken ++ [v] }

/-- SymAvail: whether the symbol source has a symbol, and which. -/
def symAvail (s : State) : Option Symbol × State :=
  (s.symSource.avail.1, { s with symSource := s.symSource.avail.2 })

/-- SymPull: takes the symbol SymAvail showed. -/
def symPull (s : State) : State := { s with symSource := s.symSource.pull }

/-- SymCanAccept -/
def symCanAccept (s : State) : Bool × State := (s.symSink.canAccept.1, { s with symSink := s.symSink.canAccept.2 })

/-- SymPush(v) -/
def symPush (v : Symbol) (s : State) : State := { s with symSink := s.symSink.push v }

/-- BitAvail: whether the bit source has a bit, and which. -/
def bitAvail (s : State) : Option Bool × State :=
  (s.bitSource.avail.1, { s with bitSource := s.bitSource.avail.2 })

/-- BitPull: takes the bit BitAvail showed. -/
def bitPull (s : State) : State := { s with bitSource := s.bitSource.pull }

/-- BitCanAccept -/
def bitCanAccept (s : State) : Bool × State := (s.bitSink.canAccept.1, { s with bitSink := s.bitSink.canAccept.2 })

/-- BitPush(b) followed by BITCOUNT <- (BITCOUNT + 1) mod 2^32, as every push of the block is (R23). -/
def bitPush (b : Bool) (s : State) : State :=
  { s with bitSink := s.bitSink.push b, bitCount := s.bitCount + 1 }

/-- What became of a list of bits offered to the bit sink. -/
structure Sent where
  /-- Whether every bit was taken. -/
  all : Bool
  /-- How many bits were taken. -/
  n : Nat
  /-- The state after. -/
  state : State
deriving DecidableEq, Repr

/-- Offers bits to the sink in order, asking before each and stopping at the first refusal (R149, R160; D19). -/
def sendBits : List Bool → State → Sent
  | [], s => ⟨true, 0, s⟩
  | b :: bs, s =>
    match bitCanAccept s with
    | (false, s1) => ⟨false, 0, s1⟩
    | (true, s1) =>
      let r := sendBits bs (bitPush b s1)
      { r with n := r.n + 1 }

/-! ### Running a command -/

/-- `finish(c)`: the end of a command (R95). -/
def finish (c : StatusCode) (s : State) : State := { s with code := c, runKind := .none }

/-- The start of an iterating command (R94). -/
def startRun (k : RunKind) (s : State) : State := { s with runKind := k, count := 0 }

/-- PHASE <- p -/
def setPhase (p : Phase) (s : State) : State := { s with phase := p }

/-- COUNT <- (COUNT + 1) mod 2^32 (R22) -/
def countSymbol (s : State) : State := { s with count := s.count + 1 }

/-- The "allowed in" column of R92. -/
def phaseOk : Instr → Phase → Bool
  | .clear, _ | .statFreq, _ | .buildFreq, _ | .tableDecode, _ | .tableEncode, _ => true
  | .loadRef _, _ | .buildAnchors, _ | .encInit _, _ | .decInit, _ => true
  | .encStep _, p | .encRun, p => p == .encActive
  | .encDone, p => p == .encActive || p == .encDone
  | .decStep, p | .decRun, p => p == .decActive
  | .decDone, p => p == .decActive || p == .decDone

/-- R89's phase check around a command's own rule: outside its phases a command finishes ILLEGAL_STATE, with no other
effect (R91). -/
def guarded (i : Instr) (body : State → State) (s : State) : Result :=
  .next (if phaseOk i s.phase then body s else finish .illegalState s)

end Sys2Proof.Machine
end

