-- ==== Sys2Proof/Machine/Build.lean ====
section
/-! DEFINITION. Build, the from-frequency code builder as a function of the frequencies (spec/41_builder.md R103–R110, steps 1 to 8). Its working state is private scratch (R33, R111), so none of it is in State. -/

namespace Sys2Proof.Machine

/-- A code tree: a leaf carries its id, 0..255 for a symbol and 256 for the reserved pseudo-leaf (R103). -/
inductive Tree where
  | leaf (id : Nat)
  | node (l r : Tree)
deriving DecidableEq, Repr

/-- A node of the active set A (R104): its weight, its id, and the tree below it. Weights are in ℕ (R103). -/
structure Node where
  weight : Nat
  id : Nat
  tree : Tree
deriving DecidableEq, Repr

/-- FREQ[a] as a weight, for a in 0..255. -/
def weightOf (freq : Vector Word 256) (a : Nat) : Nat := ((freq[a]?).getD 0).toNat

/-- The symbols with FREQ > 0, in order. -/
def present (freq : Vector Word 256) : List Nat := (List.range 256).filter fun a => decide (0 < weightOf freq a)

/-- Step 1 (R103): a leaf for every present symbol, and the reserved pseudo-leaf of id 256 and weight 1. -/
def leavesOf (freq : Vector Word 256) : List Node :=
  (present freq).map (fun a => ⟨weightOf freq a, a, .leaf a⟩) ++ [⟨1, 256, .leaf 256⟩]

/-- The order of R104: the least (weight, id), compared lexicographically. -/
def nodeBefore (a b : Node) : Bool := decide (a.weight < b.weight) || (a.weight == b.weight && decide (a.id < b.id))

/-- The least node of `x :: l` and the others. -/
def takeLeast (x : Node) : List Node → Node × List Node
  | [] => (x, [])
  | y :: l =>
    if nodeBefore y x then
      let r := takeLeast y l
      (r.1, x :: r.2)
    else
      let r := takeLeast x l
      (r.1, y :: r.2)

/-- Step 2 (R104): merges the two least nodes of A, at most `fuel` times; `id` is next_id. -/
def mergeNodes : Nat → Nat → List Node → List Node
  | 0, _, A => A
  | _ + 1, _, [] => []
  | fuel + 1, id, x :: l =>
    match takeLeast x l with
    | (n1, []) => [n1]
    | (n1, y :: l') =>
      let r := takeLeast y l'
      mergeNodes fuel (id + 1) (⟨n1.weight + r.1.weight, id, .node n1.tree r.1.tree⟩ :: r.2)

/-- The leaves of a tree with their depth below a node at depth `d` (R105). -/
def leafDepths : Nat → Tree → List (Nat × Nat)
  | d, .leaf id => [(id, d)]
  | d, .node l r => leafDepths (d + 1) l ++ leafDepths (d + 1) r

/-- Step 3 (R105): ud of every leaf. The loop of step 2 "makes n merges and ends with one root". -/
def unconstrainedDepths (freq : Vector Word 256) : List (Nat × Nat) :=
  let leaves := leavesOf freq
  (mergeNodes leaves.length 257 leaves).flatMap fun n => leafDepths 0 n.tree

/-- ud(x) -/
def depthIn (uds : List (Nat × Nat)) (x : Nat) : Nat := (uds.lookup x).getD 0

/-- BITS[d] for d in 0..256: the number of leaves of depth d, the pseudo-leaf among them (R105). -/
def histogram (uds : List (Nat × Nat)) : List Nat :=
  (List.range 257).map fun d => uds.countP fun x => x.2 == d

/-- BITS[d] -/
def bitsAt (bits : List Nat) (d : Nat) : Nat := bits.getD d 0

/-- One inner iteration of R106 at level i: j is the largest used level at or below i − 2. -/
def limitOnce (i : Nat) (bits : List Nat) : List Nat :=
  let j := greatestUsed (bitsAt bits) (i - 2)
  (((bits.modify i (· - 2)).modify (i - 1) (· + 1)).modify (j + 1) (· + 2)).modify j (· - 1)

/-- R106's `while BITS[i] > 0`. An iteration takes 2 from BITS[i] and adds nothing to it, so BITS[i] iterations are enough. -/
def limitLevel : Nat → Nat → List Nat → List Nat
  | 0, _, bits => bits
  | fuel + 1, i, bits => if 0 < bitsAt bits i then limitLevel fuel i (limitOnce i bits) else bits

/-- Step 4 (R106): i from 256 down to 17. -/
def limitLengths (bits : List Nat) : List Nat :=
  (List.range 240).foldl (fun b t => limitLevel (bitsAt b (256 - t)) (256 - t) b) bits

/-- Step 5 (R107): withholds one code point of the largest length in use. -/
def withhold (bits : List Nat) : List Nat := bits.modify (greatestUsed (bitsAt bits) 16) (· - 1)

/-- Step 6's key (R108): ud ascending, FREQ descending, symbol ascending. -/
def keyBefore (freq : Vector Word 256) (uds : List (Nat × Nat)) (a b : Nat) : Bool :=
  decide (depthIn uds a < depthIn uds b) ||
    (depthIn uds a == depthIn uds b &&
      (decide (weightOf freq b < weightOf freq a) || (weightOf freq a == weightOf freq b && decide (a ≤ b))))

/-- P of R108. -/
def symbolOrder (freq : Vector Word 256) (uds : List (Nat × Nat)) : List Nat :=
  (present freq).insertionSort fun a b => keyBefore freq uds a b = true

/-- Length L, BITS[L] times, for L in 1..16 (R108). -/
def lengthSequence (bits : List Nat) : List Nat := lengths.flatMap fun L => List.replicate (bitsAt bits L) L

/-- Step 6 (R108): depth[P[t]]. -/
def assignDepths (freq : Vector Word 256) (uds : List (Nat × Nat)) (bits : List Nat) : List (Nat × Nat) :=
  (symbolOrder freq uds).zip (lengthSequence bits)

/-- The order of R110: depth ascending, symbol ascending. -/
def canonicalBefore (a b : Nat × Nat) : Bool := decide (a.2 < b.2) || (a.2 == b.2 && decide (a.1 ≤ b.1))

/-- R110's recurrence after a symbol of depth `d` and code `c`. -/
def codesAfter : Nat → Nat → List (Nat × Nat) → List Assignment
  | _, _, [] => []
  | d, c, q :: qs =>
    let c' := (c + 1) <<< (q.2 - d)
    ⟨BitVec.ofNat 8 q.1, q.2, c'⟩ :: codesAfter q.2 c' qs

/-- Step 8 (R110): the canonical codes of symbols with depths, in the order Q. -/
def canonicalCodes (depths : List (Nat × Nat)) : List Assignment :=
  match depths.insertionSort fun a b => canonicalBefore a b = true with
  | [] => []
  | q :: qs => ⟨BitVec.ofNat 8 q.1, q.2, 0⟩ :: codesAfter q.2 0 qs

/-- Build(FREQ) (R102): the entries to write, or nothing for TABLE_OVERFLOW (step 7, R109). With no symbol present every
depth and code is 0 (R105). -/
def build (freq : Vector Word 256) : Option (Vector CodeEntry 256) :=
  if present freq = [] then some (entriesOf [])
  else
    let uds := unconstrainedDepths freq
    let depths := assignDepths freq uds (withhold (limitLengths (histogram uds)))
    if depths.any fun q => decide (Config.maxlen < q.2) then none else some (entriesOf (canonicalCodes depths))

end Sys2Proof.Machine
end

