-- ==== Sys2Proof/Machine/Flags.lean ====
section
/-! DEFINITION. The status indications of the block (spec/10_state.md R20, R21, R24–R28): the numbers of STATUS.CODE and PHASE, the BUSY bit, the sticky FAULT bits, and the register words the host reads. -/

namespace Sys2Proof.Machine

/-- The number of a status code (60_exceptions.md R182). -/
def statusNumber : StatusCode → BitVec 4
  | .ok => 0
  | .tableOverflow => 1
  | .symbolNotCoded => 2
  | .truncatedStream => 3
  | .corruptTable => 4
  | .outputFull => 5
  | .illegalCommand => 6
  | .illegalState => 7
  | .preconditionViolated => 8

/-- The number of a phase (R21). -/
def phaseNumber : Phase → BitVec 3
  | .idle => 0
  | .encActive => 1
  | .encDone => 2
  | .decActive => 3
  | .decDone => 4

/-- STATUS.BUSY: 1 exactly when RUNKIND is not NONE (R37). -/
def busy (s : State) : Bool := s.runKind != .none

/-- FAULT.BUSY_WRITE <- 1 (R27, R90) -/
def faultBusyWrite (s : State) : State := { s with fault := { s.fault with busyWrite := true } }

/-- FAULT.BAD_ACCESS <- 1 (R27, R53, R54) -/
def faultBadAccess (s : State) : State := { s with fault := { s.fault with badAccess := true } }

/-- FAULT.FREQ_OVERFLOW <- 1 (R27, R100) -/
def faultFreqOverflow (s : State) : State := { s with fault := { s.fault with freqOverflow := true } }

/-- The STATUS word: CODE [3:0], BUSY [4], LAST_OP [15:8], reserved bits 0 (R20). -/
def statusWord (s : State) : Word :=
  0#16 ++ (s.lastOp ++ (0#3 ++ (BitVec.ofBool (busy s) ++ statusNumber s.code)))

/-- The PHASE word: PHASE [2:0] (R21). -/
def phaseWord (s : State) : Word := 0#29 ++ phaseNumber s.phase

/-- The DEC_SYMBOL word: SYM [7:0], VALID [8] (R24). -/
def decSymbolWord (s : State) : Word := 0#23 ++ (BitVec.ofBool s.decValid ++ s.decSym)

/-- The DEC_BITS word: N [4:0] (R25). -/
def decBitsWord (s : State) : Word := 0#27 ++ s.decBits

/-- The ENC_LAST_BITS word: N [4:0] (R26). -/
def encLastBitsWord (s : State) : Word := 0#27 ++ s.encLastBits

/-- The FAULT word: BUSY_WRITE [0], BAD_ACCESS [1], FREQ_OVERFLOW [2] (R27). -/
def faultWord (s : State) : Word :=
  0#29 ++ (BitVec.ofBool s.fault.freqOverflow ++ (BitVec.ofBool s.fault.badAccess ++ BitVec.ofBool s.fault.busyWrite))

/-- The constant ID word, "HUF7" (R28). -/
def idWord : Word := 0x48554637

end Sys2Proof.Machine
end

