-- ==== Sys2Proof/Machine/Builder.lean ====
section
/-! DEFINITION. The frequency analyzer and the from-frequency builder: STAT_FREQ and BUILD_FREQ (spec/41_builder.md). -/

namespace Sys2Proof.Machine

/-- STAT_FREQ (R100): starts the run; its iterations are `statIteration`. -/
def execStatFreq (s : State) : Result := guarded .statFreq (startRun .stat) s

/-- One STAT_FREQ iteration (R100, R101). -/
def statIteration (s : State) : State :=
  match symAvail s with
  | (none, s1) => finish .ok s1
  | (some a, s1) =>
    let s2 := symPull s1
    if freqAt s2 a = 0xFFFFFFFF then finish .preconditionViolated (faultFreqOverflow s2)
    else countSymbol (setFreq a (freqAt s2 a + 1) s2)

/-- BUILD_FREQ's rule (R102). -/
def buildFreqBody (s : State) : State :=
  match build s.freq with
  | none => finish .tableOverflow s
  | some e => finish .ok (setEntries e s)

/-- BUILD_FREQ (R102) -/
def execBuildFreq (s : State) : Result := guarded .buildFreq buildFreqBody s

end Sys2Proof.Machine
end

