-- ==== Sys2Proof/Machine/Operands.lean ====
section
/-! DEFINITION. Operand forms: which ARG values a command takes (spec/30_encoding.md R71), the words of the array windows (spec/20_memory.md R48, R52; R80), and the register window as a whole (R52, R53). -/

namespace Sys2Proof.Machine

/-- LOAD_REF's legal operands: 0..3 (R71). -/
def refNumberOk (k : BitVec 8) : Bool := decide (k.toNat < 4)

/-- ENC_INIT's mode (R71, R146). -/
inductive EncMode where
  | fromFrequency
  | fromTable
deriving DecidableEq, Repr

/-- ENC_INIT's legal operands: 0 is from-frequency, 1 is from-table, 2..255 are illegal (R71). -/
def encMode (mode : BitVec 8) : Option EncMode :=
  match mode.toNat with
  | 0 => some .fromFrequency
  | 1 => some .fromTable
  | _ => none

/-- The ENTRY word: symbol [7:0], depth [12:8], code [31:16] (R52, R80). -/
def entryWord (a : Symbol) (e : CodeEntry) : Word := e.code ++ (0#3 ++ (e.depth ++ a))

/-- The PACKED word w: PACKED[4w] in bits [7:0] up to PACKED[4w+3] in bits [31:24], little-endian (R48). -/
def packedWord (m : Memory) (w : Nat) : Word :=
  readByte m (4 * w + 3) ++ (readByte m (4 * w + 2) ++ (readByte m (4 * w + 1) ++ readByte m (4 * w)))

/-- A host write to PACKED word w: all four of its bytes at once (R48, R51). -/
def writePackedWord (m : Memory) (w : Nat) (v : Word) : Memory :=
  writeByte (writeByte (writeByte (writeByte m (4 * w) (v.extractLsb' 0 8)) (4 * w + 1) (v.extractLsb' 8 8))
    (4 * w + 2) (v.extractLsb' 16 8)) (4 * w + 3) (v.extractLsb' 24 8)

/-- The places of the register window (R52). -/
inductive Place where
  | cmd | status | phase | count | bitCount | decSymbol | decBits | encLastBits | fault | id
  | freq (a : Symbol)
  | entry (a : Symbol)
  | packed (w : Nat)
  | first (L : Nat)
  | index (L : Nat)
  | unmapped
deriving DecidableEq, Repr

/-- The address map of R52, for an offset that is a multiple of 4. -/
def placeAt (off : Nat) : Place :=
  if off < 0x400 then
    match off with
    | 0x000 => .cmd
    | 0x004 => .status
    | 0x008 => .phase
    | 0x00C => .count
    | 0x010 => .bitCount
    | 0x014 => .decSymbol
    | 0x018 => .decBits
    | 0x01C => .encLastBits
    | 0x020 => .fault
    | 0x024 => .id
    | _ => .unmapped
  else if off < 0x800 then .freq (BitVec.ofNat 8 ((off - 0x400) / 4))
  else if off < 0xC00 then .entry (BitVec.ofNat 8 ((off - 0x800) / 4))
  else if off < 0xD10 then .packed ((off - 0xC00) / 4)
  else if off < 0xE00 then .unmapped
  else if off < 0xE40 then .first ((off - 0xE00) / 4 + 1)
  else if off < 0xE80 then .index ((off - 0xE40) / 4 + 1)
  else .unmapped

/-- What a read of a place returns (R52, R53): CMD and the unmapped offsets read 0. -/
def placeWord (s : State) : Place → Word
  | .cmd => 0
  | .status => statusWord s
  | .phase => phaseWord s
  | .count => s.count
  | .bitCount => s.bitCount
  | .decSymbol => decSymbolWord s
  | .decBits => decBitsWord s
  | .encLastBits => encLastBitsWord s
  | .fault => faultWord s
  | .id => idWord
  | .freq a => freqAt s a
  | .entry a => entryWord a (entryAt s a)
  | .packed w => packedWord s.packed w
  | .first L => firstAt s L
  | .index L => indexAt s L
  | .unmapped => 0

/-- A legal access: 4 bytes at a multiple of 4 (R47). -/
def legalAccess (width : Nat) (off : Offset) : Bool := width == 4 && off.toNat % 4 == 0

/-- A host read (R53, R54): the value returned and the state after, which differs in FAULT.BAD_ACCESS at most (R55). -/
def busRead (width : Nat) (off : Offset) (s : State) : Word × State :=
  if legalAccess width off then
    match placeAt off.toNat with
    | .unmapped => (0, faultBadAccess s)
    | p => (placeWord s p, s)
  else (0, faultBadAccess s)

/-- A legal host write to a place other than CMD while the block is not busy (R53): FREQ and PACKED store the value, and
every other place drops the write and sets FAULT.BAD_ACCESS. CMD stores nothing (R29); a write to it is a command and does
not come here. -/
def writePlace (v : Word) (s : State) : Place → State
  | .freq a => setFreq a v s
  | .packed w => setPacked (writePackedWord s.packed w v) s
  | .cmd => s
  | .status | .phase | .count | .bitCount | .decSymbol | .decBits | .encLastBits | .fault | .id => faultBadAccess s
  | .entry _ | .first _ | .index _ | .unmapped => faultBadAccess s

end Sys2Proof.Machine
end

