-- ==== Sys2Proof/Machine/TableCodec.lean ====
section
/-! DEFINITION. The packed table (spec/42_table_codec.md): the canonical recurrence, table validity, TABLE_DECODE, TABLE_ENCODE and LOAD_REF. -/

namespace Sys2Proof.Machine

/-- first[L] of Canon(P), for L in 1..16 (R121): c starts at 0 and goes to (c + COUNTS[L]) << 1 after each length. COUNTS[0]
stands for 0, so first[1] is 0. -/
def canonFirst (m : Memory) : Nat → Nat
  | 0 => 0
  | L + 1 => (canonFirst m L + tableCount m L) <<< 1

/-- index[L] of Canon(P), for L in 1..16 (R121): o starts at 0 and goes to o + COUNTS[L] after each length. -/
def canonIndex (m : Memory) : Nat → Nat
  | 0 => 0
  | L + 1 => canonIndex m L + tableCount m L

/-- S(P), the sum of COUNTS[1..16] (R16, R120). -/
def tableSize (m : Memory) : Nat := (lengths.map (tableCount m)).sum

/-- VALUES[0..S(P)−1] (R120). -/
def tableSymbols (m : Memory) : List Symbol := (List.range (tableSize m)).map (tableValue m)

/-- The largest length in use, or 0 (R122 V4). -/
def longestLength (m : Memory) : Nat := greatestUsed (tableCount m) Config.maxlen

/-- TableValid(P): V1 to V4 of R122. -/
def tableValid (m : Memory) : Bool :=
  decide (tableSize m ≤ Config.nsym) &&
  (decide (tableSymbols m).Nodup &&
  (lengths.all (fun L => decide (canonFirst m L + tableCount m L ≤ 2 ^ L)) &&
  (decide (tableSize m = 0) ||
    decide (canonFirst m (longestLength m) + tableCount m (longestLength m) < 2 ^ longestLength m))))

/-- The assignments of R123 in its order: the k-th value of length L gets depth L and code first[L] + k. -/
def tableAssignments (m : Memory) : List Assignment :=
  lengths.flatMap fun L =>
    (List.range (tableCount m L)).map fun k => ⟨tableValue m (canonIndex m L + k), L, canonFirst m L + k⟩

/-- TABLE_DECODE's rule (R123). -/
def tableDecodeBody (s : State) : State :=
  if tableValid s.packed then finish .ok (setEntries (entriesOf (tableAssignments s.packed)) s)
  else finish .preconditionViolated s

/-- TABLE_DECODE (R123) -/
def execTableDecode (s : State) : Result := guarded .tableDecode tableDecodeBody s

/-- cnt[L] of R125: the number of symbols of depth L. -/
def depthCount (s : State) (L : Nat) : Nat := allSymbols.countP fun a => (entryAt s a).depth.toNat == L

/-- The order of R125: depth ascending, code ascending. -/
def codeBefore (s : State) (a b : Symbol) : Bool :=
  decide ((entryAt s a).depth.toNat < (entryAt s b).depth.toNat) ||
    ((entryAt s a).depth.toNat == (entryAt s b).depth.toNat &&
      decide ((entryAt s a).code.toNat ≤ (entryAt s b).code.toNat))

/-- seq of R125: the coded symbols, sorted. -/
def codedSequence (s : State) : List Symbol :=
  (allSymbols.filter fun a => decide ((entryAt s a).depth ≠ 0)).insertionSort fun a b => codeBefore s a b = true

/-- The bytes TABLE_ENCODE and LOAD_REF write: the counts, the values, and 0 in the rest of the 256 value bytes. -/
def packedBytesOf (counts values : List Byte) : List Byte :=
  counts ++ values ++ List.replicate (Config.nsym - values.length) 0

/-- TABLE_ENCODE's rule (R125). -/
def tableEncodeBody (s : State) : State :=
  if lengths.any fun L => decide (255 < depthCount s L) then finish .preconditionViolated s
  else
    let counts := lengths.map fun L => BitVec.ofNat 8 (depthCount s L)
    finish .ok (setPacked (memoryOf (packedBytesOf counts (codedSequence s))) s)

/-- TABLE_ENCODE (R125) -/
def execTableEncode (s : State) : Result := guarded .tableEncode tableEncodeBody s

/-- LOAD_REF's rule (R128): the table's counts, its sum(counts) values, and 0 in the rest; an operand of 4..255 finishes
ILLEGAL_COMMAND. -/
def loadRefBody (k : BitVec 8) (s : State) : State :=
  if refNumberOk k then
    let t := refTableAt s k
    finish .ok (setPacked (memoryOf (packedBytesOf t.counts.toList (t.values.toList.take t.size))) s)
  else finish .illegalCommand s

/-- LOAD_REF k (R128) -/
def execLoadRef (k : BitVec 8) (s : State) : Result := guarded (.loadRef k) (loadRefBody k) s

end Sys2Proof.Machine
end

