-- ==== Sys2Proof/Machine/DecodeIndex.lean ====
section
/-! DEFINITION. The decode-index builder: BUILD_ANCHORS (spec/43_decode_index.md R140). -/

namespace Sys2Proof.Machine

/-- FIRST[1..16] and INDEX[1..16] <- Canon(PACKED) (R140, R164). The values fit 32 bits (R121). -/
def setAnchors (s : State) : State :=
  { s with
    first := Vector.ofFn fun i => BitVec.ofNat 32 (canonFirst s.packed (i.val + 1))
    index := Vector.ofFn fun i => BitVec.ofNat 32 (canonIndex s.packed (i.val + 1)) }

/-- BUILD_ANCHORS' rule (R140): it checks nothing (R142). -/
def buildAnchorsBody (s : State) : State := finish .ok (setAnchors s)

/-- BUILD_ANCHORS (R140) -/
def execBuildAnchors (s : State) : Result := guarded .buildAnchors buildAnchorsBody s

end Sys2Proof.Machine
end

