-- ==== Sys2Proof/Machine/Decoder.lean ====
section
/-! DEFINITION. The symbol decoder: DEC_INIT, DEC_STEP, DEC_RUN and DEC_DONE (spec/45_decoder.md). -/

namespace Sys2Proof.Machine

/-- DEC_INIT's rule (R164): it checks V1 only (R165). -/
def decInitBody (s : State) : State :=
  if Config.nsym < tableSize s.packed then finish .preconditionViolated (setPhase .idle s)
  else finish .ok (setPhase .decActive { setAnchors s with decValid := false, decBits := 0, count := 0 })

/-- DEC_INIT (R164) -/
def execDecInit (s : State) : Result := guarded .decInit decInitBody s

/-- The end of a failed decode attempt: DEC_BITS <- n, VALID <- 0, SYM kept (R24, R25, R168). -/
def decodeFailed (n : Nat) (s : State) : State := { s with decBits := BitVec.ofNat 5 n, decValid := false }

/-- The end of a successful decode attempt: DEC_BITS <- n, SYM <- v, VALID <- 1 (R168). -/
def decodeGave (n : Nat) (v : Symbol) (s : State) : State :=
  { s with decBits := BitVec.ofNat 5 n, decSym := v, decValid := true }

/-- DecodeOne's range test at length L (R168): FIRST[L] ≤ cand < FIRST[L] + COUNTS[L], with the latched anchor and the live
count (R166), in ℕ. -/
def inRange (s : State) (L cand : Nat) : Bool :=
  decide ((firstAt s L).toNat ≤ cand) && decide (cand < (firstAt s L).toNat + tableCount s.packed L)

/-- R168's loop at length L with `fuel` lengths left and the candidate so far: L − 1 bits have been taken. -/
def decodeFrom : Nat → Nat → Nat → State → StatusCode × State
  | 0, _, _, s => (.corruptTable, decodeFailed Config.maxlen s)
  | fuel + 1, L, cand, s =>
    match bitAvail s with
    | (none, s1) => (.truncatedStream, decodeFailed (L - 1) s1)
    | (some b, s1) =>
      let s2 := bitPull s1
      let cand' := 2 * cand + b.toNat
      if inRange s2 L cand' then
        let k := (indexAt s2 L).toNat + (cand' - (firstAt s2 L).toNat)
        if 256 ≤ k then (.preconditionViolated, decodeFailed L s2)
        else (.ok, decodeGave L (tableValue s2.packed k) s2)
      else decodeFrom fuel (L + 1) cand' s2

/-- DecodeOne() (R168): its status and the state after it; the symbol of a success is DEC_SYMBOL.SYM. Every attempt starts
with an empty candidate at length 1 (R39). -/
def decodeOne (s : State) : StatusCode × State := decodeFrom Config.maxlen 1 0 s

/-- DEC_STEP's rule (R167). -/
def decStepBody (s : State) : State := finish (decodeOne s).1 (decodeOne s).2

/-- DEC_STEP (R167) -/
def execDecStep (s : State) : Result := guarded .decStep decStepBody s

/-- DEC_RUN (R172): starts the run; its iterations are `decIteration`. -/
def execDecRun (s : State) : Result := guarded .decRun (startRun .dec) s

/-- One DEC_RUN iteration (R173). -/
def decIteration (s : State) : State :=
  match bitAvail s with
  | (none, s1) => finish .ok s1
  | (some _, s1) =>
    match symCanAccept s1 with
    | (false, s2) => finish .outputFull s2
    | (true, s2) =>
      match decodeOne s2 with
      | (.ok, s3) => countSymbol (symPush s3.decSym s3)
      | (st, s3) => finish st s3

/-- DEC_DONE's rule (R176): a repeat has no effect. -/
def decDoneBody (s : State) : State := if s.phase = .decDone then finish .ok s else finish .ok (setPhase .decDone s)

/-- DEC_DONE (R176) -/
def execDecDone (s : State) : Result := guarded .decDone decDoneBody s

end Sys2Proof.Machine
end

