-- ==== Sys2Proof/Machine/Encoder.lean ====
section
/-! DEFINITION. The symbol encoder: ENC_INIT, ENC_STEP, ENC_RUN and ENC_DONE (spec/44_encoder.md). -/

namespace Sys2Proof.Machine

/-- The start of an encode pass over new entries (R146, the success path). -/
def startEncode (e : Vector CodeEntry 256) (s : State) : State :=
  finish .ok (setPhase .encActive { setEntries e s with bitCount := 0, encLastBits := 0, count := 0 })

/-- ENC_INIT's rule (R146): mode 0 builds from FREQ, mode 1 from PACKED; a failure leaves phase IDLE, and a mode of 2..255
finishes ILLEGAL_COMMAND. -/
def encInitBody (mode : BitVec 8) (s : State) : State :=
  match encMode mode with
  | some .fromFrequency =>
    match build s.freq with
    | some e => startEncode e s
    | none => finish .tableOverflow (setPhase .idle s)
  | some .fromTable =>
    if tableValid s.packed then startEncode (entriesOf (tableAssignments s.packed)) s
    else finish .preconditionViolated (setPhase .idle s)
  | none => finish .illegalCommand s

/-- ENC_INIT mode (R146) -/
def execEncInit (mode : BitVec 8) (s : State) : Result := guarded (.encInit mode) (encInitBody mode) s

/-- cw(s): the depth low bits of the code, most significant first (R16, R78, R152). -/
def codeword (e : CodeEntry) : List Bool :=
  (List.range e.depth.toNat).map fun t => e.code.getLsbD (e.depth.toNat - 1 - t)

/-- ENC_LAST_BITS <- n -/
def setLastBits (n : Nat) (s : State) : State := { s with encLastBits := BitVec.ofNat 5 n }

/-- EncodeOne(a) (R149): its status and the state after it. -/
def encodeOne (a : Symbol) (s : State) : StatusCode × State :=
  if (entryAt s a).depth = 0 then (.symbolNotCoded, setLastBits 0 s)
  else
    let r := sendBits (codeword (entryAt s a)) s
    (if r.all then .ok else .outputFull, setLastBits r.n r.state)

/-- ENC_STEP's rule (R150). -/
def encStepBody (sym : Symbol) (s : State) : State := finish (encodeOne sym s).1 (encodeOne sym s).2

/-- ENC_STEP sym (R150) -/
def execEncStep (sym : Symbol) (s : State) : Result := guarded (.encStep sym) (encStepBody sym) s

/-- ENC_RUN (R156): starts the run; its iterations are `encIteration`. -/
def execEncRun (s : State) : Result := guarded .encRun (startRun .enc) s

/-- One ENC_RUN iteration (R158). -/
def encIteration (s : State) : State :=
  match symAvail s with
  | (none, s1) => finish .ok s1
  | (some a, s1) =>
    match encodeOne a (symPull s1) with
    | (.ok, s2) => countSymbol s2
    | (st, s2) => finish st s2

/-- The number of pad bits (R160, R161). -/
def padCount (s : State) : Nat := (8 - s.bitCount.toNat % 8) % 8

/-- ENC_DONE's rule (R160): a repeat has no effect, and a refused pad bit leaves the pass active. -/
def encDoneBody (s : State) : State :=
  if s.phase = .encDone then finish .ok s
  else
    let r := sendBits (List.replicate (padCount s) true) s
    if r.all then finish .ok (setPhase .encDone r.state) else finish .outputFull r.state

/-- ENC_DONE (R160) -/
def execEncDone (s : State) : Result := guarded .encDone encDoneBody s

end Sys2Proof.Machine
end

