-- ==== Sys2Proof/Machine/Session.lean ====
section
/-! DEFINITION. The session's created state: CLEAR (spec/40_session.md R96) and reset as an event (spec/70_reset_and_hazards.md R200). -/

namespace Sys2Proof.Machine

/-- CLEAR's rule (R96): FAULT, LAST_OP and the ports are not touched. -/
def clearBody (s : State) : State :=
  finish .ok
    { s with
      freq := Vector.replicate 256 0
      entry := Vector.replicate 256 ⟨0, 0⟩
      packed := []
      first := Vector.replicate 16 0
      index := Vector.replicate 16 0
      phase := .idle
      count := 0
      bitCount := 0
      decSym := 0
      decValid := false
      decBits := 0
      encLastBits := 0 }

/-- CLEAR (R96) -/
def execClear (s : State) : Result := guarded .clear clearBody s

/-- Reset (R200): every piece of block state takes its reset value, a running command is abandoned without a `finish`, the
ROM is constant (R36), and the agents keep their positions and contents (R63). -/
def resetBlock (s : State) : State :=
  { State.reset with
    refTables := s.refTables
    symSource := s.symSource
    symSink := s.symSink
    bitSource := s.bitSource
    bitSink := s.bitSink
    host := s.host
    readLog := s.readLog }

end Sys2Proof.Machine
end

