-- ==== Sys2Proof/Machine/Dispatch.lean ====
section
/-! DEFINITION. exec: one arm per command (spec/30_encoding.md R72), each a call of its meaning. -/

namespace Sys2Proof.Machine

def exec (i : Instr) (s : State) : Host.Outcome State Fault Refusal :=
  match i with
  | .clear => Sys2Proof.Machine.execClear s
  | .statFreq => Sys2Proof.Machine.execStatFreq s
  | .buildFreq => Sys2Proof.Machine.execBuildFreq s
  | .tableDecode => Sys2Proof.Machine.execTableDecode s
  | .tableEncode => Sys2Proof.Machine.execTableEncode s
  | .loadRef k => Sys2Proof.Machine.execLoadRef k s
  | .buildAnchors => Sys2Proof.Machine.execBuildAnchors s
  | .encInit mode => Sys2Proof.Machine.execEncInit mode s
  | .encStep sym => Sys2Proof.Machine.execEncStep sym s
  | .encRun => Sys2Proof.Machine.execEncRun s
  | .encDone => Sys2Proof.Machine.execEncDone s
  | .decInit => Sys2Proof.Machine.execDecInit s
  | .decStep => Sys2Proof.Machine.execDecStep s
  | .decRun => Sys2Proof.Machine.execDecRun s
  | .decDone => Sys2Proof.Machine.execDecDone s

end Sys2Proof.Machine
end

