-- ==== Sys2Proof/Machine/Agents.lean ====
section
/-! DEFINITION. The agents' moves (spec/00_scope.md R10): the block's iteration of a running command (R37, R94), the issue of a command word (R89), and the service of a host access or of reset (spec/20_memory.md R53–R56, R200). -/

namespace Sys2Proof.Machine

/-- The block's move: one iteration of the command in progress (R37: "the block's only enabled step"), and nothing while it
is idle (R198, R201). -/
def iterate (s : State) : State :=
  match s.runKind with
  | .none => s
  | .stat => statIteration s
  | .enc => encIteration s
  | .dec => decIteration s

/-- LAST_OP <- w[7:0] (R89) -/
def setLastOp (w : Word) (s : State) : State := { s with lastOp := wordOp w }

/-- The issue of a command word (R89): an illegal word finishes ILLEGAL_COMMAND and has no other effect (R91); the phase is
checked by each command's own `guarded`. -/
def issue (w : Word) (s : State) : Result :=
  match decode w with
  | .ok i => exec i (setLastOp w s)
  | .error _ => .next (finish .illegalCommand (setLastOp w s))

/-- A host read, its value appended to the log (R53–R55). -/
def serveRead (width : Nat) (off : Offset) (s : State) : State :=
  { (busRead width off s).2 with readLog := s.readLog ++ [(busRead width off s).1] }

/-- A host write (R53, R54, R56; log entry 13): dropped while busy, rejected when misaligned or not 4 bytes wide, a command at CMD, and
otherwise the place's own. -/
def serveWrite (width : Nat) (off : Offset) (v : Word) (s : State) : Result :=
  if busy s then .next (faultBusyWrite s)
  else if legalAccess width off then
    if placeAt off.toNat = .cmd then issue v s else .next (writePlace v s (placeAt off.toNat))
  else .next (faultBadAccess s)

/-- The service of the next event, `s` being the state without it. `poll` waits, the block iterating, until BUSY = 0; then
it is a read of STATUS (R75). -/
def serve (e : Event) (s : State) : Result :=
  match e with
  | .read width off => .next (serveRead width off s)
  | .write width off v => serveWrite width off v s
  | .poll => .next (if busy s then { iterate s with host := .poll :: s.host } else serveRead 4 0x004 s)
  | .pass => .next (iterate s)
  | .reset => .next (resetBlock s)

/-- One step of the whole: the next event of the outside, or the block's own move when there is none. -/
def advance (s : State) : Result :=
  match s.host with
  | [] => .next (iterate s)
  | e :: rest => serve e { s with host := rest }

/-- The next event becomes a host write of `w` to CMD, and no iterating command is in progress, since R89 issues a word only
while BUSY = 0. -/
def placeCommand (w : Word) (s : State) : State :=
  { s with host := .write 4 0x000 w :: s.host, runKind := .none }

end Sys2Proof.Machine
end

