-- ==== Sys2Proof/Machine/Step.lean ====
section
/-! DEFINITION. The machine's step, and how a command word comes to be the next thing it runs. -/

namespace Sys2Proof.Machine

/-- One step: a host access, a reset, or the block's own move (R9, R10, R59). -/
def step (s : State) : Host.Outcome State Fault Refusal := advance s

/-- `s` with a table word of `nbits` bits as the next command: the block fetches nothing, a command is the word the host
writes to CMD (R64), so the host's next access is that write. -/
def State.withFetchWord (s : State) (nbits w : Nat) : State := placeCommand (BitVec.ofNat 32 (w % 2 ^ nbits)) s

end Sys2Proof.Machine
end

