-- ==== Sys2Proof/Safety.lean ====
section
/-! DEFINITION. The terms claims are stated in: the invariant of the code entries (spec/10_state.md R32), what a finished command leaves in STATUS, which bits a source or sink agent will give or take, and the host accesses as seen in one step. -/

namespace Sys2Proof.Machine

/-- ENTRY[a].depth as a number. -/
def depthOf (s : State) (a : Symbol) : Nat := (entryAt s a).depth.toNat

/-- ENTRY[a].code as a number. -/
def codeOf (s : State) (a : Symbol) : Nat := (entryAt s a).code.toNat

/-- A coded symbol: depth > 0 (R18). -/
abbrev Coded (s : State) (a : Symbol) : Prop := 0 < depthOf s a

/-- b's code after a's in the canonical order (R32 E4). -/
abbrev CanonicalNext (s : State) (a b : Symbol) : Prop :=
  codeOf s b = (codeOf s a + 1) * 2 ^ (depthOf s b - depthOf s a)

/-- The invariant of ENTRY (R32), E1 to E6. -/
structure EntryInvariant (s : State) : Prop where
  /-- E1 -/
  depthAndCodeFit : ∀ a, Coded s a → depthOf s a ≤ 16 ∧ codeOf s a < 2 ^ depthOf s a
  /-- E2 -/
  uncodedIsZero : ∀ a, ¬ Coded s a → codeOf s a = 0
  /-- E3 -/
  prefixFree : ∀ a, Coded s a → ∀ b, Coded s b → a ≠ b → ¬ codeword (entryAt s a) <+: codeword (entryAt s b)
  /-- E4: the first of the coded symbols, ordered by (depth, code), has code 0 -/
  firstCodeIsZero : ∀ a, (codedSequence s).head? = some a → codeOf s a = 0
  /-- E4: each next one's code follows from the one before -/
  canonical : (codedSequence s).IsChain (CanonicalNext s)
  /-- E5 -/
  noAllOnes : ∀ a, Coded s a → (∀ b, depthOf s b ≤ depthOf s a) → codeOf s a ≠ 2 ^ depthOf s a - 1
  /-- E6 -/
  countFits : ∀ L, 1 ≤ L → depthCount s L ≤ 255

/-- The anchors are those of the table in PACKED, as BUILD_ANCHORS and DEC_INIT leave them (R140, R164). -/
def AnchorsMatch (s : State) : Prop :=
  ∀ L, 1 ≤ L → L ≤ 16 →
    (firstAt s L).toNat = canonFirst s.packed L ∧ (indexAt s L).toNat = canonIndex s.packed L

/-- The number bits spell, most significant first (R168's fold). -/
def bitsValue (bs : List Bool) : Nat := bs.foldl (fun v b => 2 * v + b.toNat) 0

/-- The `n` low bits of a number, most significant first (R11, R78). -/
def msbFirst (n v : Nat) : List Bool := (List.range n).map fun t => v.testBit (n - 1 - t)

/-- The agent's next `n` availability answers are not "no". -/
def Source.answersYes {α : Type} (p : Source α) (n : Nat) : Prop := ∀ t, t < n → p.answers.getD t true = true

/-- The value the agent delivers at the `n`-th pull from now. -/
def Source.nth {α : Type} (p : Source α) (n : Nat) : Option α :=
  match p.items[n]? with
  | some x => some x
  | none => p.rest

/-- The agent's next values are `xs`, whatever follows. -/
def Source.delivers {α : Type} (p : Source α) (xs : List α) : Prop := ∀ n, n < xs.length → p.nth n = xs[n]?

/-- The agent reports nothing available after `n` calls and pulls from now (R61). -/
def Source.dryAfter {α : Type} (p : Source α) (n : Nat) : Prop := p.answers.getD n true = false ∨ p.nth n = none

/-- The agent after `a` availability calls and `n` pulls from now. -/
def Source.after {α : Type} (p : Source α) (a n : Nat) : Source α := ⟨p.items.drop n, p.rest, p.answers.drop a⟩

/-- The agent's answer to the can-accept call `n` calls from now. -/
def Sink.answerAt {α : Type} (p : Sink α) (n : Nat) : Bool := p.answers.getD n p.rest

/-- A state that goes on like `s` at the window: the next event is a read at `off`, and the step answers `v` for it and changes
nothing else but the queue and the log. -/
def ReadsAs (s : State) (off : Nat) (v : Word) : Prop :=
  ∀ (o : Offset) (rest : List Event), o.toNat = off →
    step { s with host := .read 4 o :: rest } = .next { s with host := rest, readLog := s.readLog ++ [v] }

/-- A read at `off` returns 0 and sets FAULT.BAD_ACCESS (R53). -/
def ReadRejected (s : State) (off : Nat) : Prop :=
  ∀ (o : Offset) (rest : List Event), o.toNat = off →
    step { s with host := .read 4 o :: rest } =
      .next { s with host := rest, readLog := s.readLog ++ [0], fault := { s.fault with badAccess := true } }

/-- A write at `off` is dropped and sets FAULT.BAD_ACCESS (R53). -/
def WriteRejected (s : State) (off : Nat) : Prop :=
  ∀ (o : Offset) (v : Word) (rest : List Event), o.toNat = off →
    step { s with host := .write 4 o v :: rest } =
      .next { s with host := rest, fault := { s.fault with badAccess := true } }

/-- A command is issued in `s`, and the block then makes `n` steps: how an iterating command runs while the host makes no
access (R94). -/
def Ran (i : Instr) (n : Nat) (s t : State) : Prop := ∃ u, exec i s = .next u ∧ core.run n u = .next t

/-- The "x" cells of R183's table: the statuses a well-formed command can finish with. -/
def mayFinish : Instr → StatusCode → Bool
  | .clear, c | .buildFreq, c | .tableEncode, c | .loadRef _, c | .buildAnchors, c => c == .ok
  | .statFreq, c | .tableDecode, c | .decInit, c => c == .ok || c == .preconditionViolated
  | .encInit mode, c => c == .ok || (c == .preconditionViolated && mode == 1)
  | .encStep _, c | .encRun, c => c == .ok || c == .symbolNotCoded || c == .outputFull || c == .illegalState
  | .encDone, c => c == .ok || c == .outputFull || c == .illegalState
  | .decStep, c =>
    c == .ok || c == .truncatedStream || c == .corruptTable || c == .illegalState || c == .preconditionViolated
  | .decRun, c =>
    c == .ok || c == .truncatedStream || c == .corruptTable || c == .outputFull || c == .illegalState ||
      c == .preconditionViolated
  | .decDone, c => c == .ok || c == .illegalState

/-- The offsets of R52's map that are not mapped, and those that are not a multiple of 4 (R47). -/
def unmappedOrMisaligned (off : Nat) : Prop :=
  off % 4 ≠ 0 ∨ (0x028 ≤ off ∧ off ≤ 0x3FF) ∨ (0xD10 ≤ off ∧ off ≤ 0xDFF) ∨ 0xE80 ≤ off

/-- A read that R53 or R54 rejects. -/
def readIsRejected (width : Nat) (off : Offset) : Prop := width ≠ 4 ∨ unmappedOrMisaligned off.toNat

/-- A write that R53 or R54 rejects, while not busy: what a read is rejected for, and the read-only offsets. -/
def writeIsRejected (width : Nat) (off : Offset) : Prop :=
  readIsRejected width off ∨ (0x004 ≤ off.toNat ∧ off.toNat ≤ 0x027) ∨ (0x800 ≤ off.toNat ∧ off.toNat ≤ 0xBFF) ∨
    (0xE00 ≤ off.toNat ∧ off.toNat ≤ 0xE7F)

/-- The columns of R41's table. -/
inductive Column where
  | freq | entry | packed | anchors | phase | count | bitCount | decode | encLastBits
deriving DecidableEq, Repr

/-- R41: which command writes which column. -/
def mayWrite : Instr → Column → Bool
  | .clear, _ => true
  | .statFreq, c => c == .freq || c == .count
  | .buildFreq, c | .tableDecode, c => c == .entry
  | .tableEncode, c | .loadRef _, c => c == .packed
  | .buildAnchors, c => c == .anchors
  | .encInit _, c => c == .entry || c == .phase || c == .count || c == .bitCount || c == .encLastBits
  | .encStep _, c => c == .bitCount || c == .encLastBits
  | .encRun, c => c == .count || c == .bitCount || c == .encLastBits
  | .encDone, c => c == .phase || c == .bitCount
  | .decInit, c => c == .anchors || c == .phase || c == .count || c == .decode
  | .decStep, c => c == .decode
  | .decRun, c => c == .count || c == .decode
  | .decDone, c => c == .phase

/-- R41: the cells marked "on OK". -/
def onOkOnly : Instr → Column → Bool
  | .buildFreq, c | .tableDecode, c => c == .entry
  | .tableEncode, c => c == .packed
  | .encInit _, c => c == .entry || c == .count || c == .bitCount || c == .encLastBits
  | .decInit, c => c == .anchors || c == .count || c == .decode
  | .clear, _ | .statFreq, _ | .loadRef _, _ | .buildAnchors, _ | .encStep _, _ | .encRun, _ | .encDone, _ => false
  | .decStep, _ | .decRun, _ | .decDone, _ => false

/-- The column is the same in both states; PACKED byte for byte. -/
def columnKept (c : Column) (s t : State) : Prop :=
  match c with
  | .freq => ∀ a, freqAt t a = freqAt s a
  | .entry => ∀ a, entryAt t a = entryAt s a
  | .packed => ∀ a, readByte t.packed a = readByte s.packed a
  | .anchors => t.first = s.first ∧ t.index = s.index
  | .phase => t.phase = s.phase
  | .count => t.count = s.count
  | .bitCount => t.bitCount = s.bitCount
  | .decode => t.decSym = s.decSym ∧ t.decValid = s.decValid ∧ t.decBits = s.decBits
  | .encLastBits => t.encLastBits = s.encLastBits

end Sys2Proof.Machine
end

