-- ==== Sys2Proof/Certificates/Slice0/Obligations.lean ====
section
/-! DEFINITION. The statements for the provers. Each formalises rules of spec/, named in its docstring; a next state is written as a record update, so that every field it does not name is unchanged, PACKED byte for byte with it. -/

open Sys2Proof Sys2Proof.Machine

/-! ### The command word (spec/30_encoding.md) -/

/-- R70, R71, R72, R74: no bit of an encoding is dropped. -/
def Obligations.DecodeOfEncodeIsTheCommand : Prop :=
  ∀ i : Instr, i.wellFormed = true → decode (encode i) = .ok i

/-- R70, R72: a legal word is the one word of its command, and its operand is legal. -/
def Obligations.EncodeOfDecodeIsTheWord : Prop :=
  ∀ (w : Word) (i : Instr), decode w = .ok i → i.wellFormed = true ∧ encode i = w

/-- R72, spec/opcode_table.json: a word decodes to a command exactly when it matches that command's row. -/
def Obligations.LegalWordsAreTheOpcodeRows : Prop :=
  ∀ w : Word,
    (∀ i, decode w = .ok i → ∃ r ∈ opcodeRows, r.name = mnemonic i ∧ rowMatches r w = true) ∧
    (∀ r ∈ opcodeRows, rowMatches r w = true → ∃ i, decode w = .ok i ∧ mnemonic i = r.name)

/-- R73, with the order of R186: the reason of a rejection is the first of RSV, OP, ARG that fails. -/
def Obligations.IllegalWordsAndTheirReasons : Prop :=
  ∀ w : Word,
    let known := [0x01#8, 0x02#8, 0x03#8, 0x04#8, 0x05#8, 0x06#8, 0x07#8, 0x10#8, 0x11#8, 0x12#8, 0x13#8, 0x20#8, 0x21#8,
      0x22#8, 0x23#8]
    let badArgument := (wordOp w = 0x06#8 ∧ 4 ≤ (wordArg w).toNat) ∨ (wordOp w = 0x10#8 ∧ 2 ≤ (wordArg w).toNat) ∨
      (wordOp w ≠ 0x06#8 ∧ wordOp w ≠ 0x10#8 ∧ wordOp w ≠ 0x11#8 ∧ wordArg w ≠ 0)
    (wordRsv w ≠ 0 → decode w = .error .reservedBits) ∧
    (wordRsv w = 0 → wordOp w ∉ known → decode w = .error .unknownOpcode) ∧
    (wordRsv w = 0 → wordOp w ∈ known → badArgument → decode w = .error .argumentOutOfRange) ∧
    (wordRsv w = 0 → wordOp w ∈ known → ¬ badArgument → ∃ i, decode w = .ok i)

/-- R72, R75, R76: words written out from the opcode map, one or more of each family. -/
def Obligations.WordsOfEachFamilyDecode : Prop :=
  decode 0x00000001 = .ok .clear ∧ decode 0x00000002 = .ok .statFreq ∧ decode 0x00000005 = .ok .tableEncode ∧
  decode 0x00000306 = .ok (.loadRef 3) ∧ decode 0x00000007 = .ok .buildAnchors ∧ decode 0x00000110 = .ok (.encInit 1) ∧
  decode 0x00004111 = .ok (.encStep 0x41) ∧ decode 0x00000013 = .ok .encDone ∧ decode 0x00000022 = .ok .decRun

/-! ### Issue, phases and the whole machine (spec/40_session.md, spec/10_state.md, spec/60_exceptions.md) -/

/-- R89: a legal word written to CMD while BUSY = 0 sets LAST_OP and runs its command. The model adds that the write leaves
the host's queue (log entry 3). The second clause is the same for `withFetchWord`. -/
def Obligations.CommandWriteRunsTheDecodedCommand : Prop :=
  ∀ (s : State) (w : Word) (i : Instr), decode w = .ok i →
    (∀ rest, busy s = false → s.host = .write 4 0x000 w :: rest →
      step s = exec i { s with host := rest, lastOp := wordOp w }) ∧
    step (s.withFetchWord 32 w.toNat) = exec i { s with runKind := .none, lastOp := wordOp w }

/-- R73, R91: an illegal word finishes ILLEGAL_COMMAND and changes STATUS alone. -/
def Obligations.IllegalWordChangesStatusAlone : Prop :=
  ∀ (s : State) (w : Word) (rest : List Event), busy s = false → s.host = .write 4 0x000 w :: rest →
    (wordRsv w ≠ 0 ∨
      wordOp w ∉ [0x01#8, 0x02#8, 0x03#8, 0x04#8, 0x05#8, 0x06#8, 0x07#8, 0x10#8, 0x11#8, 0x12#8, 0x13#8, 0x20#8, 0x21#8,
        0x22#8, 0x23#8] ∨
      (wordOp w = 0x06#8 ∧ 4 ≤ (wordArg w).toNat) ∨ (wordOp w = 0x10#8 ∧ 2 ≤ (wordArg w).toNat) ∨
      (wordOp w ≠ 0x06#8 ∧ wordOp w ≠ 0x10#8 ∧ wordOp w ≠ 0x11#8 ∧ wordArg w ≠ 0)) →
    step s = .next { s with host := rest, lastOp := wordOp w, code := .illegalCommand, runKind := .none }

/-- R92: where a command is not allowed it finishes ILLEGAL_STATE with the phase as it was, and the phase each command and
each iteration leaves. A command "allowed in any" phase is in no first clause. -/
def Obligations.PhaseRules : Prop :=
  (∀ s : State,
    let turnedAway := Host.Outcome.next (φ := Fault) (ρ := Refusal) { s with code := .illegalState, runKind := .none }
    (s.phase ≠ .encActive → (∀ a, exec (.encStep a) s = turnedAway) ∧ exec .encRun s = turnedAway) ∧
    (s.phase ≠ .encActive → s.phase ≠ .encDone → exec .encDone s = turnedAway) ∧
    (s.phase ≠ .decActive → exec .decStep s = turnedAway ∧ exec .decRun s = turnedAway) ∧
    (s.phase ≠ .decActive → s.phase ≠ .decDone → exec .decDone s = turnedAway)) ∧
  (∀ (i : Instr) (s t : State), i.wellFormed = true → exec i s = .next t →
    t.phase =
      match i with
      | .clear => .idle
      | .encInit _ => if t.code = .ok then .encActive else .idle
      | .decInit => if t.code = .ok then .decActive else .idle
      | .encDone => if s.phase = .encActive ∧ t.code = .ok then .encDone else s.phase
      | .decDone => if s.phase = .decActive then .decDone else s.phase
      | _ => s.phase) ∧
  (∀ s : State, (iterate s).phase = s.phase)

/-- R41: a cell marked "-" is not written, a cell marked "on OK" is written on OK only, and a command that finishes
ILLEGAL_STATE writes nothing but STATUS; an iteration writes what its command's row allows. In every case FAULT (but for
STAT_FREQ's overflow bit), LAST_OP, the reference ROM, the host's queue and the read log are as they were. -/
def Obligations.CommandsWriteOnlyTheirColumns : Prop :=
  (∀ (i : Instr) (s t : State) (c : Column), exec i s = .next t →
    mayWrite i c = false ∨ (onOkOnly i c = true ∧ t.code ≠ .ok) ∨ phaseOk i s.phase = false → columnKept c s t) ∧
  (∀ (s : State) (c : Column),
    (s.runKind = .stat → mayWrite .statFreq c = false → columnKept c s (iterate s)) ∧
    (s.runKind = .enc → mayWrite .encRun c = false → columnKept c s (iterate s)) ∧
    (s.runKind = .dec → mayWrite .decRun c = false → columnKept c s (iterate s))) ∧
  (∀ (i : Instr) (s t : State), exec i s = .next t →
    t.fault = s.fault ∧ t.lastOp = s.lastOp ∧ t.refTables = s.refTables ∧ t.host = s.host ∧ t.readLog = s.readLog) ∧
  (∀ s : State, (s.runKind ≠ .stat → (iterate s).fault = s.fault) ∧ (iterate s).lastOp = s.lastOp ∧
    (iterate s).refTables = s.refTables ∧ (iterate s).host = s.host ∧ (iterate s).readLog = s.readLog)

/-- R62: which ports each command uses; no command uses another. -/
def Obligations.CommandsUseOnlyTheirPorts : Prop :=
  (∀ (i : Instr) (s t : State), exec i s = .next t →
    t.symSource = s.symSource ∧ t.symSink = s.symSink ∧
    (i ≠ .decStep → t.bitSource = s.bitSource) ∧
    ((∀ a, i ≠ .encStep a) → i ≠ .encDone → t.bitSink = s.bitSink)) ∧
  (∀ s : State,
    (s.runKind ≠ .stat → s.runKind ≠ .enc → (iterate s).symSource = s.symSource) ∧
    (s.runKind ≠ .dec → (iterate s).symSink = s.symSink ∧ (iterate s).bitSource = s.bitSource) ∧
    (s.runKind ≠ .enc → (iterate s).bitSink = s.bitSink))

/-- R94: the start of the three iterating commands, in the phases that allow them: BUSY, RUNKIND and COUNT, nothing else. -/
def Obligations.IteratingCommandsStart : Prop :=
  ∀ s : State,
    exec .statFreq s = .next { s with runKind := .stat, count := 0 } ∧
    (s.phase = .encActive → exec .encRun s = .next { s with runKind := .enc, count := 0 }) ∧
    (s.phase = .decActive → exec .decRun s = .next { s with runKind := .dec, count := 0 }) ∧
    (∀ t : State, busy t = true ↔ t.runKind ≠ .none)

/-- R189: there are no traps: every command and every step answers a next state, in every state. -/
def Obligations.EveryStepAnswersANextState : Prop :=
  (∀ (i : Instr) (s : State), ∃ t, exec i s = .next t) ∧ ∀ s : State, ∃ t, step s = .next t

/-- R183: the statuses each command can finish with. The two marked "u", which the rule says no run reaches, are shut out:
TABLE_OVERFLOW in every state, and TABLE_ENCODE's PRECONDITION_VIOLATED in every state of R32's invariant. -/
def Obligations.CommandsFinishWithTheirStatuses : Prop :=
  (∀ (i : Instr) (s t : State), i.wellFormed = true → EntryInvariant s → exec i s = .next t → busy t = false →
    mayFinish i t.code = true) ∧
  (∀ s t : State, exec .buildFreq s = .next t ∨ exec (.encInit 0) s = .next t → t.code = .ok) ∧
  (∀ s : State, busy (iterate s) = false →
    (s.runKind = .stat → mayFinish .statFreq (iterate s).code = true) ∧
    (s.runKind = .enc → mayFinish .encRun (iterate s).code = true) ∧
    (s.runKind = .dec → mayFinish .decRun (iterate s).code = true))

/-- R20, R95: CODE is written only by a finish, so it holds the previous command's code while BUSY = 1; LAST_OP changes only
by a word written to CMD while not busy, or by reset. -/
def Obligations.CodeIsKeptWhileBusy : Prop :=
  ∀ s t : State, step s = .next t →
    (busy t = true → t.code = s.code) ∧
    (t.lastOp ≠ s.lastOp →
      s.host.head? = some .reset ∨ (busy s = false ∧ ∃ w, s.host.head? = some (.write 4 0x000 w) ∧ t.lastOp = wordOp w))

/-- R198, R201: an idle block does nothing until the host acts. -/
def Obligations.IdleBlockDoesNothing : Prop :=
  ∀ s : State, busy s = false →
    (s.host = [] → step s = .next s) ∧ ∀ rest, s.host = .pass :: rest → step s = .next { s with host := rest }

/-- R9, R37, R59 O3, R75: when the host makes no access, a step is one iteration of the running command; a POLL lets the block
iterate while BUSY = 1 and then reads STATUS. That a busy POLL logs no value is the model's choice (log entry 3). -/
def Obligations.StepsWithoutAnAccessIterate : Prop :=
  ∀ (s : State) (rest : List Event),
    step { s with host := [] } = .next { iterate s with host := [] } ∧
    step { s with host := .pass :: rest } = .next { iterate s with host := rest } ∧
    (busy s = true → step { s with host := .poll :: rest } = .next { iterate s with host := .poll :: rest }) ∧
    (busy s = false → step { s with host := .poll :: rest } =
      .next { s with host := rest, readLog := s.readLog ++ [statusWord s] })

/-- R27, R187: a FAULT bit, once set, stays set except through reset, and each bit is set by its own cause only: BUSY_WRITE by
a write while busy, BAD_ACCESS by an access R53 or R54 rejects, FREQ_OVERFLOW by a STAT_FREQ iteration whose symbol's counter is at
2^32 − 1. That no write
while busy sets BAD_ACCESS, a misaligned or narrow one included, is log entry 13 (DEDUCED from R56, R90 and R186). -/
def Obligations.FaultBitsAreSticky : Prop :=
  ∀ s t : State, step s = .next t → s.host.head? ≠ some .reset →
    (s.fault.busyWrite = true → t.fault.busyWrite = true) ∧
    (s.fault.badAccess = true → t.fault.badAccess = true) ∧
    (s.fault.freqOverflow = true → t.fault.freqOverflow = true) ∧
    (t.fault.busyWrite ≠ s.fault.busyWrite →
      busy s = true ∧ ∃ width off v, s.host.head? = some (.write width off v)) ∧
    (t.fault.badAccess ≠ s.fault.badAccess →
      (∃ width off, s.host.head? = some (.read width off) ∧ readIsRejected width off) ∨
      (busy s = false ∧ ∃ width off v, s.host.head? = some (.write width off v) ∧ writeIsRejected width off)) ∧
    (t.fault.freqOverflow ≠ s.fault.freqOverflow → s.runKind = .stat ∧ t.code = .preconditionViolated ∧
      ∃ a, s.symSource.avail.1 = some a ∧ (freqAt s a).toNat = 2 ^ 32 - 1)

/-! ### The host bus (spec/20_memory.md) -/

/-- R56, R90: a write while BUSY is dropped and sets BUSY_WRITE alone, whatever its offset. That this goes before R54 for a
misaligned or narrow write, which then does not set BAD_ACCESS, is log entry 13 (DEDUCED, with R186). -/
def Obligations.WriteWhileBusyIsDropped : Prop :=
  ∀ (s : State) (width : Nat) (off : Offset) (v : Word) (rest : List Event), busy s = true →
    s.host = .write width off v :: rest →
    step s = .next { s with host := rest, fault := { s.fault with busyWrite := true } }

/-- R54: a misaligned or narrow access is rejected whole. A write is meant while BUSY = 0; R56
drops it otherwise (log entry 13). -/
def Obligations.MisalignedOrNarrowAccessIsRejected : Prop :=
  ∀ (s : State) (width : Nat) (off : Offset) (rest : List Event), width ≠ 4 ∨ off.toNat % 4 ≠ 0 →
    (s.host = .read width off :: rest →
      step s = .next { s with
        host := rest, readLog := s.readLog ++ [0], fault := { s.fault with badAccess := true } }) ∧
    (∀ v, busy s = false → s.host = .write width off v :: rest →
      step s = .next { s with host := rest, fault := { s.fault with badAccess := true } })

/-- R52, R53: what a read of each offset returns, busy or not; a read of an unmapped offset returns 0 and sets
FAULT.BAD_ACCESS, and no other read changes the block. -/
def Obligations.ReadsOfTheWindow : Prop :=
  ∀ s : State,
    (ReadsAs s 0x000 0 ∧ ReadsAs s 0x004 (statusWord s) ∧ ReadsAs s 0x008 (phaseWord s) ∧ ReadsAs s 0x00C s.count ∧
      ReadsAs s 0x010 s.bitCount ∧ ReadsAs s 0x014 (decSymbolWord s) ∧ ReadsAs s 0x018 (decBitsWord s) ∧
      ReadsAs s 0x01C (encLastBitsWord s) ∧ ReadsAs s 0x020 (faultWord s) ∧ ReadsAs s 0x024 0x48554637) ∧
    (∀ a : Symbol, ReadsAs s (0x400 + 4 * a.toNat) (freqAt s a) ∧
      ReadsAs s (0x800 + 4 * a.toNat) (entryWord a (entryAt s a))) ∧
    (∀ w, w < 68 → ReadsAs s (0xC00 + 4 * w) (packedWord s.packed w)) ∧
    (∀ L, 1 ≤ L → L ≤ 16 → ReadsAs s (0xE00 + 4 * (L - 1)) (firstAt s L) ∧ ReadsAs s (0xE40 + 4 * (L - 1)) (indexAt s L)) ∧
    (∀ off, off % 4 = 0 →
      (0x028 ≤ off ∧ off ≤ 0x3FC) ∨ (0xD10 ≤ off ∧ off ≤ 0xDFC) ∨ (0xE80 ≤ off ∧ off ≤ 0xFFC) → ReadRejected s off)

/-- R53, R42, R48, R51: what a write does while BUSY = 0. A FREQ write changes that counter alone, a PACKED write its four
bytes alone, and a write to a read-only or an unmapped offset nothing but FAULT.BAD_ACCESS. -/
def Obligations.WritesOfTheWindow : Prop :=
  ∀ (s : State) (v : Word) (rest : List Event), busy s = false →
    (∀ (o : Offset) (a : Symbol), o.toNat = 0x400 + 4 * a.toNat →
      ∃ f, step { s with host := .write 4 o v :: rest } = .next { s with host := rest, freq := f } ∧
        ∀ b : Symbol, freqAt { s with freq := f } b = if b = a then v else freqAt s b) ∧
    (∀ (o : Offset) (w : Nat), w < 68 → o.toNat = 0xC00 + 4 * w →
      ∃ m, step { s with host := .write 4 o v :: rest } = .next { s with host := rest, packed := m } ∧
        (∀ j, j < 4 → readByte m (4 * w + j) = v.extractLsb' (8 * j) 8) ∧
        ∀ a, a < 4 * w ∨ 4 * w + 4 ≤ a → readByte m a = readByte s.packed a) ∧
    (∀ off, off % 4 = 0 →
      (0x004 ≤ off ∧ off ≤ 0x3FC) ∨ (0x800 ≤ off ∧ off ≤ 0xBFC) ∨ (0xD10 ≤ off ∧ off ≤ 0xFFC) → WriteRejected s off)

/-- R20, R21, R24, R25, R26, R27, R182: where each field stands in its register word, that the reserved bits are 0, and the
numbers of the nine status codes and of the five phases. -/
def Obligations.RegisterWordLayouts : Prop :=
  ∀ s : State,
    ((statusWord s).extractLsb' 0 4 = statusNumber s.code ∧ (statusWord s).getLsbD 4 = busy s ∧
      (statusWord s).extractLsb' 5 3 = 0 ∧ (statusWord s).extractLsb' 8 8 = s.lastOp ∧
      (statusWord s).extractLsb' 16 16 = 0) ∧
    (statusNumber .ok = 0 ∧ statusNumber .tableOverflow = 1 ∧ statusNumber .symbolNotCoded = 2 ∧
      statusNumber .truncatedStream = 3 ∧ statusNumber .corruptTable = 4 ∧ statusNumber .outputFull = 5 ∧
      statusNumber .illegalCommand = 6 ∧ statusNumber .illegalState = 7 ∧ statusNumber .preconditionViolated = 8 ∧
      (statusNumber s.code).toNat ≤ 8) ∧
    ((phaseWord s).extractLsb' 0 3 = phaseNumber s.phase ∧ (phaseWord s).extractLsb' 3 29 = 0 ∧
      phaseNumber .idle = 0 ∧ phaseNumber .encActive = 1 ∧ phaseNumber .encDone = 2 ∧ phaseNumber .decActive = 3 ∧
      phaseNumber .decDone = 4 ∧ (phaseNumber s.phase).toNat ≤ 4) ∧
    ((decSymbolWord s).extractLsb' 0 8 = s.decSym ∧ (decSymbolWord s).getLsbD 8 = s.decValid ∧
      (decSymbolWord s).extractLsb' 9 23 = 0) ∧
    ((decBitsWord s).extractLsb' 0 5 = s.decBits ∧ (decBitsWord s).extractLsb' 5 27 = 0) ∧
    ((encLastBitsWord s).extractLsb' 0 5 = s.encLastBits ∧ (encLastBitsWord s).extractLsb' 5 27 = 0) ∧
    ((faultWord s).getLsbD 0 = s.fault.busyWrite ∧ (faultWord s).getLsbD 1 = s.fault.badAccess ∧
      (faultWord s).getLsbD 2 = s.fault.freqOverflow ∧ (faultWord s).extractLsb' 3 29 = 0)

/-- R80, R48: the ENTRY word's fields, and the little-endian bytes of a PACKED word. -/
def Obligations.EntryAndPackedWordLayouts : Prop :=
  (∀ (a : Symbol) (e : CodeEntry),
    (entryWord a e).extractLsb' 0 8 = a ∧ (entryWord a e).extractLsb' 8 5 = e.depth ∧
    (entryWord a e).extractLsb' 13 3 = 0 ∧ (entryWord a e).extractLsb' 16 16 = e.code) ∧
  entryWord 0x05 ⟨2, 2⟩ = 0x00020205 ∧
  ∀ (m : Memory) (w j : Nat), j < 4 → (packedWord m w).extractLsb' (8 * j) 8 = readByte m (4 * w + j)

/-! ### Reset and CLEAR (spec/70_reset_and_hazards.md, spec/40_session.md) -/

/-- R40, R200: reset gives every piece of state its value of R40's table, abandons a run, and leaves the ports and the
reference ROM alone; so does the state the machine starts in (its ports are log entry 2's choice and its ROM log entry 4's, neither stated). -/
def Obligations.ResetGivesTheResetValues : Prop :=
  let atReset (t : State) : Prop :=
    statusWord t = 0 ∧ phaseWord t = 0 ∧ t.count = 0 ∧ t.bitCount = 0 ∧ decSymbolWord t = 0 ∧ decBitsWord t = 0 ∧
    encLastBitsWord t = 0 ∧ faultWord t = 0 ∧ placeWord t (placeAt 0x024) = 0x48554637 ∧ t.runKind = .none ∧
    (∀ a, freqAt t a = 0) ∧
    (∀ a, entryWord a (entryAt t a) = BitVec.ofNat 32 a.toNat) ∧ (∀ a, readByte t.packed a = 0) ∧
    ∀ L, 1 ≤ L → L ≤ 16 → firstAt t L = 0 ∧ indexAt t L = 0
  atReset State.reset ∧
  ∀ (s : State) (rest : List Event), s.host = .reset :: rest →
    ∃ t, step s = .next t ∧ atReset t ∧ t.symSource = s.symSource ∧ t.symSink = s.symSink ∧ t.bitSource = s.bitSource ∧
      t.bitSink = s.bitSink ∧ t.refTables = s.refTables

/-- R96, R202: CLEAR gives what reset gives, except that it keeps FAULT and finishes OK (LAST_OP is the issue's, 0x01). The
ports and the reference ROM are not touched. -/
def Obligations.ClearIsResetButForFaultAndStatus : Prop :=
  ∀ s : State, ∃ t, exec .clear s = .next t ∧ t.code = .ok ∧ t.runKind = .none ∧
    (t.freq = State.reset.freq ∧ t.entry = State.reset.entry ∧ t.first = State.reset.first ∧ t.index = State.reset.index) ∧
    (∀ a, readByte t.packed a = readByte State.reset.packed a) ∧
    (t.phase = .idle ∧ t.count = 0 ∧ t.bitCount = 0 ∧ t.decSym = 0 ∧ t.decValid = false ∧ t.decBits = 0 ∧
      t.encLastBits = 0) ∧
    (t.fault = s.fault ∧ t.lastOp = s.lastOp ∧ t.refTables = s.refTables ∧ t.host = s.host ∧ t.readLog = s.readLog) ∧
    t.symSource = s.symSource ∧ t.symSink = s.symSink ∧ t.bitSource = s.bitSource ∧ t.bitSink = s.bitSink

/-! ### Invariants -/

/-- Every step keeps PACKED in its canonical form, so equal contents stay equal data. The form is the model's (log entry 9);
what it carries of the spec is that nothing outside PACKED[0..271] is ever stored (R34, R58). -/
def Obligations.PackedStaysCanonical : Prop :=
  ∀ s t : State, Memory.wf s.packed = true → step s = .next t → Memory.wf t.packed = true

/-- R32: every step keeps E1 to E6. -/
def Obligations.EntryInvariantIsKept : Prop :=
  ∀ s t : State, EntryInvariant s → step s = .next t → EntryInvariant t

/-- R32: "After reset" the code entries satisfy E1 to E6; and the reset memory is in the canonical form, which is the model's
(DESIGN CHOICE, log entry 9). -/
def Obligations.InvariantsHoldAtReset : Prop :=
  EntryInvariant State.reset ∧ Memory.wf State.reset.packed = true

/-- R25, R26: N is 0..16 in DEC_BITS and in ENC_LAST_BITS, kept by every step from a state whose entries satisfy R32. -/
def Obligations.BitNumbersStayAtMostSixteen : Prop :=
  ∀ s t : State, EntryInvariant s → s.decBits.toNat ≤ 16 → s.encLastBits.toNat ≤ 16 → step s = .next t →
    t.decBits.toNat ≤ 16 ∧ t.encLastBits.toNat ≤ 16

/-- R143: the anchors are a snapshot: only BUILD_ANCHORS, DEC_INIT, CLEAR or reset changes them. -/
def Obligations.AnchorsAreASnapshot : Prop :=
  ∀ s t : State, step s = .next t → t.first ≠ s.first ∨ t.index ≠ s.index →
    s.host.head? = some .reset ∨
    (busy s = false ∧ ∃ w, s.host.head? = some (.write 4 0x000 w) ∧ w ∈ [0x00000001#32, 0x00000007#32, 0x00000020#32])

/-! ### Frequency analyzer and builder (spec/41_builder.md) -/

/-- R100, R101: one STAT_FREQ iteration, in its three cases. -/
def Obligations.StatFreqIteration : Prop :=
  ∀ s : State, s.runKind = .stat → s.host = [] →
    let src := s.symSource.avail.2
    (s.symSource.avail.1 = none → step s = .next { s with symSource := src, code := .ok, runKind := .none }) ∧
    (∀ a, s.symSource.avail.1 = some a → (freqAt s a).toNat = 2 ^ 32 - 1 →
      step s = .next { s with
        symSource := src.pull, fault := { s.fault with freqOverflow := true }, code := .preconditionViolated,
        runKind := .none }) ∧
    (∀ a, s.symSource.avail.1 = some a → (freqAt s a).toNat ≠ 2 ^ 32 - 1 →
      ∃ f, step s = .next { s with symSource := src.pull, freq := f, count := s.count + 1 } ∧
        (freqAt { s with freq := f } a).toNat = (freqAt s a).toNat + 1 ∧
        ∀ b, b ≠ a → freqAt { s with freq := f } b = freqAt s b)

/-- R100: STAT_FREQ over a finite source, no counter overflowing: from its start, one iteration for each symbol and one that
finds the source exhausted add every symbol's occurrences to its counter, and nothing else changes. -/
def Obligations.StatFreqCountsEverySymbol : Prop :=
  ∀ (s : State) (xs : List Symbol), s.host = [] → s.symSource = ⟨xs, none, []⟩ →
    (∀ a, (freqAt s a).toNat + xs.count a < 2 ^ 32) →
    ∃ s1 f, exec .statFreq s = .next s1 ∧
      core.run (xs.length + 1) s1 = .next { s with
        freq := f, symSource := ⟨[], none, []⟩, count := BitVec.ofNat 32 xs.length, code := .ok, runKind := .none } ∧
      ∀ a, (freqAt { s with freq := f } a).toNat = (freqAt s a).toNat + xs.count a

/-- R102, R109, R112 G1 and G2: BUILD_FREQ finishes OK on every FREQ, codes exactly the symbols with FREQ > 0, with no depth
above 16, and writes ENTRY alone. -/
def Obligations.BuildFreqCodesThePresentSymbols : Prop :=
  ∀ s : State, ∃ e, exec .buildFreq s = .next { s with entry := e, code := .ok, runKind := .none } ∧
    ∀ a, (Coded { s with entry := e } a ↔ 0 < (freqAt s a).toNat) ∧ depthOf { s with entry := e } a ≤ 16

/-- R112 G4: among coded symbols a greater frequency never has a greater depth. -/
def Obligations.GreaterFrequencyIsNotDeeper : Prop :=
  ∀ s t : State, exec .buildFreq s = .next t → ∀ a b, Coded t a → Coded t b →
    (freqAt s b).toNat < (freqAt s a).toNat → depthOf t a ≤ depthOf t b

/-- R103 to R110, R113: the built code of no symbol, of one, and of two of equal frequency. R113's second point names the
lower symbol for the shorter code; by R104 that is so when the frequency is 1, and above 1 the lower symbol is merged with the
pseudo-leaf and gets the longer one (log entry 8). -/
def Obligations.SmallBuiltCodes : Prop :=
  ∀ s : State, ∃ t, exec .buildFreq s = .next t ∧
    ((∀ c, freqAt s c = 0) → ∀ c, entryAt t c = ⟨0, 0⟩) ∧
    (∀ a, freqAt s a ≠ 0 → (∀ c, c ≠ a → freqAt s c = 0) →
      entryAt t a = ⟨1, 0⟩ ∧ ∀ c, c ≠ a → entryAt t c = ⟨0, 0⟩) ∧
    (∀ a b, a.toNat < b.toNat → freqAt s a ≠ 0 → freqAt s b = freqAt s a →
      (∀ c, c ≠ a → c ≠ b → freqAt s c = 0) →
      (freqAt s a = 1 → entryAt t a = ⟨1, 0⟩ ∧ entryAt t b = ⟨2, 2⟩) ∧
      (freqAt s a ≠ 1 → entryAt t b = ⟨1, 0⟩ ∧ entryAt t a = ⟨2, 2⟩) ∧
      ∀ c, c ≠ a → c ≠ b → entryAt t c = ⟨0, 0⟩)

/-! ### Packed tables (spec/42_table_codec.md, spec/43_decode_index.md) -/

/-- R121: Canon(P): the starting values, the two recurrences, and the bounds that keep FIRST and INDEX in 32 bits. -/
def Obligations.CanonicalRecurrence : Prop :=
  ∀ m : Memory, canonFirst m 1 = 0 ∧ canonIndex m 1 = 0 ∧
    ∀ L, 1 ≤ L → L ≤ 16 →
      canonFirst m (L + 1) = 2 * (canonFirst m L + (readByte m (L - 1)).toNat) ∧
      canonIndex m (L + 1) = canonIndex m L + (readByte m (L - 1)).toNat ∧
      canonFirst m L < 2 ^ 25 ∧ canonIndex m L ≤ 4080

/-- R122: TableValid(P) is V1 to V4. -/
def Obligations.TableValidIsV1ToV4 : Prop :=
  ∀ m : Memory, tableValid m = true ↔
    tableSize m ≤ 256 ∧
    (∀ j k, j < tableSize m → k < tableSize m → tableValue m j = tableValue m k → j = k) ∧
    (∀ L, 1 ≤ L → L ≤ 16 → canonFirst m L + tableCount m L ≤ 2 ^ L) ∧
    (∀ M, 1 ≤ M → M ≤ 16 → 0 < tableCount m M → (∀ L, M < L → L ≤ 16 → tableCount m L = 0) →
      canonFirst m M + tableCount m M < 2 ^ M)

/-- R123: TABLE_DECODE gives the k-th value of length L depth L and code first[L] + k, and every other symbol depth 0 and
code 0; an invalid table finishes PRECONDITION_VIOLATED. Nothing but ENTRY and STATUS changes. -/
def Obligations.TableDecodeAssignsTheTablesCodes : Prop :=
  ∀ s : State,
    (tableValid s.packed = true →
      ∃ e, exec .tableDecode s = .next { s with entry := e, code := .ok, runKind := .none } ∧
        (∀ L k, 1 ≤ L → L ≤ 16 → k < tableCount s.packed L →
          let a := tableValue s.packed (canonIndex s.packed L + k)
          depthOf { s with entry := e } a = L ∧ codeOf { s with entry := e } a = canonFirst s.packed L + k) ∧
        ∀ a, (∀ j, j < tableSize s.packed → tableValue s.packed j ≠ a) →
          depthOf { s with entry := e } a = 0 ∧ codeOf { s with entry := e } a = 0) ∧
    (tableValid s.packed = false →
      exec .tableDecode s = .next { s with code := .preconditionViolated, runKind := .none })

/-- R125: TABLE_ENCODE writes all 272 bytes: the counts, the coded symbols sorted by depth and code, and zeros; with more
than 255 symbols at one length it finishes PRECONDITION_VIOLATED and PACKED is unchanged. -/
def Obligations.TableEncodeWritesTheSortedTable : Prop :=
  ∀ s : State,
    ((∀ L, 1 ≤ L → L ≤ 16 → depthCount s L ≤ 255) → (∀ a, depthOf s a ≤ 16) →
      ∃ (m : Memory) (seq : List Symbol), exec .tableEncode s = .next { s with packed := m, code := .ok, runKind := .none } ∧
        (∀ a, a ∈ seq ↔ Coded s a) ∧ seq.Nodup ∧
        seq.Pairwise (fun a b => depthOf s a < depthOf s b ∨ (depthOf s a = depthOf s b ∧ codeOf s a ≤ codeOf s b)) ∧
        (∀ L, 1 ≤ L → L ≤ 16 →
          (readByte m (L - 1)).toNat = (allSymbols.filter fun a => decide (depthOf s a = L)).length) ∧
        (∀ t a, seq[t]? = some a → readByte m (16 + t) = a) ∧
        (∀ t, seq.length ≤ t → readByte m (16 + t) = 0)) ∧
    ((∃ L, 1 ≤ L ∧ L ≤ 16 ∧ 255 < depthCount s L) →
      exec .tableEncode s = .next { s with code := .preconditionViolated, runKind := .none })

/-- R126: the table round trip, both ways. -/
def Obligations.TableRoundTrip : Prop :=
  (∀ s : State, EntryInvariant s →
    ∃ t u, exec .tableEncode s = .next t ∧ t.code = .ok ∧ exec .tableDecode t = .next u ∧ u.code = .ok ∧
      ∀ a, entryAt u a = entryAt s a) ∧
  (∀ s : State, tableValid s.packed = true →
    (∀ k, tableSize s.packed ≤ k → k < 256 → readByte s.packed (16 + k) = 0) →
    ∃ t u, exec .tableDecode s = .next t ∧ t.code = .ok ∧ exec .tableEncode t = .next u ∧ u.code = .ok ∧
      ∀ a, a < 272 → readByte u.packed a = readByte s.packed a)

/-- R36, R127, R128: REF_TABLES is constant, whatever its contents: no step changes it. LOAD_REF k makes PACKED the counts and
the sum(counts) values of table k, zero-filled, and changes nothing else; an operand of 4..255 finishes ILLEGAL_COMMAND. With
the default contents, those of the state after reset (PRESUMED, log entry 4), the loaded tables are valid. -/
def Obligations.LoadRefCopiesTheTable : Prop :=
  (∀ s t : State, step s = .next t → t.refTables = s.refTables) ∧
  (∀ (s : State) (k : BitVec 8),
    (∀ h : k.toNat < 4,
      ∃ m, exec (.loadRef k) s = .next { s with packed := m, code := .ok, runKind := .none } ∧
        (∀ i (hi : i < 16), readByte m i = s.refTables[k.toNat].counts[i]) ∧
        (∀ i (hi : i < 256), readByte m (16 + i) = if i < tableSize m then s.refTables[k.toNat].values[i] else 0)) ∧
    (4 ≤ k.toNat → exec (.loadRef k) s = .next { s with code := .illegalCommand, runKind := .none })) ∧
  ∀ (s : State) (k : BitVec 8), s.refTables = State.reset.refTables → k.toNat < 4 →
    ∃ t, exec (.loadRef k) s = .next t ∧ tableValid t.packed = true

/-- R140, R142, R144: BUILD_ANCHORS writes the recurrence's values of whatever counts PACKED holds, exactly (no wrap), and
nothing else but STATUS; for a valid table the bounds of R144. -/
def Obligations.BuildAnchorsFollowsTheRecurrence : Prop :=
  ∀ s : State, ∃ f x,
    let t : State := { s with first := f, index := x, code := .ok, runKind := .none }
    exec .buildAnchors s = .next t ∧ firstAt t 1 = 0 ∧ indexAt t 1 = 0 ∧
    (∀ L, 1 ≤ L → L < 16 →
      (indexAt t (L + 1)).toNat = (indexAt t L).toNat + tableCount s.packed L ∧
      (firstAt t (L + 1)).toNat = 2 * ((firstAt t L).toNat + tableCount s.packed L)) ∧
    (tableValid s.packed = true → ∀ L, 1 ≤ L → L ≤ 16 →
      (firstAt t L).toNat + tableCount s.packed L ≤ 2 ^ L ∧
      (indexAt t L).toNat + tableCount s.packed L ≤ tableSize s.packed ∧ tableSize s.packed ≤ 256)

/-! ### Encoder (spec/44_encoder.md) -/

/-- R146, R147: ENC_INIT mode 0 builds what BUILD_FREQ builds, mode 1 what TABLE_DECODE builds, and then starts the pass; a
failed build leaves phase IDLE and ENTRY unchanged; a mode of 2..255 finishes ILLEGAL_COMMAND. -/
def Obligations.EncInitBuildsAndStartsThePass : Prop :=
  ∀ s : State,
    (∃ t, exec .buildFreq s = .next t ∧ t.code = .ok ∧
      exec (.encInit 0) s = .next { s with
        entry := t.entry, bitCount := 0, encLastBits := 0, count := 0, phase := .encActive, code := .ok,
        runKind := .none }) ∧
    (tableValid s.packed = true →
      ∃ t, exec .tableDecode s = .next t ∧
        exec (.encInit 1) s = .next { s with
          entry := t.entry, bitCount := 0, encLastBits := 0, count := 0, phase := .encActive, code := .ok,
          runKind := .none }) ∧
    (tableValid s.packed = false →
      exec (.encInit 1) s = .next { s with phase := .idle, code := .preconditionViolated, runKind := .none }) ∧
    (∀ mode : BitVec 8, 2 ≤ mode.toNat →
      exec (.encInit mode) s = .next { s with code := .illegalCommand, runKind := .none })

/-- R149, R150, R152: ENC_STEP of a coded symbol, the sink taking every bit, pushes the depth low bits of the code, most
significant first, counts them in BITCOUNT and ENC_LAST_BITS, and changes nothing else but STATUS; of an uncoded symbol it
pushes nothing and asks the sink nothing. -/
def Obligations.EncStepPushesTheCodeword : Prop :=
  ∀ (s : State) (a : Symbol), s.phase = .encActive →
    (Coded s a → (∀ n, n < depthOf s a → s.bitSink.answerAt n = true) →
      exec (.encStep a) s = .next { s with
        bitSink := ⟨s.bitSink.taken ++ msbFirst (depthOf s a) (codeOf s a), s.bitSink.answers.drop (depthOf s a),
          s.bitSink.rest⟩
        bitCount := s.bitCount + BitVec.ofNat 32 (depthOf s a)
        encLastBits := (entryAt s a).depth, code := .ok, runKind := .none }) ∧
    (¬ Coded s a →
      exec (.encStep a) s = .next { s with encLastBits := 0, code := .symbolNotCoded, runKind := .none })

/-- R149, R150, R151: when the sink refuses bit n of the codeword, the n bits before it stay in the sink and are counted, and
the step finishes OUTPUT_FULL. -/
def Obligations.EncStepStopsAtARefusedBit : Prop :=
  ∀ (s : State) (a : Symbol) (n : Nat), s.phase = .encActive → n < depthOf s a →
    (∀ j, j < n → s.bitSink.answerAt j = true) → s.bitSink.answerAt n = false →
    exec (.encStep a) s = .next { s with
      bitSink := ⟨s.bitSink.taken ++ (msbFirst (depthOf s a) (codeOf s a)).take n, s.bitSink.answers.drop (n + 1),
        s.bitSink.rest⟩
      bitCount := s.bitCount + BitVec.ofNat 32 n
      encLastBits := BitVec.ofNat 5 n, code := .outputFull, runKind := .none }

/-- R158 with R149 and R150: an ENC_RUN iteration ends the run OK on an exhausted source; otherwise it pulls a symbol and does
what ENC_STEP of it does, going on and counting on OK and ending the run with the step's status otherwise. -/
def Obligations.EncRunIterationIsAStep : Prop :=
  ∀ s : State, s.runKind = .enc → s.phase = .encActive → s.host = [] →
    let src := s.symSource.avail.2
    (s.symSource.avail.1 = none → step s = .next { s with symSource := src, code := .ok, runKind := .none }) ∧
    (∀ a, s.symSource.avail.1 = some a →
      ∃ u, exec (.encStep a) { s with symSource := src.pull } = .next u ∧
        step s = .next (if u.code = .ok then { u with code := s.code, runKind := .enc, count := s.count + 1 } else u))

/-- R156, R152: ENC_RUN over a finite source of coded symbols and a sink that never refuses: from its start, one iteration for
each symbol and one that finds the source exhausted push the codewords in order with no delimiter, and it finishes OK with
COUNT the number of symbols. -/
def Obligations.EncRunEncodesTheSource : Prop :=
  ∀ (s : State) (xs : List Symbol), s.phase = .encActive → s.host = [] → s.symSource = ⟨xs, none, []⟩ →
    s.bitSink.answers = [] → s.bitSink.rest = true → (∀ a ∈ xs, Coded s a) →
    ∃ s1 n, exec .encRun s = .next s1 ∧
      core.run (xs.length + 1) s1 = .next { s with
        symSource := ⟨[], none, []⟩
        bitSink := ⟨s.bitSink.taken ++ xs.flatMap (fun a => msbFirst (depthOf s a) (codeOf s a)), [], true⟩
        bitCount := s.bitCount + BitVec.ofNat 32 (xs.map (depthOf s)).sum
        encLastBits := n, count := BitVec.ofNat 32 xs.length, code := .ok, runKind := .none } ∧
      n = ((xs.getLast?).map fun a => (entryAt s a).depth).getD s.encLastBits

/-- R160, R161: ENC_DONE pads with (8 − BITCOUNT mod 8) mod 8 one-bits, after which BITCOUNT is a multiple of 8; a second one
has no effect. -/
def Obligations.EncDonePadsTheLastByte : Prop :=
  ∀ s : State,
    let p := (8 - s.bitCount.toNat % 8) % 8
    (s.phase = .encActive → (∀ n, n < p → s.bitSink.answerAt n = true) →
      exec .encDone s = .next { s with
        bitSink := ⟨s.bitSink.taken ++ List.replicate p true, s.bitSink.answers.drop p, s.bitSink.rest⟩
        bitCount := s.bitCount + BitVec.ofNat 32 p, phase := .encDone, code := .ok, runKind := .none } ∧
      p ≤ 7 ∧ (s.bitCount + BitVec.ofNat 32 p).toNat % 8 = 0) ∧
    (s.phase = .encDone → exec .encDone s = .next { s with code := .ok, runKind := .none })

/-- R160: a refused pad bit finishes OUTPUT_FULL with the phase still ENC_ACTIVE and the pad bits before it counted; a retry
then pushes only the missing ones. -/
def Obligations.RefusedPadBitLeavesThePassResumable : Prop :=
  ∀ (s : State) (n : Nat), s.phase = .encActive → n < (8 - s.bitCount.toNat % 8) % 8 →
    (∀ j, j < n → s.bitSink.answerAt j = true) → s.bitSink.answerAt n = false →
    ∃ t, exec .encDone s = .next t ∧
      t = { s with
        bitSink := ⟨s.bitSink.taken ++ List.replicate n true, s.bitSink.answers.drop (n + 1), s.bitSink.rest⟩
        bitCount := s.bitCount + BitVec.ofNat 32 n, code := .outputFull, runKind := .none } ∧
      (8 - t.bitCount.toNat % 8) % 8 = (8 - s.bitCount.toNat % 8) % 8 - n

/-- R212, for ENC_RUN and DEC_RUN over a source that repeats one value for ever (endless streams of changing values are out by
log entry 5): a coded symbol, or a bit whose repetition decodes, with a sink that never refuses, keeps the block busy through
any number of steps, each counted. -/
def Obligations.EndlessSourceKeepsTheBlockBusy : Prop :=
  (∀ (s : State) (a : Symbol) (k : Nat), s.runKind = .enc → s.host = [] → s.symSource = ⟨[], some a, []⟩ →
    s.bitSink.answers = [] → s.bitSink.rest = true → Coded s a →
    ∃ t, core.run k s = .next t ∧ busy t = true ∧ t.count = s.count + BitVec.ofNat 32 k) ∧
  (∀ (s u : State) (b : Bool) (k : Nat), s.runKind = .dec → s.phase = .decActive → s.host = [] →
    s.bitSource = ⟨[], some b, []⟩ → s.symSink.answers = [] → s.symSink.rest = true →
    exec .decStep s = .next u → u.code = .ok →
    ∃ t, core.run k s = .next t ∧ busy t = true ∧ t.count = s.count + BitVec.ofNat 32 k)

/-! ### Decoder (spec/45_decoder.md) -/

/-- R164: DEC_INIT latches the anchors BUILD_ANCHORS would build and starts the pass when the counts sum to at most 256;
otherwise it finishes PRECONDITION_VIOLATED with phase IDLE. SYM, ENTRY and PACKED are not written. -/
def Obligations.DecInitLatchesTheAnchors : Prop :=
  ∀ s : State,
    (tableSize s.packed ≤ 256 →
      ∃ t, exec .buildAnchors s = .next t ∧
        exec .decInit s = .next { s with
          first := t.first, index := t.index, decValid := false, decBits := 0, count := 0, phase := .decActive,
          code := .ok, runKind := .none }) ∧
    (256 < tableSize s.packed →
      exec .decInit s = .next { s with phase := .idle, code := .preconditionViolated, runKind := .none })

/-- R167, R168: a decode that matches at length L, the first at which FIRST[L] ≤ cand < FIRST[L] + COUNTS[L] with cand the
bits so far as a number, takes L bits and gives VALUES[INDEX[L] + cand − FIRST[L]], or PRECONDITION_VIOLATED when that index
is 256 or more. The anchors are the latched ones and the counts the live ones. -/
def Obligations.DecStepDecodesTheFirstMatch : Prop :=
  ∀ (s : State) (bs : List Bool), s.phase = .decActive → 1 ≤ bs.length → bs.length ≤ 16 →
    s.bitSource.delivers bs → s.bitSource.answersYes bs.length →
    (∀ j, 1 ≤ j → j < bs.length → ¬ ((firstAt s j).toNat ≤ bitsValue (bs.take j) ∧
      bitsValue (bs.take j) < (firstAt s j).toNat + tableCount s.packed j)) →
    (firstAt s bs.length).toNat ≤ bitsValue bs →
    bitsValue bs < (firstAt s bs.length).toNat + tableCount s.packed bs.length →
    let k := (indexAt s bs.length).toNat + (bitsValue bs - (firstAt s bs.length).toNat)
    let src := s.bitSource.after bs.length bs.length
    (k < 256 → exec .decStep s = .next { s with
      bitSource := src, decBits := BitVec.ofNat 5 bs.length, decSym := readByte s.packed (16 + k), decValid := true,
      code := .ok, runKind := .none }) ∧
    (256 ≤ k → exec .decStep s = .next { s with
      bitSource := src, decBits := BitVec.ofNat 5 bs.length, decValid := false, code := .preconditionViolated,
      runKind := .none })

/-- R167, R168: a decode whose bits match at no length takes all of them: 16 bits finish CORRUPT_TABLE, and fewer, the source
then reporting nothing, finish TRUNCATED_STREAM. SYM is kept and VALID is 0. -/
def Obligations.DecStepFailsWithoutAMatch : Prop :=
  ∀ (s : State) (bs : List Bool), s.phase = .decActive → bs.length ≤ 16 →
    s.bitSource.delivers bs → s.bitSource.answersYes bs.length →
    (∀ j, 1 ≤ j → j ≤ bs.length → ¬ ((firstAt s j).toNat ≤ bitsValue (bs.take j) ∧
      bitsValue (bs.take j) < (firstAt s j).toNat + tableCount s.packed j)) →
    (bs.length = 16 → exec .decStep s = .next { s with
      bitSource := s.bitSource.after 16 16, decBits := 16, decValid := false, code := .corruptTable,
      runKind := .none }) ∧
    (bs.length < 16 → s.bitSource.dryAfter bs.length → exec .decStep s = .next { s with
      bitSource := s.bitSource.after (bs.length + 1) bs.length, decBits := BitVec.ofNat 5 bs.length, decValid := false,
      code := .truncatedStream, runKind := .none })

/-- R169: with a valid table and its anchors, the bits of a codeword decode to its symbol after exactly its length, and a
proper prefix of one followed by exhaustion is TRUNCATED_STREAM. -/
def Obligations.DecodingInvertsEncoding : Prop :=
  ∀ (s : State) (L k : Nat), s.phase = .decActive → tableValid s.packed = true → AnchorsMatch s → 1 ≤ L → L ≤ 16 →
    k < tableCount s.packed L →
    let cw := msbFirst L (canonFirst s.packed L + k)
    (s.bitSource.delivers cw → s.bitSource.answersYes L →
      exec .decStep s = .next { s with
        bitSource := s.bitSource.after L L, decBits := BitVec.ofNat 5 L,
        decSym := tableValue s.packed (canonIndex s.packed L + k), decValid := true, code := .ok, runKind := .none }) ∧
    (∀ n, n < L → s.bitSource.delivers (cw.take n) → s.bitSource.answersYes n → s.bitSource.dryAfter n →
      exec .decStep s = .next { s with
        bitSource := s.bitSource.after (n + 1) n, decBits := BitVec.ofNat 5 n, decValid := false,
        code := .truncatedStream, runKind := .none })

/-- R177, through R126, R141, R164 and R169: after TABLE_ENCODE exports the code entries and DEC_INIT latches their anchors,
the codeword ENC_STEP pushes for a coded symbol decodes to that symbol. -/
def Obligations.ExportedTableDecodesTheCodewords : Prop :=
  ∀ (s : State) (a : Symbol), EntryInvariant s → Coded s a →
    s.bitSource.delivers (msbFirst (depthOf s a) (codeOf s a)) → s.bitSource.answersYes (depthOf s a) →
    ∃ t u v, exec .tableEncode s = .next t ∧ exec .decInit t = .next u ∧ u.code = .ok ∧ exec .decStep u = .next v ∧
      v.code = .ok ∧ v.decSym = a ∧ v.decBits = (entryAt s a).depth ∧
      v.bitSource = s.bitSource.after (depthOf s a) (depthOf s a)

/-- R173 with R167 and R168: a DEC_RUN iteration ends the run OK on an exhausted bit source, then OUTPUT_FULL on a refusing
sink, no bit taken; otherwise it does what DEC_STEP does, pushing the symbol, going on and counting on OK, and ending the run
with the step's status otherwise. -/
def Obligations.DecRunIterationIsAStep : Prop :=
  ∀ s : State, s.runKind = .dec → s.phase = .decActive → s.host = [] →
    let src := s.bitSource.avail.2
    let snk := s.symSink.canAccept.2
    (s.bitSource.avail.1 = none → step s = .next { s with bitSource := src, code := .ok, runKind := .none }) ∧
    (s.bitSource.avail.1 ≠ none → s.symSink.canAccept.1 = false →
      step s = .next { s with bitSource := src, symSink := snk, code := .outputFull, runKind := .none }) ∧
    (s.bitSource.avail.1 ≠ none → s.symSink.canAccept.1 = true →
      ∃ u, exec .decStep { s with bitSource := src, symSink := snk } = .next u ∧
        step s = .next (if u.code = .ok then { u with
            code := s.code, runKind := .dec, count := s.count + 1,
            symSink := ⟨snk.taken ++ [u.decSym], snk.answers, snk.rest⟩ } else u))

/-- R172, R169, R171, C4: DEC_RUN over the codewords of a list of a valid table's symbols, followed by p ≤ 7 one-bits, pushes
exactly those symbols; it finishes OK when p = 0, and TRUNCATED_STREAM with DEC_BITS = p otherwise. The symbols are given by
their places (L, k) in the table. -/
def Obligations.DecRunRecoversTheSymbols : Prop :=
  ∀ (s : State) (ps : List (Nat × Nat)) (p : Nat), s.phase = .decActive → s.host = [] → tableValid s.packed = true →
    AnchorsMatch s → (∀ q ∈ ps, 1 ≤ q.1 ∧ q.1 ≤ 16 ∧ q.2 < tableCount s.packed q.1) → p ≤ 7 →
    s.bitSource = ⟨ps.flatMap (fun q => msbFirst q.1 (canonFirst s.packed q.1 + q.2)) ++ List.replicate p true, none, []⟩ →
    s.symSink.answers = [] → s.symSink.rest = true →
    ∃ s1 t, exec .decRun s = .next s1 ∧ core.run (ps.length + 1) s1 = .next t ∧ t.runKind = .none ∧
      t.symSink.taken = s.symSink.taken ++ ps.map (fun q => tableValue s.packed (canonIndex s.packed q.1 + q.2)) ∧
      t.count = BitVec.ofNat 32 ps.length ∧ t.bitSource.items = [] ∧ t.phase = .decActive ∧
      (p = 0 → t.code = .ok) ∧
      (0 < p → t.code = .truncatedStream ∧ t.decBits = BitVec.ofNat 5 p ∧ t.decValid = false)

/-- R170, C2: sixteen one-bits match no codeword of a valid table, so they finish CORRUPT_TABLE. -/
def Obligations.SixteenOnesMatchNoValidTable : Prop :=
  ∀ s : State, s.phase = .decActive → tableValid s.packed = true → AnchorsMatch s →
    s.bitSource.delivers (List.replicate 16 true) → s.bitSource.answersYes 16 →
    exec .decStep s = .next { s with
      bitSource := s.bitSource.after 16 16, decBits := 16, decValid := false, code := .corruptTable, runKind := .none }

/-- R176: DEC_DONE ends the pass and keeps everything else, the unread bits among it; a second one has no effect. -/
def Obligations.DecDoneOnlyChangesThePhase : Prop :=
  ∀ s : State,
    (s.phase = .decActive → exec .decDone s = .next { s with phase := .decDone, code := .ok, runKind := .none }) ∧
    (s.phase = .decDone → exec .decDone s = .next { s with code := .ok, runKind := .none })

/-! ### The whole block -/

/-- R177: the round trip. For a sequence of symbols no counter overflows on: statistics, ENC_INIT mode 0, ENC_RUN, ENC_DONE
and TABLE_ENCODE, the sinks taking everything, then DEC_INIT and DEC_RUN over the bits, on this block or on any block that
holds the same 272 bytes of PACKED, push exactly the sequence. The counts of iterations are those of R100, R156 and R172. -/
def Obligations.RoundTrip : Prop :=
  ∀ (s : State) (xs : List Symbol), xs ≠ [] → s.host = [] → (∀ a, xs.count a < 2 ^ 32) →
    ∃ a b c d e f,
      exec .clear s = .next a ∧
      Ran .statFreq (xs.length + 1) { a with symSource := ⟨xs, none, []⟩ } b ∧ busy b = false ∧ b.code = .ok ∧
      exec (.encInit 0) b = .next c ∧ c.code = .ok ∧
      Ran .encRun (xs.length + 1) { c with symSource := ⟨xs, none, []⟩, bitSink := ⟨[], [], true⟩ } d ∧ busy d = false ∧
      d.code = .ok ∧ d.count = BitVec.ofNat 32 xs.length ∧
      exec .encDone d = .next e ∧ e.code = .ok ∧ exec .tableEncode e = .next f ∧ f.code = .ok ∧
      ∀ s' : State, s'.host = [] → (∀ i, i < 272 → readByte s'.packed i = readByte f.packed i) →
        ∃ g h,
          exec .decInit s' = .next g ∧ g.code = .ok ∧
          Ran .decRun (xs.length + 1)
            { g with bitSource := ⟨f.bitSink.taken, none, []⟩, symSink := ⟨[], [], true⟩ } h ∧
          busy h = false ∧ h.symSink.taken = xs ∧ h.count = BitVec.ofNat 32 xs.length ∧
          let pad := (8 - d.bitCount.toNat % 8) % 8
          (pad = 0 → h.code = .ok) ∧ (0 < pad → h.code = .truncatedStream ∧ h.decBits = BitVec.ofNat 5 pad)
end

