-- ==== Sys2Proof/Laws/Memory.lean ====
section
/-! SUPPORT. The laws of PACKED's memory: what a byte reads as after each operation, that every operation keeps the canonical form, and that the form makes equal contents equal data. -/

namespace Sys2Proof.Machine

theorem readByte_eraseByte (m : Memory) (a x : Nat) :
    readByte (eraseByte m a) x = if x = a then 0 else readByte m x := by
  induction m with
  | nil => simp [eraseByte, readByte]
  | cons c m ih =>
    by_cases hc : c.1 = a
    · simp only [eraseByte, hc, if_true, ih, readByte]
      by_cases hx : x = a
      · simp [hx]
      · simp [hx, Ne.symm hx]
    · simp only [eraseByte, hc, if_false, readByte, ih]
      by_cases hx : c.1 = x
      · have : x ≠ a := fun h => hc (hx.trans h)
        simp [hx, this]
      · simp [hx]

theorem eraseByte_ne (m : Memory) (a : Nat) : ∀ d ∈ eraseByte m a, d.1 ≠ a := by
  induction m with
  | nil => simp [eraseByte]
  | cons c m ih =>
    by_cases hc : c.1 = a
    · simpa [eraseByte, hc] using ih
    · simpa [eraseByte, hc] using ih

theorem readByte_insertCell (c : Host.Cell) (m : Memory) (x : Nat) (h : ∀ d ∈ m, d.1 ≠ c.1) :
    readByte (insertCell c m) x = if x = c.1 then c.2 else readByte m x := by
  induction m with
  | nil => simp [insertCell, readByte, eq_comm]
  | cons d m ih =>
    have hd : d.1 ≠ c.1 := h d (by simp)
    have ih' := ih fun e he => h e (by simp [he])
    by_cases hlt : c.1 < d.1
    · simp [insertCell, hlt, readByte, eq_comm]
    · simp only [insertCell, hlt, if_false, readByte, ih']
      by_cases hx : d.1 = x
      · have : x ≠ c.1 := hx ▸ hd
        simp [hx, this]
      · simp [hx]

/-- A read after a write: the written byte at its address, every other byte as before. -/
theorem readByte_writeByte (m : Memory) (a : Nat) (b : Byte) (x : Nat) :
    readByte (writeByte m a b) x = if x = a then b else readByte m x := by
  by_cases hb : b = 0
  · simp [writeByte, hb, readByte_eraseByte]
  · rw [writeByte, if_neg hb, readByte_insertCell (a, b) _ x (eraseByte_ne m a), readByte_eraseByte]
    by_cases hx : x = a <;> simp [hx]

@[simp] theorem readByte_writeByte_same (m : Memory) (a : Nat) (b : Byte) : readByte (writeByte m a b) a = b := by
  simp [readByte_writeByte]

theorem readByte_writeByte_other (m : Memory) (a : Nat) (b : Byte) {x : Nat} (h : x ≠ a) :
    readByte (writeByte m a b) x = readByte m x := by
  simp [readByte_writeByte, h]

theorem wfFrom_mono {lo hi : Nat} (h : lo ≤ hi) {m : Memory} (hm : Memory.wfFrom hi m = true) :
    Memory.wfFrom lo m = true := by
  cases m with
  | nil => rfl
  | cons c m =>
    simp only [Memory.wfFrom, Bool.and_eq_true, decide_eq_true_eq] at hm ⊢
    exact ⟨⟨⟨by omega, hm.1.1.2⟩, hm.1.2⟩, hm.2⟩

theorem wfFrom_eraseByte {lo : Nat} {m : Memory} (a : Nat) (hm : Memory.wfFrom lo m = true) :
    Memory.wfFrom lo (eraseByte m a) = true := by
  induction m generalizing lo with
  | nil => rfl
  | cons c m ih =>
    simp only [Memory.wfFrom, Bool.and_eq_true, decide_eq_true_eq] at hm
    by_cases hc : c.1 = a
    · simpa [eraseByte, hc] using wfFrom_mono (by omega) (ih hm.2)
    · simp only [eraseByte, hc, if_false, Memory.wfFrom, Bool.and_eq_true, decide_eq_true_eq]
      exact ⟨hm.1, ih hm.2⟩

theorem wfFrom_insertCell {lo : Nat} {c : Host.Cell} {m : Memory} (hlo : lo ≤ c.1) (hhi : c.1 < Config.packedBytes)
    (hc : c.2 ≠ 0) (hne : ∀ d ∈ m, d.1 ≠ c.1) (hm : Memory.wfFrom lo m = true) :
    Memory.wfFrom lo (insertCell c m) = true := by
  induction m generalizing lo with
  | nil => simp only [insertCell, Memory.wfFrom, hlo, hhi, ne_eq, hc, not_false_eq_true, decide_true, Bool.and_self]
  | cons d m ih =>
    have hd : d.1 ≠ c.1 := hne d (by simp)
    simp only [Memory.wfFrom, Bool.and_eq_true, decide_eq_true_eq] at hm
    by_cases hlt : c.1 < d.1
    · simp only [insertCell, hlt, if_true, Memory.wfFrom, Bool.and_eq_true, decide_eq_true_eq]
      exact ⟨⟨⟨hlo, hhi⟩, hc⟩, ⟨⟨⟨by omega, hm.1.1.2⟩, hm.1.2⟩, hm.2⟩⟩
    · simp only [insertCell, hlt, if_false, Memory.wfFrom, Bool.and_eq_true, decide_eq_true_eq]
      exact ⟨hm.1, ih (by omega) (fun e he => hne e (by simp [he])) hm.2⟩

/-- A write into PACKED[0..271] keeps the canonical form. -/
theorem wf_writeByte {m : Memory} {a : Nat} (b : Byte) (ha : a < Config.packedBytes) (hm : Memory.wf m = true) :
    Memory.wf (writeByte m a b) = true := by
  by_cases hb : b = 0
  · simpa [Memory.wf, writeByte, hb] using wfFrom_eraseByte a hm
  · rw [writeByte, if_neg hb]
    exact wfFrom_insertCell (c := (a, b)) (Nat.zero_le a) ha hb (eraseByte_ne m a) (wfFrom_eraseByte a hm)

/-- A host write of PACKED word w keeps the canonical form. -/
theorem wf_writePackedWord {m : Memory} {w : Nat} (v : Word) (hw : w < 68) (hm : Memory.wf m = true) :
    Memory.wf (writePackedWord m w v) = true := by
  have h : ∀ j, j < 4 → 4 * w + j < Config.packedBytes := fun j hj => by simp only [Config.packedBytes]; omega
  exact wf_writeByte _ (h 3 (by omega)) (wf_writeByte _ (h 2 (by omega))
    (wf_writeByte _ (h 1 (by omega)) (wf_writeByte _ (h 0 (by omega)) hm)))

/-- The bytes of PACKED after a host write of word w. -/
theorem readByte_writePackedWord (m : Memory) (w : Nat) (v : Word) (x : Nat) :
    readByte (writePackedWord m w v) x =
      if x = 4 * w + 3 then v.extractLsb' 24 8
      else if x = 4 * w + 2 then v.extractLsb' 16 8
      else if x = 4 * w + 1 then v.extractLsb' 8 8
      else if x = 4 * w then v.extractLsb' 0 8
      else readByte m x := by
  simp [writePackedWord, readByte_writeByte]

theorem readByte_memoryFrom (a : Nat) (bs : List Byte) (x : Nat) :
    readByte (memoryFrom a bs) x = if a ≤ x then bs.getD (x - a) 0 else 0 := by
  induction bs generalizing a with
  | nil => simp [memoryFrom, readByte]
  | cons b bs ih =>
    have step : (if a ≤ x then (b :: bs).getD (x - a) 0 else 0) =
        if a = x then b else readByte (memoryFrom (a + 1) bs) x := by
      rw [ih]
      by_cases hx : a = x
      · simp [hx]
      · by_cases hle : a ≤ x
        · have h1 : a + 1 ≤ x := by omega
          have h2 : x - a = x - (a + 1) + 1 := by omega
          simp [hx, hle, h1, h2]
        · have h1 : ¬ a + 1 ≤ x := by omega
          simp [hx, hle, h1]
    rw [step]
    by_cases hb : b = 0
    · simp only [memoryFrom, hb, if_true]
      by_cases hx : a = x
      · subst hx
        simp [ih]
      · simp [hx]
    · simp only [memoryFrom, hb, if_false, readByte]

/-- The bytes of a memory written whole (R125, R128). -/
@[simp] theorem readByte_memoryOf (bs : List Byte) (x : Nat) : readByte (memoryOf bs) x = bs.getD x 0 := by
  simp [memoryOf, readByte_memoryFrom]

theorem wfFrom_memoryFrom (a : Nat) (bs : List Byte) (h : a + bs.length ≤ Config.packedBytes) :
    Memory.wfFrom a (memoryFrom a bs) = true := by
  induction bs generalizing a with
  | nil => rfl
  | cons b bs ih =>
    simp only [List.length_cons] at h
    have ih' := ih (a + 1) (by omega)
    by_cases hb : b = 0
    · simpa [memoryFrom, hb] using wfFrom_mono (Nat.le_succ a) ih'
    · simp only [memoryFrom, hb, if_false, Memory.wfFrom, Bool.and_eq_true, decide_eq_true_eq]
      exact ⟨⟨⟨Nat.le_refl a, by omega⟩, hb⟩, ih'⟩

/-- A memory written whole is in canonical form. -/
theorem wf_memoryOf {bs : List Byte} (h : bs.length ≤ Config.packedBytes) : Memory.wf (memoryOf bs) = true :=
  wfFrom_memoryFrom 0 bs (by omega)

theorem readByte_eq_zero_of_wfFrom {lo : Nat} {m : Memory} (hm : Memory.wfFrom lo m = true) {x : Nat} (hx : x < lo) :
    readByte m x = 0 := by
  induction m generalizing lo with
  | nil => rfl
  | cons c m ih =>
    simp only [Memory.wfFrom, Bool.and_eq_true, decide_eq_true_eq] at hm
    have : c.1 ≠ x := by omega
    simpa [readByte, this] using ih hm.2 (by omega)

/-- In canonical form equal contents are equal data. -/
theorem wfFrom_ext {lo lo' : Nat} {m m' : Memory} (hm : Memory.wfFrom lo m = true) (hm' : Memory.wfFrom lo' m' = true)
    (h : ∀ x, readByte m x = readByte m' x) : m = m' := by
  induction m generalizing lo lo' m' with
  | nil =>
    cases m' with
    | nil => rfl
    | cons c m' =>
      simp only [Memory.wfFrom, Bool.and_eq_true, decide_eq_true_eq] at hm'
      exact absurd (by simpa [readByte] using (h c.1).symm) hm'.1.2
  | cons c m ih =>
    simp only [Memory.wfFrom, Bool.and_eq_true, decide_eq_true_eq] at hm
    cases m' with
    | nil => exact absurd (by simpa [readByte] using h c.1) hm.1.2
    | cons d m' =>
      simp only [Memory.wfFrom, Bool.and_eq_true, decide_eq_true_eq] at hm'
      have hcd : c.1 = d.1 := by
        rcases Nat.lt_trichotomy c.1 d.1 with hlt | heq | hgt
        · have h0 := h c.1
          have hz := readByte_eq_zero_of_wfFrom hm'.2 (x := c.1) (by omega)
          simp [readByte, Nat.ne_of_gt hlt, hz] at h0
          exact absurd h0 hm.1.2
        · exact heq
        · have h0 := h d.1
          have hz := readByte_eq_zero_of_wfFrom hm.2 (x := d.1) (by omega)
          simp [readByte, Nat.ne_of_gt hgt, hz] at h0
          exact absurd h0.symm hm'.1.2
      have hv : c.2 = d.2 := by simpa [readByte, hcd] using h c.1
      have htail : m = m' := by
        refine ih hm.2 hm'.2 fun x => ?_
        by_cases hx : c.1 = x
        · rw [readByte_eq_zero_of_wfFrom hm.2 (by omega), readByte_eq_zero_of_wfFrom hm'.2 (by omega)]
        · have hx' : d.1 ≠ x := hcd ▸ hx
          simpa [readByte, hx, hx'] using h x
      rw [htail, Prod.ext hcd hv]

theorem wf_ext {m m' : Memory} (hm : Memory.wf m = true) (hm' : Memory.wf m' = true)
    (h : ∀ x, readByte m x = readByte m' x) : m = m' :=
  wfFrom_ext hm hm' h

end Sys2Proof.Machine
end

