-- ==== Sys2Proof/Laws/State.lean ====
section
/-! SUPPORT. The field lemmas of every named update of State: one per field per update, by rfl, so that no later proof unfolds a record update; and the array accessors through the updates that leave their array alone. -/

namespace Sys2Proof.Machine

/-! ### finish -/

@[simp] theorem finish_code (c : StatusCode) (s : State) : (finish c s).code = c := rfl
@[simp] theorem finish_lastOp (c : StatusCode) (s : State) : (finish c s).lastOp = s.lastOp := rfl
@[simp] theorem finish_runKind (c : StatusCode) (s : State) : (finish c s).runKind = .none := rfl
@[simp] theorem finish_phase (c : StatusCode) (s : State) : (finish c s).phase = s.phase := rfl
@[simp] theorem finish_count (c : StatusCode) (s : State) : (finish c s).count = s.count := rfl
@[simp] theorem finish_bitCount (c : StatusCode) (s : State) : (finish c s).bitCount = s.bitCount := rfl
@[simp] theorem finish_decSym (c : StatusCode) (s : State) : (finish c s).decSym = s.decSym := rfl
@[simp] theorem finish_decValid (c : StatusCode) (s : State) : (finish c s).decValid = s.decValid := rfl
@[simp] theorem finish_decBits (c : StatusCode) (s : State) : (finish c s).decBits = s.decBits := rfl
@[simp] theorem finish_encLastBits (c : StatusCode) (s : State) : (finish c s).encLastBits = s.encLastBits := rfl
@[simp] theorem finish_fault (c : StatusCode) (s : State) : (finish c s).fault = s.fault := rfl
@[simp] theorem finish_freq (c : StatusCode) (s : State) : (finish c s).freq = s.freq := rfl
@[simp] theorem finish_entry (c : StatusCode) (s : State) : (finish c s).entry = s.entry := rfl
@[simp] theorem finish_packed (c : StatusCode) (s : State) : (finish c s).packed = s.packed := rfl
@[simp] theorem finish_first (c : StatusCode) (s : State) : (finish c s).first = s.first := rfl
@[simp] theorem finish_index (c : StatusCode) (s : State) : (finish c s).index = s.index := rfl
@[simp] theorem finish_symSource (c : StatusCode) (s : State) : (finish c s).symSource = s.symSource := rfl
@[simp] theorem finish_symSink (c : StatusCode) (s : State) : (finish c s).symSink = s.symSink := rfl
@[simp] theorem finish_bitSource (c : StatusCode) (s : State) : (finish c s).bitSource = s.bitSource := rfl
@[simp] theorem finish_bitSink (c : StatusCode) (s : State) : (finish c s).bitSink = s.bitSink := rfl
@[simp] theorem finish_host (c : StatusCode) (s : State) : (finish c s).host = s.host := rfl
@[simp] theorem finish_refTables (c : StatusCode) (s : State) : (finish c s).refTables = s.refTables := rfl
@[simp] theorem finish_readLog (c : StatusCode) (s : State) : (finish c s).readLog = s.readLog := rfl
@[simp] theorem freqAt_finish (c : StatusCode) (s : State) (a : Symbol) : freqAt (finish c s) a = freqAt s a := rfl
@[simp] theorem entryAt_finish (c : StatusCode) (s : State) (a : Symbol) : entryAt (finish c s) a = entryAt s a := rfl
@[simp] theorem firstAt_finish (c : StatusCode) (s : State) (L : Nat) : firstAt (finish c s) L = firstAt s L := rfl
@[simp] theorem indexAt_finish (c : StatusCode) (s : State) (L : Nat) : indexAt (finish c s) L = indexAt s L := rfl

/-! ### startRun -/

@[simp] theorem startRun_code (k : RunKind) (s : State) : (startRun k s).code = s.code := rfl
@[simp] theorem startRun_lastOp (k : RunKind) (s : State) : (startRun k s).lastOp = s.lastOp := rfl
@[simp] theorem startRun_runKind (k : RunKind) (s : State) : (startRun k s).runKind = k := rfl
@[simp] theorem startRun_phase (k : RunKind) (s : State) : (startRun k s).phase = s.phase := rfl
@[simp] theorem startRun_count (k : RunKind) (s : State) : (startRun k s).count = 0 := rfl
@[simp] theorem startRun_bitCount (k : RunKind) (s : State) : (startRun k s).bitCount = s.bitCount := rfl
@[simp] theorem startRun_decSym (k : RunKind) (s : State) : (startRun k s).decSym = s.decSym := rfl
@[simp] theorem startRun_decValid (k : RunKind) (s : State) : (startRun k s).decValid = s.decValid := rfl
@[simp] theorem startRun_decBits (k : RunKind) (s : State) : (startRun k s).decBits = s.decBits := rfl
@[simp] theorem startRun_encLastBits (k : RunKind) (s : State) : (startRun k s).encLastBits = s.encLastBits := rfl
@[simp] theorem startRun_fault (k : RunKind) (s : State) : (startRun k s).fault = s.fault := rfl
@[simp] theorem startRun_freq (k : RunKind) (s : State) : (startRun k s).freq = s.freq := rfl
@[simp] theorem startRun_entry (k : RunKind) (s : State) : (startRun k s).entry = s.entry := rfl
@[simp] theorem startRun_packed (k : RunKind) (s : State) : (startRun k s).packed = s.packed := rfl
@[simp] theorem startRun_first (k : RunKind) (s : State) : (startRun k s).first = s.first := rfl
@[simp] theorem startRun_index (k : RunKind) (s : State) : (startRun k s).index = s.index := rfl
@[simp] theorem startRun_symSource (k : RunKind) (s : State) : (startRun k s).symSource = s.symSource := rfl
@[simp] theorem startRun_symSink (k : RunKind) (s : State) : (startRun k s).symSink = s.symSink := rfl
@[simp] theorem startRun_bitSource (k : RunKind) (s : State) : (startRun k s).bitSource = s.bitSource := rfl
@[simp] theorem startRun_bitSink (k : RunKind) (s : State) : (startRun k s).bitSink = s.bitSink := rfl
@[simp] theorem startRun_host (k : RunKind) (s : State) : (startRun k s).host = s.host := rfl
@[simp] theorem startRun_refTables (k : RunKind) (s : State) : (startRun k s).refTables = s.refTables := rfl
@[simp] theorem startRun_readLog (k : RunKind) (s : State) : (startRun k s).readLog = s.readLog := rfl
@[simp] theorem freqAt_startRun (k : RunKind) (s : State) (a : Symbol) : freqAt (startRun k s) a = freqAt s a := rfl
@[simp] theorem entryAt_startRun (k : RunKind) (s : State) (a : Symbol) : entryAt (startRun k s) a = entryAt s a := rfl
@[simp] theorem firstAt_startRun (k : RunKind) (s : State) (L : Nat) : firstAt (startRun k s) L = firstAt s L := rfl
@[simp] theorem indexAt_startRun (k : RunKind) (s : State) (L : Nat) : indexAt (startRun k s) L = indexAt s L := rfl

/-! ### setPhase -/

@[simp] theorem setPhase_code (p : Phase) (s : State) : (setPhase p s).code = s.code := rfl
@[simp] theorem setPhase_lastOp (p : Phase) (s : State) : (setPhase p s).lastOp = s.lastOp := rfl
@[simp] theorem setPhase_runKind (p : Phase) (s : State) : (setPhase p s).runKind = s.runKind := rfl
@[simp] theorem setPhase_phase (p : Phase) (s : State) : (setPhase p s).phase = p := rfl
@[simp] theorem setPhase_count (p : Phase) (s : State) : (setPhase p s).count = s.count := rfl
@[simp] theorem setPhase_bitCount (p : Phase) (s : State) : (setPhase p s).bitCount = s.bitCount := rfl
@[simp] theorem setPhase_decSym (p : Phase) (s : State) : (setPhase p s).decSym = s.decSym := rfl
@[simp] theorem setPhase_decValid (p : Phase) (s : State) : (setPhase p s).decValid = s.decValid := rfl
@[simp] theorem setPhase_decBits (p : Phase) (s : State) : (setPhase p s).decBits = s.decBits := rfl
@[simp] theorem setPhase_encLastBits (p : Phase) (s : State) : (setPhase p s).encLastBits = s.encLastBits := rfl
@[simp] theorem setPhase_fault (p : Phase) (s : State) : (setPhase p s).fault = s.fault := rfl
@[simp] theorem setPhase_freq (p : Phase) (s : State) : (setPhase p s).freq = s.freq := rfl
@[simp] theorem setPhase_entry (p : Phase) (s : State) : (setPhase p s).entry = s.entry := rfl
@[simp] theorem setPhase_packed (p : Phase) (s : State) : (setPhase p s).packed = s.packed := rfl
@[simp] theorem setPhase_first (p : Phase) (s : State) : (setPhase p s).first = s.first := rfl
@[simp] theorem setPhase_index (p : Phase) (s : State) : (setPhase p s).index = s.index := rfl
@[simp] theorem setPhase_symSource (p : Phase) (s : State) : (setPhase p s).symSource = s.symSource := rfl
@[simp] theorem setPhase_symSink (p : Phase) (s : State) : (setPhase p s).symSink = s.symSink := rfl
@[simp] theorem setPhase_bitSource (p : Phase) (s : State) : (setPhase p s).bitSource = s.bitSource := rfl
@[simp] theorem setPhase_bitSink (p : Phase) (s : State) : (setPhase p s).bitSink = s.bitSink := rfl
@[simp] theorem setPhase_host (p : Phase) (s : State) : (setPhase p s).host = s.host := rfl
@[simp] theorem setPhase_refTables (p : Phase) (s : State) : (setPhase p s).refTables = s.refTables := rfl
@[simp] theorem setPhase_readLog (p : Phase) (s : State) : (setPhase p s).readLog = s.readLog := rfl
@[simp] theorem freqAt_setPhase (p : Phase) (s : State) (a : Symbol) : freqAt (setPhase p s) a = freqAt s a := rfl
@[simp] theorem entryAt_setPhase (p : Phase) (s : State) (a : Symbol) : entryAt (setPhase p s) a = entryAt s a := rfl
@[simp] theorem firstAt_setPhase (p : Phase) (s : State) (L : Nat) : firstAt (setPhase p s) L = firstAt s L := rfl
@[simp] theorem indexAt_setPhase (p : Phase) (s : State) (L : Nat) : indexAt (setPhase p s) L = indexAt s L := rfl

/-! ### countSymbol -/

@[simp] theorem countSymbol_code (s : State) : (countSymbol s).code = s.code := rfl
@[simp] theorem countSymbol_lastOp (s : State) : (countSymbol s).lastOp = s.lastOp := rfl
@[simp] theorem countSymbol_runKind (s : State) : (countSymbol s).runKind = s.runKind := rfl
@[simp] theorem countSymbol_phase (s : State) : (countSymbol s).phase = s.phase := rfl
@[simp] theorem countSymbol_count (s : State) : (countSymbol s).count = s.count + 1 := rfl
@[simp] theorem countSymbol_bitCount (s : State) : (countSymbol s).bitCount = s.bitCount := rfl
@[simp] theorem countSymbol_decSym (s : State) : (countSymbol s).decSym = s.decSym := rfl
@[simp] theorem countSymbol_decValid (s : State) : (countSymbol s).decValid = s.decValid := rfl
@[simp] theorem countSymbol_decBits (s : State) : (countSymbol s).decBits = s.decBits := rfl
@[simp] theorem countSymbol_encLastBits (s : State) : (countSymbol s).encLastBits = s.encLastBits := rfl
@[simp] theorem countSymbol_fault (s : State) : (countSymbol s).fault = s.fault := rfl
@[simp] theorem countSymbol_freq (s : State) : (countSymbol s).freq = s.freq := rfl
@[simp] theorem countSymbol_entry (s : State) : (countSymbol s).entry = s.entry := rfl
@[simp] theorem countSymbol_packed (s : State) : (countSymbol s).packed = s.packed := rfl
@[simp] theorem countSymbol_first (s : State) : (countSymbol s).first = s.first := rfl
@[simp] theorem countSymbol_index (s : State) : (countSymbol s).index = s.index := rfl
@[simp] theorem countSymbol_symSource (s : State) : (countSymbol s).symSource = s.symSource := rfl
@[simp] theorem countSymbol_symSink (s : State) : (countSymbol s).symSink = s.symSink := rfl
@[simp] theorem countSymbol_bitSource (s : State) : (countSymbol s).bitSource = s.bitSource := rfl
@[simp] theorem countSymbol_bitSink (s : State) : (countSymbol s).bitSink = s.bitSink := rfl
@[simp] theorem countSymbol_host (s : State) : (countSymbol s).host = s.host := rfl
@[simp] theorem countSymbol_refTables (s : State) : (countSymbol s).refTables = s.refTables := rfl
@[simp] theorem countSymbol_readLog (s : State) : (countSymbol s).readLog = s.readLog := rfl
@[simp] theorem freqAt_countSymbol (s : State) (a : Symbol) : freqAt (countSymbol s) a = freqAt s a := rfl
@[simp] theorem entryAt_countSymbol (s : State) (a : Symbol) : entryAt (countSymbol s) a = entryAt s a := rfl
@[simp] theorem firstAt_countSymbol (s : State) (L : Nat) : firstAt (countSymbol s) L = firstAt s L := rfl
@[simp] theorem indexAt_countSymbol (s : State) (L : Nat) : indexAt (countSymbol s) L = indexAt s L := rfl

/-! ### setFreq -/

@[simp] theorem setFreq_code (a : Symbol) (v : Word) (s : State) : (setFreq a v s).code = s.code := rfl
@[simp] theorem setFreq_lastOp (a : Symbol) (v : Word) (s : State) : (setFreq a v s).lastOp = s.lastOp := rfl
@[simp] theorem setFreq_runKind (a : Symbol) (v : Word) (s : State) : (setFreq a v s).runKind = s.runKind := rfl
@[simp] theorem setFreq_phase (a : Symbol) (v : Word) (s : State) : (setFreq a v s).phase = s.phase := rfl
@[simp] theorem setFreq_count (a : Symbol) (v : Word) (s : State) : (setFreq a v s).count = s.count := rfl
@[simp] theorem setFreq_bitCount (a : Symbol) (v : Word) (s : State) : (setFreq a v s).bitCount = s.bitCount := rfl
@[simp] theorem setFreq_decSym (a : Symbol) (v : Word) (s : State) : (setFreq a v s).decSym = s.decSym := rfl
@[simp] theorem setFreq_decValid (a : Symbol) (v : Word) (s : State) : (setFreq a v s).decValid = s.decValid := rfl
@[simp] theorem setFreq_decBits (a : Symbol) (v : Word) (s : State) : (setFreq a v s).decBits = s.decBits := rfl
@[simp] theorem setFreq_encLastBits (a : Symbol) (v : Word) (s : State) : (setFreq a v s).encLastBits = s.encLastBits := rfl
@[simp] theorem setFreq_fault (a : Symbol) (v : Word) (s : State) : (setFreq a v s).fault = s.fault := rfl
@[simp] theorem setFreq_freq (a : Symbol) (v : Word) (s : State) : (setFreq a v s).freq = s.freq.set a.toNat v a.isLt := rfl
@[simp] theorem setFreq_entry (a : Symbol) (v : Word) (s : State) : (setFreq a v s).entry = s.entry := rfl
@[simp] theorem setFreq_packed (a : Symbol) (v : Word) (s : State) : (setFreq a v s).packed = s.packed := rfl
@[simp] theorem setFreq_first (a : Symbol) (v : Word) (s : State) : (setFreq a v s).first = s.first := rfl
@[simp] theorem setFreq_index (a : Symbol) (v : Word) (s : State) : (setFreq a v s).index = s.index := rfl
@[simp] theorem setFreq_symSource (a : Symbol) (v : Word) (s : State) : (setFreq a v s).symSource = s.symSource := rfl
@[simp] theorem setFreq_symSink (a : Symbol) (v : Word) (s : State) : (setFreq a v s).symSink = s.symSink := rfl
@[simp] theorem setFreq_bitSource (a : Symbol) (v : Word) (s : State) : (setFreq a v s).bitSource = s.bitSource := rfl
@[simp] theorem setFreq_bitSink (a : Symbol) (v : Word) (s : State) : (setFreq a v s).bitSink = s.bitSink := rfl
@[simp] theorem setFreq_host (a : Symbol) (v : Word) (s : State) : (setFreq a v s).host = s.host := rfl
@[simp] theorem setFreq_refTables (a : Symbol) (v : Word) (s : State) : (setFreq a v s).refTables = s.refTables := rfl
@[simp] theorem setFreq_readLog (a : Symbol) (v : Word) (s : State) : (setFreq a v s).readLog = s.readLog := rfl
@[simp] theorem entryAt_setFreq (a : Symbol) (v : Word) (s : State) (a' : Symbol) : entryAt (setFreq a v s) a' = entryAt s a' := rfl
@[simp] theorem firstAt_setFreq (a : Symbol) (v : Word) (s : State) (L : Nat) : firstAt (setFreq a v s) L = firstAt s L := rfl
@[simp] theorem indexAt_setFreq (a : Symbol) (v : Word) (s : State) (L : Nat) : indexAt (setFreq a v s) L = indexAt s L := rfl

/-! ### setEntries -/

@[simp] theorem setEntries_code (e : Vector CodeEntry 256) (s : State) : (setEntries e s).code = s.code := rfl
@[simp] theorem setEntries_lastOp (e : Vector CodeEntry 256) (s : State) : (setEntries e s).lastOp = s.lastOp := rfl
@[simp] theorem setEntries_runKind (e : Vector CodeEntry 256) (s : State) : (setEntries e s).runKind = s.runKind := rfl
@[simp] theorem setEntries_phase (e : Vector CodeEntry 256) (s : State) : (setEntries e s).phase = s.phase := rfl
@[simp] theorem setEntries_count (e : Vector CodeEntry 256) (s : State) : (setEntries e s).count = s.count := rfl
@[simp] theorem setEntries_bitCount (e : Vector CodeEntry 256) (s : State) : (setEntries e s).bitCount = s.bitCount := rfl
@[simp] theorem setEntries_decSym (e : Vector CodeEntry 256) (s : State) : (setEntries e s).decSym = s.decSym := rfl
@[simp] theorem setEntries_decValid (e : Vector CodeEntry 256) (s : State) : (setEntries e s).decValid = s.decValid := rfl
@[simp] theorem setEntries_decBits (e : Vector CodeEntry 256) (s : State) : (setEntries e s).decBits = s.decBits := rfl
@[simp] theorem setEntries_encLastBits (e : Vector CodeEntry 256) (s : State) : (setEntries e s).encLastBits = s.encLastBits := rfl
@[simp] theorem setEntries_fault (e : Vector CodeEntry 256) (s : State) : (setEntries e s).fault = s.fault := rfl
@[simp] theorem setEntries_freq (e : Vector CodeEntry 256) (s : State) : (setEntries e s).freq = s.freq := rfl
@[simp] theorem setEntries_entry (e : Vector CodeEntry 256) (s : State) : (setEntries e s).entry = e := rfl
@[simp] theorem setEntries_packed (e : Vector CodeEntry 256) (s : State) : (setEntries e s).packed = s.packed := rfl
@[simp] theorem setEntries_first (e : Vector CodeEntry 256) (s : State) : (setEntries e s).first = s.first := rfl
@[simp] theorem setEntries_index (e : Vector CodeEntry 256) (s : State) : (setEntries e s).index = s.index := rfl
@[simp] theorem setEntries_symSource (e : Vector CodeEntry 256) (s : State) : (setEntries e s).symSource = s.symSource := rfl
@[simp] theorem setEntries_symSink (e : Vector CodeEntry 256) (s : State) : (setEntries e s).symSink = s.symSink := rfl
@[simp] theorem setEntries_bitSource (e : Vector CodeEntry 256) (s : State) : (setEntries e s).bitSource = s.bitSource := rfl
@[simp] theorem setEntries_bitSink (e : Vector CodeEntry 256) (s : State) : (setEntries e s).bitSink = s.bitSink := rfl
@[simp] theorem setEntries_host (e : Vector CodeEntry 256) (s : State) : (setEntries e s).host = s.host := rfl
@[simp] theorem setEntries_refTables (e : Vector CodeEntry 256) (s : State) : (setEntries e s).refTables = s.refTables := rfl
@[simp] theorem setEntries_readLog (e : Vector CodeEntry 256) (s : State) : (setEntries e s).readLog = s.readLog := rfl
@[simp] theorem freqAt_setEntries (e : Vector CodeEntry 256) (s : State) (a : Symbol) : freqAt (setEntries e s) a = freqAt s a := rfl
@[simp] theorem firstAt_setEntries (e : Vector CodeEntry 256) (s : State) (L : Nat) : firstAt (setEntries e s) L = firstAt s L := rfl
@[simp] theorem indexAt_setEntries (e : Vector CodeEntry 256) (s : State) (L : Nat) : indexAt (setEntries e s) L = indexAt s L := rfl

/-! ### setPacked -/

@[simp] theorem setPacked_code (m : Memory) (s : State) : (setPacked m s).code = s.code := rfl
@[simp] theorem setPacked_lastOp (m : Memory) (s : State) : (setPacked m s).lastOp = s.lastOp := rfl
@[simp] theorem setPacked_runKind (m : Memory) (s : State) : (setPacked m s).runKind = s.runKind := rfl
@[simp] theorem setPacked_phase (m : Memory) (s : State) : (setPacked m s).phase = s.phase := rfl
@[simp] theorem setPacked_count (m : Memory) (s : State) : (setPacked m s).count = s.count := rfl
@[simp] theorem setPacked_bitCount (m : Memory) (s : State) : (setPacked m s).bitCount = s.bitCount := rfl
@[simp] theorem setPacked_decSym (m : Memory) (s : State) : (setPacked m s).decSym = s.decSym := rfl
@[simp] theorem setPacked_decValid (m : Memory) (s : State) : (setPacked m s).decValid = s.decValid := rfl
@[simp] theorem setPacked_decBits (m : Memory) (s : State) : (setPacked m s).decBits = s.decBits := rfl
@[simp] theorem setPacked_encLastBits (m : Memory) (s : State) : (setPacked m s).encLastBits = s.encLastBits := rfl
@[simp] theorem setPacked_fault (m : Memory) (s : State) : (setPacked m s).fault = s.fault := rfl
@[simp] theorem setPacked_freq (m : Memory) (s : State) : (setPacked m s).freq = s.freq := rfl
@[simp] theorem setPacked_entry (m : Memory) (s : State) : (setPacked m s).entry = s.entry := rfl
@[simp] theorem setPacked_packed (m : Memory) (s : State) : (setPacked m s).packed = m := rfl
@[simp] theorem setPacked_first (m : Memory) (s : State) : (setPacked m s).first = s.first := rfl
@[simp] theorem setPacked_index (m : Memory) (s : State) : (setPacked m s).index = s.index := rfl
@[simp] theorem setPacked_symSource (m : Memory) (s : State) : (setPacked m s).symSource = s.symSource := rfl
@[simp] theorem setPacked_symSink (m : Memory) (s : State) : (setPacked m s).symSink = s.symSink := rfl
@[simp] theorem setPacked_bitSource (m : Memory) (s : State) : (setPacked m s).bitSource = s.bitSource := rfl
@[simp] theorem setPacked_bitSink (m : Memory) (s : State) : (setPacked m s).bitSink = s.bitSink := rfl
@[simp] theorem setPacked_host (m : Memory) (s : State) : (setPacked m s).host = s.host := rfl
@[simp] theorem setPacked_refTables (m : Memory) (s : State) : (setPacked m s).refTables = s.refTables := rfl
@[simp] theorem setPacked_readLog (m : Memory) (s : State) : (setPacked m s).readLog = s.readLog := rfl
@[simp] theorem freqAt_setPacked (m : Memory) (s : State) (a : Symbol) : freqAt (setPacked m s) a = freqAt s a := rfl
@[simp] theorem entryAt_setPacked (m : Memory) (s : State) (a : Symbol) : entryAt (setPacked m s) a = entryAt s a := rfl
@[simp] theorem firstAt_setPacked (m : Memory) (s : State) (L : Nat) : firstAt (setPacked m s) L = firstAt s L := rfl
@[simp] theorem indexAt_setPacked (m : Memory) (s : State) (L : Nat) : indexAt (setPacked m s) L = indexAt s L := rfl

/-! ### setAnchors -/

@[simp] theorem setAnchors_code (s : State) : (setAnchors s).code = s.code := rfl
@[simp] theorem setAnchors_lastOp (s : State) : (setAnchors s).lastOp = s.lastOp := rfl
@[simp] theorem setAnchors_runKind (s : State) : (setAnchors s).runKind = s.runKind := rfl
@[simp] theorem setAnchors_phase (s : State) : (setAnchors s).phase = s.phase := rfl
@[simp] theorem setAnchors_count (s : State) : (setAnchors s).count = s.count := rfl
@[simp] theorem setAnchors_bitCount (s : State) : (setAnchors s).bitCount = s.bitCount := rfl
@[simp] theorem setAnchors_decSym (s : State) : (setAnchors s).decSym = s.decSym := rfl
@[simp] theorem setAnchors_decValid (s : State) : (setAnchors s).decValid = s.decValid := rfl
@[simp] theorem setAnchors_decBits (s : State) : (setAnchors s).decBits = s.decBits := rfl
@[simp] theorem setAnchors_encLastBits (s : State) : (setAnchors s).encLastBits = s.encLastBits := rfl
@[simp] theorem setAnchors_fault (s : State) : (setAnchors s).fault = s.fault := rfl
@[simp] theorem setAnchors_freq (s : State) : (setAnchors s).freq = s.freq := rfl
@[simp] theorem setAnchors_entry (s : State) : (setAnchors s).entry = s.entry := rfl
@[simp] theorem setAnchors_packed (s : State) : (setAnchors s).packed = s.packed := rfl
@[simp] theorem setAnchors_first (s : State) : (setAnchors s).first = Vector.ofFn fun i => BitVec.ofNat 32 (canonFirst s.packed (i.val + 1)) := rfl
@[simp] theorem setAnchors_index (s : State) : (setAnchors s).index = Vector.ofFn fun i => BitVec.ofNat 32 (canonIndex s.packed (i.val + 1)) := rfl
@[simp] theorem setAnchors_symSource (s : State) : (setAnchors s).symSource = s.symSource := rfl
@[simp] theorem setAnchors_symSink (s : State) : (setAnchors s).symSink = s.symSink := rfl
@[simp] theorem setAnchors_bitSource (s : State) : (setAnchors s).bitSource = s.bitSource := rfl
@[simp] theorem setAnchors_bitSink (s : State) : (setAnchors s).bitSink = s.bitSink := rfl
@[simp] theorem setAnchors_host (s : State) : (setAnchors s).host = s.host := rfl
@[simp] theorem setAnchors_refTables (s : State) : (setAnchors s).refTables = s.refTables := rfl
@[simp] theorem setAnchors_readLog (s : State) : (setAnchors s).readLog = s.readLog := rfl
@[simp] theorem freqAt_setAnchors (s : State) (a : Symbol) : freqAt (setAnchors s) a = freqAt s a := rfl
@[simp] theorem entryAt_setAnchors (s : State) (a : Symbol) : entryAt (setAnchors s) a = entryAt s a := rfl

/-! ### setLastBits -/

@[simp] theorem setLastBits_code (n : Nat) (s : State) : (setLastBits n s).code = s.code := rfl
@[simp] theorem setLastBits_lastOp (n : Nat) (s : State) : (setLastBits n s).lastOp = s.lastOp := rfl
@[simp] theorem setLastBits_runKind (n : Nat) (s : State) : (setLastBits n s).runKind = s.runKind := rfl
@[simp] theorem setLastBits_phase (n : Nat) (s : State) : (setLastBits n s).phase = s.phase := rfl
@[simp] theorem setLastBits_count (n : Nat) (s : State) : (setLastBits n s).count = s.count := rfl
@[simp] theorem setLastBits_bitCount (n : Nat) (s : State) : (setLastBits n s).bitCount = s.bitCount := rfl
@[simp] theorem setLastBits_decSym (n : Nat) (s : State) : (setLastBits n s).decSym = s.decSym := rfl
@[simp] theorem setLastBits_decValid (n : Nat) (s : State) : (setLastBits n s).decValid = s.decValid := rfl
@[simp] theorem setLastBits_decBits (n : Nat) (s : State) : (setLastBits n s).decBits = s.decBits := rfl
@[simp] theorem setLastBits_encLastBits (n : Nat) (s : State) : (setLastBits n s).encLastBits = BitVec.ofNat 5 n := rfl
@[simp] theorem setLastBits_fault (n : Nat) (s : State) : (setLastBits n s).fault = s.fault := rfl
@[simp] theorem setLastBits_freq (n : Nat) (s : State) : (setLastBits n s).freq = s.freq := rfl
@[simp] theorem setLastBits_entry (n : Nat) (s : State) : (setLastBits n s).entry = s.entry := rfl
@[simp] theorem setLastBits_packed (n : Nat) (s : State) : (setLastBits n s).packed = s.packed := rfl
@[simp] theorem setLastBits_first (n : Nat) (s : State) : (setLastBits n s).first = s.first := rfl
@[simp] theorem setLastBits_index (n : Nat) (s : State) : (setLastBits n s).index = s.index := rfl
@[simp] theorem setLastBits_symSource (n : Nat) (s : State) : (setLastBits n s).symSource = s.symSource := rfl
@[simp] theorem setLastBits_symSink (n : Nat) (s : State) : (setLastBits n s).symSink = s.symSink := rfl
@[simp] theorem setLastBits_bitSource (n : Nat) (s : State) : (setLastBits n s).bitSource = s.bitSource := rfl
@[simp] theorem setLastBits_bitSink (n : Nat) (s : State) : (setLastBits n s).bitSink = s.bitSink := rfl
@[simp] theorem setLastBits_host (n : Nat) (s : State) : (setLastBits n s).host = s.host := rfl
@[simp] theorem setLastBits_refTables (n : Nat) (s : State) : (setLastBits n s).refTables = s.refTables := rfl
@[simp] theorem setLastBits_readLog (n : Nat) (s : State) : (setLastBits n s).readLog = s.readLog := rfl
@[simp] theorem freqAt_setLastBits (n : Nat) (s : State) (a : Symbol) : freqAt (setLastBits n s) a = freqAt s a := rfl
@[simp] theorem entryAt_setLastBits (n : Nat) (s : State) (a : Symbol) : entryAt (setLastBits n s) a = entryAt s a := rfl
@[simp] theorem firstAt_setLastBits (n : Nat) (s : State) (L : Nat) : firstAt (setLastBits n s) L = firstAt s L := rfl
@[simp] theorem indexAt_setLastBits (n : Nat) (s : State) (L : Nat) : indexAt (setLastBits n s) L = indexAt s L := rfl

/-! ### decodeFailed -/

@[simp] theorem decodeFailed_code (n : Nat) (s : State) : (decodeFailed n s).code = s.code := rfl
@[simp] theorem decodeFailed_lastOp (n : Nat) (s : State) : (decodeFailed n s).lastOp = s.lastOp := rfl
@[simp] theorem decodeFailed_runKind (n : Nat) (s : State) : (decodeFailed n s).runKind = s.runKind := rfl
@[simp] theorem decodeFailed_phase (n : Nat) (s : State) : (decodeFailed n s).phase = s.phase := rfl
@[simp] theorem decodeFailed_count (n : Nat) (s : State) : (decodeFailed n s).count = s.count := rfl
@[simp] theorem decodeFailed_bitCount (n : Nat) (s : State) : (decodeFailed n s).bitCount = s.bitCount := rfl
@[simp] theorem decodeFailed_decSym (n : Nat) (s : State) : (decodeFailed n s).decSym = s.decSym := rfl
@[simp] theorem decodeFailed_decValid (n : Nat) (s : State) : (decodeFailed n s).decValid = false := rfl
@[simp] theorem decodeFailed_decBits (n : Nat) (s : State) : (decodeFailed n s).decBits = BitVec.ofNat 5 n := rfl
@[simp] theorem decodeFailed_encLastBits (n : Nat) (s : State) : (decodeFailed n s).encLastBits = s.encLastBits := rfl
@[simp] theorem decodeFailed_fault (n : Nat) (s : State) : (decodeFailed n s).fault = s.fault := rfl
@[simp] theorem decodeFailed_freq (n : Nat) (s : State) : (decodeFailed n s).freq = s.freq := rfl
@[simp] theorem decodeFailed_entry (n : Nat) (s : State) : (decodeFailed n s).entry = s.entry := rfl
@[simp] theorem decodeFailed_packed (n : Nat) (s : State) : (decodeFailed n s).packed = s.packed := rfl
@[simp] theorem decodeFailed_first (n : Nat) (s : State) : (decodeFailed n s).first = s.first := rfl
@[simp] theorem decodeFailed_index (n : Nat) (s : State) : (decodeFailed n s).index = s.index := rfl
@[simp] theorem decodeFailed_symSource (n : Nat) (s : State) : (decodeFailed n s).symSource = s.symSource := rfl
@[simp] theorem decodeFailed_symSink (n : Nat) (s : State) : (decodeFailed n s).symSink = s.symSink := rfl
@[simp] theorem decodeFailed_bitSource (n : Nat) (s : State) : (decodeFailed n s).bitSource = s.bitSource := rfl
@[simp] theorem decodeFailed_bitSink (n : Nat) (s : State) : (decodeFailed n s).bitSink = s.bitSink := rfl
@[simp] theorem decodeFailed_host (n : Nat) (s : State) : (decodeFailed n s).host = s.host := rfl
@[simp] theorem decodeFailed_refTables (n : Nat) (s : State) : (decodeFailed n s).refTables = s.refTables := rfl
@[simp] theorem decodeFailed_readLog (n : Nat) (s : State) : (decodeFailed n s).readLog = s.readLog := rfl
@[simp] theorem freqAt_decodeFailed (n : Nat) (s : State) (a : Symbol) : freqAt (decodeFailed n s) a = freqAt s a := rfl
@[simp] theorem entryAt_decodeFailed (n : Nat) (s : State) (a : Symbol) : entryAt (decodeFailed n s) a = entryAt s a := rfl
@[simp] theorem firstAt_decodeFailed (n : Nat) (s : State) (L : Nat) : firstAt (decodeFailed n s) L = firstAt s L := rfl
@[simp] theorem indexAt_decodeFailed (n : Nat) (s : State) (L : Nat) : indexAt (decodeFailed n s) L = indexAt s L := rfl

/-! ### decodeGave -/

@[simp] theorem decodeGave_code (n : Nat) (v : Symbol) (s : State) : (decodeGave n v s).code = s.code := rfl
@[simp] theorem decodeGave_lastOp (n : Nat) (v : Symbol) (s : State) : (decodeGave n v s).lastOp = s.lastOp := rfl
@[simp] theorem decodeGave_runKind (n : Nat) (v : Symbol) (s : State) : (decodeGave n v s).runKind = s.runKind := rfl
@[simp] theorem decodeGave_phase (n : Nat) (v : Symbol) (s : State) : (decodeGave n v s).phase = s.phase := rfl
@[simp] theorem decodeGave_count (n : Nat) (v : Symbol) (s : State) : (decodeGave n v s).count = s.count := rfl
@[simp] theorem decodeGave_bitCount (n : Nat) (v : Symbol) (s : State) : (decodeGave n v s).bitCount = s.bitCount := rfl
@[simp] theorem decodeGave_decSym (n : Nat) (v : Symbol) (s : State) : (decodeGave n v s).decSym = v := rfl
@[simp] theorem decodeGave_decValid (n : Nat) (v : Symbol) (s : State) : (decodeGave n v s).decValid = true := rfl
@[simp] theorem decodeGave_decBits (n : Nat) (v : Symbol) (s : State) : (decodeGave n v s).decBits = BitVec.ofNat 5 n := rfl
@[simp] theorem decodeGave_encLastBits (n : Nat) (v : Symbol) (s : State) : (decodeGave n v s).encLastBits = s.encLastBits := rfl
@[simp] theorem decodeGave_fault (n : Nat) (v : Symbol) (s : State) : (decodeGave n v s).fault = s.fault := rfl
@[simp] theorem decodeGave_freq (n : Nat) (v : Symbol) (s : State) : (decodeGave n v s).freq = s.freq := rfl
@[simp] theorem decodeGave_entry (n : Nat) (v : Symbol) (s : State) : (decodeGave n v s).entry = s.entry := rfl
@[simp] theorem decodeGave_packed (n : Nat) (v : Symbol) (s : State) : (decodeGave n v s).packed = s.packed := rfl
@[simp] theorem decodeGave_first (n : Nat) (v : Symbol) (s : State) : (decodeGave n v s).first = s.first := rfl
@[simp] theorem decodeGave_index (n : Nat) (v : Symbol) (s : State) : (decodeGave n v s).index = s.index := rfl
@[simp] theorem decodeGave_symSource (n : Nat) (v : Symbol) (s : State) : (decodeGave n v s).symSource = s.symSource := rfl
@[simp] theorem decodeGave_symSink (n : Nat) (v : Symbol) (s : State) : (decodeGave n v s).symSink = s.symSink := rfl
@[simp] theorem decodeGave_bitSource (n : Nat) (v : Symbol) (s : State) : (decodeGave n v s).bitSource = s.bitSource := rfl
@[simp] theorem decodeGave_bitSink (n : Nat) (v : Symbol) (s : State) : (decodeGave n v s).bitSink = s.bitSink := rfl
@[simp] theorem decodeGave_host (n : Nat) (v : Symbol) (s : State) : (decodeGave n v s).host = s.host := rfl
@[simp] theorem decodeGave_refTables (n : Nat) (v : Symbol) (s : State) : (decodeGave n v s).refTables = s.refTables := rfl
@[simp] theorem decodeGave_readLog (n : Nat) (v : Symbol) (s : State) : (decodeGave n v s).readLog = s.readLog := rfl
@[simp] theorem freqAt_decodeGave (n : Nat) (v : Symbol) (s : State) (a : Symbol) : freqAt (decodeGave n v s) a = freqAt s a := rfl
@[simp] theorem entryAt_decodeGave (n : Nat) (v : Symbol) (s : State) (a : Symbol) : entryAt (decodeGave n v s) a = entryAt s a := rfl
@[simp] theorem firstAt_decodeGave (n : Nat) (v : Symbol) (s : State) (L : Nat) : firstAt (decodeGave n v s) L = firstAt s L := rfl
@[simp] theorem indexAt_decodeGave (n : Nat) (v : Symbol) (s : State) (L : Nat) : indexAt (decodeGave n v s) L = indexAt s L := rfl

/-! ### faultBusyWrite -/

@[simp] theorem faultBusyWrite_code (s : State) : (faultBusyWrite s).code = s.code := rfl
@[simp] theorem faultBusyWrite_lastOp (s : State) : (faultBusyWrite s).lastOp = s.lastOp := rfl
@[simp] theorem faultBusyWrite_runKind (s : State) : (faultBusyWrite s).runKind = s.runKind := rfl
@[simp] theorem faultBusyWrite_phase (s : State) : (faultBusyWrite s).phase = s.phase := rfl
@[simp] theorem faultBusyWrite_count (s : State) : (faultBusyWrite s).count = s.count := rfl
@[simp] theorem faultBusyWrite_bitCount (s : State) : (faultBusyWrite s).bitCount = s.bitCount := rfl
@[simp] theorem faultBusyWrite_decSym (s : State) : (faultBusyWrite s).decSym = s.decSym := rfl
@[simp] theorem faultBusyWrite_decValid (s : State) : (faultBusyWrite s).decValid = s.decValid := rfl
@[simp] theorem faultBusyWrite_decBits (s : State) : (faultBusyWrite s).decBits = s.decBits := rfl
@[simp] theorem faultBusyWrite_encLastBits (s : State) : (faultBusyWrite s).encLastBits = s.encLastBits := rfl
@[simp] theorem faultBusyWrite_fault (s : State) : (faultBusyWrite s).fault = { s.fault with busyWrite := true } := rfl
@[simp] theorem faultBusyWrite_freq (s : State) : (faultBusyWrite s).freq = s.freq := rfl
@[simp] theorem faultBusyWrite_entry (s : State) : (faultBusyWrite s).entry = s.entry := rfl
@[simp] theorem faultBusyWrite_packed (s : State) : (faultBusyWrite s).packed = s.packed := rfl
@[simp] theorem faultBusyWrite_first (s : State) : (faultBusyWrite s).first = s.first := rfl
@[simp] theorem faultBusyWrite_index (s : State) : (faultBusyWrite s).index = s.index := rfl
@[simp] theorem faultBusyWrite_symSource (s : State) : (faultBusyWrite s).symSource = s.symSource := rfl
@[simp] theorem faultBusyWrite_symSink (s : State) : (faultBusyWrite s).symSink = s.symSink := rfl
@[simp] theorem faultBusyWrite_bitSource (s : State) : (faultBusyWrite s).bitSource = s.bitSource := rfl
@[simp] theorem faultBusyWrite_bitSink (s : State) : (faultBusyWrite s).bitSink = s.bitSink := rfl
@[simp] theorem faultBusyWrite_host (s : State) : (faultBusyWrite s).host = s.host := rfl
@[simp] theorem faultBusyWrite_refTables (s : State) : (faultBusyWrite s).refTables = s.refTables := rfl
@[simp] theorem faultBusyWrite_readLog (s : State) : (faultBusyWrite s).readLog = s.readLog := rfl
@[simp] theorem freqAt_faultBusyWrite (s : State) (a : Symbol) : freqAt (faultBusyWrite s) a = freqAt s a := rfl
@[simp] theorem entryAt_faultBusyWrite (s : State) (a : Symbol) : entryAt (faultBusyWrite s) a = entryAt s a := rfl
@[simp] theorem firstAt_faultBusyWrite (s : State) (L : Nat) : firstAt (faultBusyWrite s) L = firstAt s L := rfl
@[simp] theorem indexAt_faultBusyWrite (s : State) (L : Nat) : indexAt (faultBusyWrite s) L = indexAt s L := rfl

/-! ### faultBadAccess -/

@[simp] theorem faultBadAccess_code (s : State) : (faultBadAccess s).code = s.code := rfl
@[simp] theorem faultBadAccess_lastOp (s : State) : (faultBadAccess s).lastOp = s.lastOp := rfl
@[simp] theorem faultBadAccess_runKind (s : State) : (faultBadAccess s).runKind = s.runKind := rfl
@[simp] theorem faultBadAccess_phase (s : State) : (faultBadAccess s).phase = s.phase := rfl
@[simp] theorem faultBadAccess_count (s : State) : (faultBadAccess s).count = s.count := rfl
@[simp] theorem faultBadAccess_bitCount (s : State) : (faultBadAccess s).bitCount = s.bitCount := rfl
@[simp] theorem faultBadAccess_decSym (s : State) : (faultBadAccess s).decSym = s.decSym := rfl
@[simp] theorem faultBadAccess_decValid (s : State) : (faultBadAccess s).decValid = s.decValid := rfl
@[simp] theorem faultBadAccess_decBits (s : State) : (faultBadAccess s).decBits = s.decBits := rfl
@[simp] theorem faultBadAccess_encLastBits (s : State) : (faultBadAccess s).encLastBits = s.encLastBits := rfl
@[simp] theorem faultBadAccess_fault (s : State) : (faultBadAccess s).fault = { s.fault with badAccess := true } := rfl
@[simp] theorem faultBadAccess_freq (s : State) : (faultBadAccess s).freq = s.freq := rfl
@[simp] theorem faultBadAccess_entry (s : State) : (faultBadAccess s).entry = s.entry := rfl
@[simp] theorem faultBadAccess_packed (s : State) : (faultBadAccess s).packed = s.packed := rfl
@[simp] theorem faultBadAccess_first (s : State) : (faultBadAccess s).first = s.first := rfl
@[simp] theorem faultBadAccess_index (s : State) : (faultBadAccess s).index = s.index := rfl
@[simp] theorem faultBadAccess_symSource (s : State) : (faultBadAccess s).symSource = s.symSource := rfl
@[simp] theorem faultBadAccess_symSink (s : State) : (faultBadAccess s).symSink = s.symSink := rfl
@[simp] theorem faultBadAccess_bitSource (s : State) : (faultBadAccess s).bitSource = s.bitSource := rfl
@[simp] theorem faultBadAccess_bitSink (s : State) : (faultBadAccess s).bitSink = s.bitSink := rfl
@[simp] theorem faultBadAccess_host (s : State) : (faultBadAccess s).host = s.host := rfl
@[simp] theorem faultBadAccess_refTables (s : State) : (faultBadAccess s).refTables = s.refTables := rfl
@[simp] theorem faultBadAccess_readLog (s : State) : (faultBadAccess s).readLog = s.readLog := rfl
@[simp] theorem freqAt_faultBadAccess (s : State) (a : Symbol) : freqAt (faultBadAccess s) a = freqAt s a := rfl
@[simp] theorem entryAt_faultBadAccess (s : State) (a : Symbol) : entryAt (faultBadAccess s) a = entryAt s a := rfl
@[simp] theorem firstAt_faultBadAccess (s : State) (L : Nat) : firstAt (faultBadAccess s) L = firstAt s L := rfl
@[simp] theorem indexAt_faultBadAccess (s : State) (L : Nat) : indexAt (faultBadAccess s) L = indexAt s L := rfl

/-! ### faultFreqOverflow -/

@[simp] theorem faultFreqOverflow_code (s : State) : (faultFreqOverflow s).code = s.code := rfl
@[simp] theorem faultFreqOverflow_lastOp (s : State) : (faultFreqOverflow s).lastOp = s.lastOp := rfl
@[simp] theorem faultFreqOverflow_runKind (s : State) : (faultFreqOverflow s).runKind = s.runKind := rfl
@[simp] theorem faultFreqOverflow_phase (s : State) : (faultFreqOverflow s).phase = s.phase := rfl
@[simp] theorem faultFreqOverflow_count (s : State) : (faultFreqOverflow s).count = s.count := rfl
@[simp] theorem faultFreqOverflow_bitCount (s : State) : (faultFreqOverflow s).bitCount = s.bitCount := rfl
@[simp] theorem faultFreqOverflow_decSym (s : State) : (faultFreqOverflow s).decSym = s.decSym := rfl
@[simp] theorem faultFreqOverflow_decValid (s : State) : (faultFreqOverflow s).decValid = s.decValid := rfl
@[simp] theorem faultFreqOverflow_decBits (s : State) : (faultFreqOverflow s).decBits = s.decBits := rfl
@[simp] theorem faultFreqOverflow_encLastBits (s : State) : (faultFreqOverflow s).encLastBits = s.encLastBits := rfl
@[simp] theorem faultFreqOverflow_fault (s : State) : (faultFreqOverflow s).fault = { s.fault with freqOverflow := true } := rfl
@[simp] theorem faultFreqOverflow_freq (s : State) : (faultFreqOverflow s).freq = s.freq := rfl
@[simp] theorem faultFreqOverflow_entry (s : State) : (faultFreqOverflow s).entry = s.entry := rfl
@[simp] theorem faultFreqOverflow_packed (s : State) : (faultFreqOverflow s).packed = s.packed := rfl
@[simp] theorem faultFreqOverflow_first (s : State) : (faultFreqOverflow s).first = s.first := rfl
@[simp] theorem faultFreqOverflow_index (s : State) : (faultFreqOverflow s).index = s.index := rfl
@[simp] theorem faultFreqOverflow_symSource (s : State) : (faultFreqOverflow s).symSource = s.symSource := rfl
@[simp] theorem faultFreqOverflow_symSink (s : State) : (faultFreqOverflow s).symSink = s.symSink := rfl
@[simp] theorem faultFreqOverflow_bitSource (s : State) : (faultFreqOverflow s).bitSource = s.bitSource := rfl
@[simp] theorem faultFreqOverflow_bitSink (s : State) : (faultFreqOverflow s).bitSink = s.bitSink := rfl
@[simp] theorem faultFreqOverflow_host (s : State) : (faultFreqOverflow s).host = s.host := rfl
@[simp] theorem faultFreqOverflow_refTables (s : State) : (faultFreqOverflow s).refTables = s.refTables := rfl
@[simp] theorem faultFreqOverflow_readLog (s : State) : (faultFreqOverflow s).readLog = s.readLog := rfl
@[simp] theorem freqAt_faultFreqOverflow (s : State) (a : Symbol) : freqAt (faultFreqOverflow s) a = freqAt s a := rfl
@[simp] theorem entryAt_faultFreqOverflow (s : State) (a : Symbol) : entryAt (faultFreqOverflow s) a = entryAt s a := rfl
@[simp] theorem firstAt_faultFreqOverflow (s : State) (L : Nat) : firstAt (faultFreqOverflow s) L = firstAt s L := rfl
@[simp] theorem indexAt_faultFreqOverflow (s : State) (L : Nat) : indexAt (faultFreqOverflow s) L = indexAt s L := rfl

/-! ### setLastOp -/

@[simp] theorem setLastOp_code (w : Word) (s : State) : (setLastOp w s).code = s.code := rfl
@[simp] theorem setLastOp_lastOp (w : Word) (s : State) : (setLastOp w s).lastOp = wordOp w := rfl
@[simp] theorem setLastOp_runKind (w : Word) (s : State) : (setLastOp w s).runKind = s.runKind := rfl
@[simp] theorem setLastOp_phase (w : Word) (s : State) : (setLastOp w s).phase = s.phase := rfl
@[simp] theorem setLastOp_count (w : Word) (s : State) : (setLastOp w s).count = s.count := rfl
@[simp] theorem setLastOp_bitCount (w : Word) (s : State) : (setLastOp w s).bitCount = s.bitCount := rfl
@[simp] theorem setLastOp_decSym (w : Word) (s : State) : (setLastOp w s).decSym = s.decSym := rfl
@[simp] theorem setLastOp_decValid (w : Word) (s : State) : (setLastOp w s).decValid = s.decValid := rfl
@[simp] theorem setLastOp_decBits (w : Word) (s : State) : (setLastOp w s).decBits = s.decBits := rfl
@[simp] theorem setLastOp_encLastBits (w : Word) (s : State) : (setLastOp w s).encLastBits = s.encLastBits := rfl
@[simp] theorem setLastOp_fault (w : Word) (s : State) : (setLastOp w s).fault = s.fault := rfl
@[simp] theorem setLastOp_freq (w : Word) (s : State) : (setLastOp w s).freq = s.freq := rfl
@[simp] theorem setLastOp_entry (w : Word) (s : State) : (setLastOp w s).entry = s.entry := rfl
@[simp] theorem setLastOp_packed (w : Word) (s : State) : (setLastOp w s).packed = s.packed := rfl
@[simp] theorem setLastOp_first (w : Word) (s : State) : (setLastOp w s).first = s.first := rfl
@[simp] theorem setLastOp_index (w : Word) (s : State) : (setLastOp w s).index = s.index := rfl
@[simp] theorem setLastOp_symSource (w : Word) (s : State) : (setLastOp w s).symSource = s.symSource := rfl
@[simp] theorem setLastOp_symSink (w : Word) (s : State) : (setLastOp w s).symSink = s.symSink := rfl
@[simp] theorem setLastOp_bitSource (w : Word) (s : State) : (setLastOp w s).bitSource = s.bitSource := rfl
@[simp] theorem setLastOp_bitSink (w : Word) (s : State) : (setLastOp w s).bitSink = s.bitSink := rfl
@[simp] theorem setLastOp_host (w : Word) (s : State) : (setLastOp w s).host = s.host := rfl
@[simp] theorem setLastOp_refTables (w : Word) (s : State) : (setLastOp w s).refTables = s.refTables := rfl
@[simp] theorem setLastOp_readLog (w : Word) (s : State) : (setLastOp w s).readLog = s.readLog := rfl
@[simp] theorem freqAt_setLastOp (w : Word) (s : State) (a : Symbol) : freqAt (setLastOp w s) a = freqAt s a := rfl
@[simp] theorem entryAt_setLastOp (w : Word) (s : State) (a : Symbol) : entryAt (setLastOp w s) a = entryAt s a := rfl
@[simp] theorem firstAt_setLastOp (w : Word) (s : State) (L : Nat) : firstAt (setLastOp w s) L = firstAt s L := rfl
@[simp] theorem indexAt_setLastOp (w : Word) (s : State) (L : Nat) : indexAt (setLastOp w s) L = indexAt s L := rfl

/-! ### symAvail -/

@[simp] theorem symAvail_code (s : State) : (symAvail s).2.code = s.code := rfl
@[simp] theorem symAvail_lastOp (s : State) : (symAvail s).2.lastOp = s.lastOp := rfl
@[simp] theorem symAvail_runKind (s : State) : (symAvail s).2.runKind = s.runKind := rfl
@[simp] theorem symAvail_phase (s : State) : (symAvail s).2.phase = s.phase := rfl
@[simp] theorem symAvail_count (s : State) : (symAvail s).2.count = s.count := rfl
@[simp] theorem symAvail_bitCount (s : State) : (symAvail s).2.bitCount = s.bitCount := rfl
@[simp] theorem symAvail_decSym (s : State) : (symAvail s).2.decSym = s.decSym := rfl
@[simp] theorem symAvail_decValid (s : State) : (symAvail s).2.decValid = s.decValid := rfl
@[simp] theorem symAvail_decBits (s : State) : (symAvail s).2.decBits = s.decBits := rfl
@[simp] theorem symAvail_encLastBits (s : State) : (symAvail s).2.encLastBits = s.encLastBits := rfl
@[simp] theorem symAvail_fault (s : State) : (symAvail s).2.fault = s.fault := rfl
@[simp] theorem symAvail_freq (s : State) : (symAvail s).2.freq = s.freq := rfl
@[simp] theorem symAvail_entry (s : State) : (symAvail s).2.entry = s.entry := rfl
@[simp] theorem symAvail_packed (s : State) : (symAvail s).2.packed = s.packed := rfl
@[simp] theorem symAvail_first (s : State) : (symAvail s).2.first = s.first := rfl
@[simp] theorem symAvail_index (s : State) : (symAvail s).2.index = s.index := rfl
@[simp] theorem symAvail_symSource (s : State) : (symAvail s).2.symSource = s.symSource.avail.2 := rfl
@[simp] theorem symAvail_symSink (s : State) : (symAvail s).2.symSink = s.symSink := rfl
@[simp] theorem symAvail_bitSource (s : State) : (symAvail s).2.bitSource = s.bitSource := rfl
@[simp] theorem symAvail_bitSink (s : State) : (symAvail s).2.bitSink = s.bitSink := rfl
@[simp] theorem symAvail_host (s : State) : (symAvail s).2.host = s.host := rfl
@[simp] theorem symAvail_refTables (s : State) : (symAvail s).2.refTables = s.refTables := rfl
@[simp] theorem symAvail_readLog (s : State) : (symAvail s).2.readLog = s.readLog := rfl
@[simp] theorem freqAt_symAvail (s : State) (a : Symbol) : freqAt (symAvail s).2 a = freqAt s a := rfl
@[simp] theorem entryAt_symAvail (s : State) (a : Symbol) : entryAt (symAvail s).2 a = entryAt s a := rfl
@[simp] theorem firstAt_symAvail (s : State) (L : Nat) : firstAt (symAvail s).2 L = firstAt s L := rfl
@[simp] theorem indexAt_symAvail (s : State) (L : Nat) : indexAt (symAvail s).2 L = indexAt s L := rfl

/-! ### symPull -/

@[simp] theorem symPull_code (s : State) : (symPull s).code = s.code := rfl
@[simp] theorem symPull_lastOp (s : State) : (symPull s).lastOp = s.lastOp := rfl
@[simp] theorem symPull_runKind (s : State) : (symPull s).runKind = s.runKind := rfl
@[simp] theorem symPull_phase (s : State) : (symPull s).phase = s.phase := rfl
@[simp] theorem symPull_count (s : State) : (symPull s).count = s.count := rfl
@[simp] theorem symPull_bitCount (s : State) : (symPull s).bitCount = s.bitCount := rfl
@[simp] theorem symPull_decSym (s : State) : (symPull s).decSym = s.decSym := rfl
@[simp] theorem symPull_decValid (s : State) : (symPull s).decValid = s.decValid := rfl
@[simp] theorem symPull_decBits (s : State) : (symPull s).decBits = s.decBits := rfl
@[simp] theorem symPull_encLastBits (s : State) : (symPull s).encLastBits = s.encLastBits := rfl
@[simp] theorem symPull_fault (s : State) : (symPull s).fault = s.fault := rfl
@[simp] theorem symPull_freq (s : State) : (symPull s).freq = s.freq := rfl
@[simp] theorem symPull_entry (s : State) : (symPull s).entry = s.entry := rfl
@[simp] theorem symPull_packed (s : State) : (symPull s).packed = s.packed := rfl
@[simp] theorem symPull_first (s : State) : (symPull s).first = s.first := rfl
@[simp] theorem symPull_index (s : State) : (symPull s).index = s.index := rfl
@[simp] theorem symPull_symSource (s : State) : (symPull s).symSource = s.symSource.pull := rfl
@[simp] theorem symPull_symSink (s : State) : (symPull s).symSink = s.symSink := rfl
@[simp] theorem symPull_bitSource (s : State) : (symPull s).bitSource = s.bitSource := rfl
@[simp] theorem symPull_bitSink (s : State) : (symPull s).bitSink = s.bitSink := rfl
@[simp] theorem symPull_host (s : State) : (symPull s).host = s.host := rfl
@[simp] theorem symPull_refTables (s : State) : (symPull s).refTables = s.refTables := rfl
@[simp] theorem symPull_readLog (s : State) : (symPull s).readLog = s.readLog := rfl
@[simp] theorem freqAt_symPull (s : State) (a : Symbol) : freqAt (symPull s) a = freqAt s a := rfl
@[simp] theorem entryAt_symPull (s : State) (a : Symbol) : entryAt (symPull s) a = entryAt s a := rfl
@[simp] theorem firstAt_symPull (s : State) (L : Nat) : firstAt (symPull s) L = firstAt s L := rfl
@[simp] theorem indexAt_symPull (s : State) (L : Nat) : indexAt (symPull s) L = indexAt s L := rfl

/-! ### symCanAccept -/

@[simp] theorem symCanAccept_code (s : State) : (symCanAccept s).2.code = s.code := rfl
@[simp] theorem symCanAccept_lastOp (s : State) : (symCanAccept s).2.lastOp = s.lastOp := rfl
@[simp] theorem symCanAccept_runKind (s : State) : (symCanAccept s).2.runKind = s.runKind := rfl
@[simp] theorem symCanAccept_phase (s : State) : (symCanAccept s).2.phase = s.phase := rfl
@[simp] theorem symCanAccept_count (s : State) : (symCanAccept s).2.count = s.count := rfl
@[simp] theorem symCanAccept_bitCount (s : State) : (symCanAccept s).2.bitCount = s.bitCount := rfl
@[simp] theorem symCanAccept_decSym (s : State) : (symCanAccept s).2.decSym = s.decSym := rfl
@[simp] theorem symCanAccept_decValid (s : State) : (symCanAccept s).2.decValid = s.decValid := rfl
@[simp] theorem symCanAccept_decBits (s : State) : (symCanAccept s).2.decBits = s.decBits := rfl
@[simp] theorem symCanAccept_encLastBits (s : State) : (symCanAccept s).2.encLastBits = s.encLastBits := rfl
@[simp] theorem symCanAccept_fault (s : State) : (symCanAccept s).2.fault = s.fault := rfl
@[simp] theorem symCanAccept_freq (s : State) : (symCanAccept s).2.freq = s.freq := rfl
@[simp] theorem symCanAccept_entry (s : State) : (symCanAccept s).2.entry = s.entry := rfl
@[simp] theorem symCanAccept_packed (s : State) : (symCanAccept s).2.packed = s.packed := rfl
@[simp] theorem symCanAccept_first (s : State) : (symCanAccept s).2.first = s.first := rfl
@[simp] theorem symCanAccept_index (s : State) : (symCanAccept s).2.index = s.index := rfl
@[simp] theorem symCanAccept_symSource (s : State) : (symCanAccept s).2.symSource = s.symSource := rfl
@[simp] theorem symCanAccept_symSink (s : State) : (symCanAccept s).2.symSink = s.symSink.canAccept.2 := rfl
@[simp] theorem symCanAccept_bitSource (s : State) : (symCanAccept s).2.bitSource = s.bitSource := rfl
@[simp] theorem symCanAccept_bitSink (s : State) : (symCanAccept s).2.bitSink = s.bitSink := rfl
@[simp] theorem symCanAccept_host (s : State) : (symCanAccept s).2.host = s.host := rfl
@[simp] theorem symCanAccept_refTables (s : State) : (symCanAccept s).2.refTables = s.refTables := rfl
@[simp] theorem symCanAccept_readLog (s : State) : (symCanAccept s).2.readLog = s.readLog := rfl
@[simp] theorem freqAt_symCanAccept (s : State) (a : Symbol) : freqAt (symCanAccept s).2 a = freqAt s a := rfl
@[simp] theorem entryAt_symCanAccept (s : State) (a : Symbol) : entryAt (symCanAccept s).2 a = entryAt s a := rfl
@[simp] theorem firstAt_symCanAccept (s : State) (L : Nat) : firstAt (symCanAccept s).2 L = firstAt s L := rfl
@[simp] theorem indexAt_symCanAccept (s : State) (L : Nat) : indexAt (symCanAccept s).2 L = indexAt s L := rfl

/-! ### symPush -/

@[simp] theorem symPush_code (v : Symbol) (s : State) : (symPush v s).code = s.code := rfl
@[simp] theorem symPush_lastOp (v : Symbol) (s : State) : (symPush v s).lastOp = s.lastOp := rfl
@[simp] theorem symPush_runKind (v : Symbol) (s : State) : (symPush v s).runKind = s.runKind := rfl
@[simp] theorem symPush_phase (v : Symbol) (s : State) : (symPush v s).phase = s.phase := rfl
@[simp] theorem symPush_count (v : Symbol) (s : State) : (symPush v s).count = s.count := rfl
@[simp] theorem symPush_bitCount (v : Symbol) (s : State) : (symPush v s).bitCount = s.bitCount := rfl
@[simp] theorem symPush_decSym (v : Symbol) (s : State) : (symPush v s).decSym = s.decSym := rfl
@[simp] theorem symPush_decValid (v : Symbol) (s : State) : (symPush v s).decValid = s.decValid := rfl
@[simp] theorem symPush_decBits (v : Symbol) (s : State) : (symPush v s).decBits = s.decBits := rfl
@[simp] theorem symPush_encLastBits (v : Symbol) (s : State) : (symPush v s).encLastBits = s.encLastBits := rfl
@[simp] theorem symPush_fault (v : Symbol) (s : State) : (symPush v s).fault = s.fault := rfl
@[simp] theorem symPush_freq (v : Symbol) (s : State) : (symPush v s).freq = s.freq := rfl
@[simp] theorem symPush_entry (v : Symbol) (s : State) : (symPush v s).entry = s.entry := rfl
@[simp] theorem symPush_packed (v : Symbol) (s : State) : (symPush v s).packed = s.packed := rfl
@[simp] theorem symPush_first (v : Symbol) (s : State) : (symPush v s).first = s.first := rfl
@[simp] theorem symPush_index (v : Symbol) (s : State) : (symPush v s).index = s.index := rfl
@[simp] theorem symPush_symSource (v : Symbol) (s : State) : (symPush v s).symSource = s.symSource := rfl
@[simp] theorem symPush_symSink (v : Symbol) (s : State) : (symPush v s).symSink = s.symSink.push v := rfl
@[simp] theorem symPush_bitSource (v : Symbol) (s : State) : (symPush v s).bitSource = s.bitSource := rfl
@[simp] theorem symPush_bitSink (v : Symbol) (s : State) : (symPush v s).bitSink = s.bitSink := rfl
@[simp] theorem symPush_host (v : Symbol) (s : State) : (symPush v s).host = s.host := rfl
@[simp] theorem symPush_refTables (v : Symbol) (s : State) : (symPush v s).refTables = s.refTables := rfl
@[simp] theorem symPush_readLog (v : Symbol) (s : State) : (symPush v s).readLog = s.readLog := rfl
@[simp] theorem freqAt_symPush (v : Symbol) (s : State) (a : Symbol) : freqAt (symPush v s) a = freqAt s a := rfl
@[simp] theorem entryAt_symPush (v : Symbol) (s : State) (a : Symbol) : entryAt (symPush v s) a = entryAt s a := rfl
@[simp] theorem firstAt_symPush (v : Symbol) (s : State) (L : Nat) : firstAt (symPush v s) L = firstAt s L := rfl
@[simp] theorem indexAt_symPush (v : Symbol) (s : State) (L : Nat) : indexAt (symPush v s) L = indexAt s L := rfl

/-! ### bitAvail -/

@[simp] theorem bitAvail_code (s : State) : (bitAvail s).2.code = s.code := rfl
@[simp] theorem bitAvail_lastOp (s : State) : (bitAvail s).2.lastOp = s.lastOp := rfl
@[simp] theorem bitAvail_runKind (s : State) : (bitAvail s).2.runKind = s.runKind := rfl
@[simp] theorem bitAvail_phase (s : State) : (bitAvail s).2.phase = s.phase := rfl
@[simp] theorem bitAvail_count (s : State) : (bitAvail s).2.count = s.count := rfl
@[simp] theorem bitAvail_bitCount (s : State) : (bitAvail s).2.bitCount = s.bitCount := rfl
@[simp] theorem bitAvail_decSym (s : State) : (bitAvail s).2.decSym = s.decSym := rfl
@[simp] theorem bitAvail_decValid (s : State) : (bitAvail s).2.decValid = s.decValid := rfl
@[simp] theorem bitAvail_decBits (s : State) : (bitAvail s).2.decBits = s.decBits := rfl
@[simp] theorem bitAvail_encLastBits (s : State) : (bitAvail s).2.encLastBits = s.encLastBits := rfl
@[simp] theorem bitAvail_fault (s : State) : (bitAvail s).2.fault = s.fault := rfl
@[simp] theorem bitAvail_freq (s : State) : (bitAvail s).2.freq = s.freq := rfl
@[simp] theorem bitAvail_entry (s : State) : (bitAvail s).2.entry = s.entry := rfl
@[simp] theorem bitAvail_packed (s : State) : (bitAvail s).2.packed = s.packed := rfl
@[simp] theorem bitAvail_first (s : State) : (bitAvail s).2.first = s.first := rfl
@[simp] theorem bitAvail_index (s : State) : (bitAvail s).2.index = s.index := rfl
@[simp] theorem bitAvail_symSource (s : State) : (bitAvail s).2.symSource = s.symSource := rfl
@[simp] theorem bitAvail_symSink (s : State) : (bitAvail s).2.symSink = s.symSink := rfl
@[simp] theorem bitAvail_bitSource (s : State) : (bitAvail s).2.bitSource = s.bitSource.avail.2 := rfl
@[simp] theorem bitAvail_bitSink (s : State) : (bitAvail s).2.bitSink = s.bitSink := rfl
@[simp] theorem bitAvail_host (s : State) : (bitAvail s).2.host = s.host := rfl
@[simp] theorem bitAvail_refTables (s : State) : (bitAvail s).2.refTables = s.refTables := rfl
@[simp] theorem bitAvail_readLog (s : State) : (bitAvail s).2.readLog = s.readLog := rfl
@[simp] theorem freqAt_bitAvail (s : State) (a : Symbol) : freqAt (bitAvail s).2 a = freqAt s a := rfl
@[simp] theorem entryAt_bitAvail (s : State) (a : Symbol) : entryAt (bitAvail s).2 a = entryAt s a := rfl
@[simp] theorem firstAt_bitAvail (s : State) (L : Nat) : firstAt (bitAvail s).2 L = firstAt s L := rfl
@[simp] theorem indexAt_bitAvail (s : State) (L : Nat) : indexAt (bitAvail s).2 L = indexAt s L := rfl

/-! ### bitPull -/

@[simp] theorem bitPull_code (s : State) : (bitPull s).code = s.code := rfl
@[simp] theorem bitPull_lastOp (s : State) : (bitPull s).lastOp = s.lastOp := rfl
@[simp] theorem bitPull_runKind (s : State) : (bitPull s).runKind = s.runKind := rfl
@[simp] theorem bitPull_phase (s : State) : (bitPull s).phase = s.phase := rfl
@[simp] theorem bitPull_count (s : State) : (bitPull s).count = s.count := rfl
@[simp] theorem bitPull_bitCount (s : State) : (bitPull s).bitCount = s.bitCount := rfl
@[simp] theorem bitPull_decSym (s : State) : (bitPull s).decSym = s.decSym := rfl
@[simp] theorem bitPull_decValid (s : State) : (bitPull s).decValid = s.decValid := rfl
@[simp] theorem bitPull_decBits (s : State) : (bitPull s).decBits = s.decBits := rfl
@[simp] theorem bitPull_encLastBits (s : State) : (bitPull s).encLastBits = s.encLastBits := rfl
@[simp] theorem bitPull_fault (s : State) : (bitPull s).fault = s.fault := rfl
@[simp] theorem bitPull_freq (s : State) : (bitPull s).freq = s.freq := rfl
@[simp] theorem bitPull_entry (s : State) : (bitPull s).entry = s.entry := rfl
@[simp] theorem bitPull_packed (s : State) : (bitPull s).packed = s.packed := rfl
@[simp] theorem bitPull_first (s : State) : (bitPull s).first = s.first := rfl
@[simp] theorem bitPull_index (s : State) : (bitPull s).index = s.index := rfl
@[simp] theorem bitPull_symSource (s : State) : (bitPull s).symSource = s.symSource := rfl
@[simp] theorem bitPull_symSink (s : State) : (bitPull s).symSink = s.symSink := rfl
@[simp] theorem bitPull_bitSource (s : State) : (bitPull s).bitSource = s.bitSource.pull := rfl
@[simp] theorem bitPull_bitSink (s : State) : (bitPull s).bitSink = s.bitSink := rfl
@[simp] theorem bitPull_host (s : State) : (bitPull s).host = s.host := rfl
@[simp] theorem bitPull_refTables (s : State) : (bitPull s).refTables = s.refTables := rfl
@[simp] theorem bitPull_readLog (s : State) : (bitPull s).readLog = s.readLog := rfl
@[simp] theorem freqAt_bitPull (s : State) (a : Symbol) : freqAt (bitPull s) a = freqAt s a := rfl
@[simp] theorem entryAt_bitPull (s : State) (a : Symbol) : entryAt (bitPull s) a = entryAt s a := rfl
@[simp] theorem firstAt_bitPull (s : State) (L : Nat) : firstAt (bitPull s) L = firstAt s L := rfl
@[simp] theorem indexAt_bitPull (s : State) (L : Nat) : indexAt (bitPull s) L = indexAt s L := rfl

/-! ### bitCanAccept -/

@[simp] theorem bitCanAccept_code (s : State) : (bitCanAccept s).2.code = s.code := rfl
@[simp] theorem bitCanAccept_lastOp (s : State) : (bitCanAccept s).2.lastOp = s.lastOp := rfl
@[simp] theorem bitCanAccept_runKind (s : State) : (bitCanAccept s).2.runKind = s.runKind := rfl
@[simp] theorem bitCanAccept_phase (s : State) : (bitCanAccept s).2.phase = s.phase := rfl
@[simp] theorem bitCanAccept_count (s : State) : (bitCanAccept s).2.count = s.count := rfl
@[simp] theorem bitCanAccept_bitCount (s : State) : (bitCanAccept s).2.bitCount = s.bitCount := rfl
@[simp] theorem bitCanAccept_decSym (s : State) : (bitCanAccept s).2.decSym = s.decSym := rfl
@[simp] theorem bitCanAccept_decValid (s : State) : (bitCanAccept s).2.decValid = s.decValid := rfl
@[simp] theorem bitCanAccept_decBits (s : State) : (bitCanAccept s).2.decBits = s.decBits := rfl
@[simp] theorem bitCanAccept_encLastBits (s : State) : (bitCanAccept s).2.encLastBits = s.encLastBits := rfl
@[simp] theorem bitCanAccept_fault (s : State) : (bitCanAccept s).2.fault = s.fault := rfl
@[simp] theorem bitCanAccept_freq (s : State) : (bitCanAccept s).2.freq = s.freq := rfl
@[simp] theorem bitCanAccept_entry (s : State) : (bitCanAccept s).2.entry = s.entry := rfl
@[simp] theorem bitCanAccept_packed (s : State) : (bitCanAccept s).2.packed = s.packed := rfl
@[simp] theorem bitCanAccept_first (s : State) : (bitCanAccept s).2.first = s.first := rfl
@[simp] theorem bitCanAccept_index (s : State) : (bitCanAccept s).2.index = s.index := rfl
@[simp] theorem bitCanAccept_symSource (s : State) : (bitCanAccept s).2.symSource = s.symSource := rfl
@[simp] theorem bitCanAccept_symSink (s : State) : (bitCanAccept s).2.symSink = s.symSink := rfl
@[simp] theorem bitCanAccept_bitSource (s : State) : (bitCanAccept s).2.bitSource = s.bitSource := rfl
@[simp] theorem bitCanAccept_bitSink (s : State) : (bitCanAccept s).2.bitSink = s.bitSink.canAccept.2 := rfl
@[simp] theorem bitCanAccept_host (s : State) : (bitCanAccept s).2.host = s.host := rfl
@[simp] theorem bitCanAccept_refTables (s : State) : (bitCanAccept s).2.refTables = s.refTables := rfl
@[simp] theorem bitCanAccept_readLog (s : State) : (bitCanAccept s).2.readLog = s.readLog := rfl
@[simp] theorem freqAt_bitCanAccept (s : State) (a : Symbol) : freqAt (bitCanAccept s).2 a = freqAt s a := rfl
@[simp] theorem entryAt_bitCanAccept (s : State) (a : Symbol) : entryAt (bitCanAccept s).2 a = entryAt s a := rfl
@[simp] theorem firstAt_bitCanAccept (s : State) (L : Nat) : firstAt (bitCanAccept s).2 L = firstAt s L := rfl
@[simp] theorem indexAt_bitCanAccept (s : State) (L : Nat) : indexAt (bitCanAccept s).2 L = indexAt s L := rfl

/-! ### bitPush -/

@[simp] theorem bitPush_code (b : Bool) (s : State) : (bitPush b s).code = s.code := rfl
@[simp] theorem bitPush_lastOp (b : Bool) (s : State) : (bitPush b s).lastOp = s.lastOp := rfl
@[simp] theorem bitPush_runKind (b : Bool) (s : State) : (bitPush b s).runKind = s.runKind := rfl
@[simp] theorem bitPush_phase (b : Bool) (s : State) : (bitPush b s).phase = s.phase := rfl
@[simp] theorem bitPush_count (b : Bool) (s : State) : (bitPush b s).count = s.count := rfl
@[simp] theorem bitPush_bitCount (b : Bool) (s : State) : (bitPush b s).bitCount = s.bitCount + 1 := rfl
@[simp] theorem bitPush_decSym (b : Bool) (s : State) : (bitPush b s).decSym = s.decSym := rfl
@[simp] theorem bitPush_decValid (b : Bool) (s : State) : (bitPush b s).decValid = s.decValid := rfl
@[simp] theorem bitPush_decBits (b : Bool) (s : State) : (bitPush b s).decBits = s.decBits := rfl
@[simp] theorem bitPush_encLastBits (b : Bool) (s : State) : (bitPush b s).encLastBits = s.encLastBits := rfl
@[simp] theorem bitPush_fault (b : Bool) (s : State) : (bitPush b s).fault = s.fault := rfl
@[simp] theorem bitPush_freq (b : Bool) (s : State) : (bitPush b s).freq = s.freq := rfl
@[simp] theorem bitPush_entry (b : Bool) (s : State) : (bitPush b s).entry = s.entry := rfl
@[simp] theorem bitPush_packed (b : Bool) (s : State) : (bitPush b s).packed = s.packed := rfl
@[simp] theorem bitPush_first (b : Bool) (s : State) : (bitPush b s).first = s.first := rfl
@[simp] theorem bitPush_index (b : Bool) (s : State) : (bitPush b s).index = s.index := rfl
@[simp] theorem bitPush_symSource (b : Bool) (s : State) : (bitPush b s).symSource = s.symSource := rfl
@[simp] theorem bitPush_symSink (b : Bool) (s : State) : (bitPush b s).symSink = s.symSink := rfl
@[simp] theorem bitPush_bitSource (b : Bool) (s : State) : (bitPush b s).bitSource = s.bitSource := rfl
@[simp] theorem bitPush_bitSink (b : Bool) (s : State) : (bitPush b s).bitSink = s.bitSink.push b := rfl
@[simp] theorem bitPush_host (b : Bool) (s : State) : (bitPush b s).host = s.host := rfl
@[simp] theorem bitPush_refTables (b : Bool) (s : State) : (bitPush b s).refTables = s.refTables := rfl
@[simp] theorem bitPush_readLog (b : Bool) (s : State) : (bitPush b s).readLog = s.readLog := rfl
@[simp] theorem freqAt_bitPush (b : Bool) (s : State) (a : Symbol) : freqAt (bitPush b s) a = freqAt s a := rfl
@[simp] theorem entryAt_bitPush (b : Bool) (s : State) (a : Symbol) : entryAt (bitPush b s) a = entryAt s a := rfl
@[simp] theorem firstAt_bitPush (b : Bool) (s : State) (L : Nat) : firstAt (bitPush b s) L = firstAt s L := rfl
@[simp] theorem indexAt_bitPush (b : Bool) (s : State) (L : Nat) : indexAt (bitPush b s) L = indexAt s L := rfl

end Sys2Proof.Machine
end

