-- ==== Sys2Proof/Laws/Arrays.lean ====
section
/-! SUPPORT. The laws of the arrays: the list of all symbols, a read after a write of FREQ, the entries a list of assignments makes, the anchors, the counts, and `greatestUsed`. -/

namespace Sys2Proof.Machine

/-! ### Symbols -/

theorem mem_allSymbols (a : Symbol) : a ∈ allSymbols :=
  List.mem_map.2 ⟨a.toNat, List.mem_range.2 a.isLt, by simp⟩

theorem nodup_allSymbols : allSymbols.Nodup := by
  refine List.Nodup.map_on (fun x hx y hy h => ?_) List.nodup_range
  rw [List.mem_range] at hx hy
  have := congrArg BitVec.toNat h
  simpa [BitVec.toNat_ofNat, Nat.mod_eq_of_lt hx, Nat.mod_eq_of_lt hy] using this

theorem mem_lengths {L : Nat} : L ∈ lengths ↔ 1 ≤ L ∧ L ≤ 16 := by
  simp only [lengths, List.mem_range'_1]; omega

/-! ### FREQ and ENTRY -/

theorem freqAt_setFreq (a b : Symbol) (v : Word) (s : State) :
    freqAt (setFreq a v s) b = if b = a then v else freqAt s b := by
  by_cases h : b = a
  · subst h; simp [freqAt]
  · have : a.toNat ≠ b.toNat := fun hn => h (BitVec.eq_of_toNat_eq hn.symm)
    simp [freqAt, h, Vector.getElem_set_ne _ _ this]

@[simp] theorem entryAt_setEntries (e : Vector CodeEntry 256) (s : State) (a : Symbol) :
    entryAt (setEntries e s) a = e[a.toNat]'a.isLt := rfl

/-- States whose entries agree at every symbol have the same ENTRY array. -/
theorem entry_ext {s t : State} (h : ∀ a, entryAt s a = entryAt t a) : s.entry = t.entry := by
  refine Vector.ext fun i hi => ?_
  simpa [entryAt, BitVec.toNat_ofNat, Nat.mod_eq_of_lt hi] using h (BitVec.ofNat 8 i)

/-! ### Assignments -/

theorem entriesOf_concat (l : List Assignment) (x : Assignment) :
    entriesOf (l ++ [x]) = (entriesOf l).set x.sym.toNat (assignedEntry x) x.sym.isLt := by
  simp [entriesOf]

theorem entriesOf_nil_get (a : Symbol) : (entriesOf [])[a.toNat]'a.isLt = ⟨0, 0⟩ := by
  simp [entriesOf]

/-- A symbol no assignment names has depth 0 and code 0. -/
theorem entriesOf_get_of_not_mem {l : List Assignment} {a : Symbol} (h : ∀ x ∈ l, x.sym ≠ a) :
    (entriesOf l)[a.toNat]'a.isLt = ⟨0, 0⟩ := by
  induction l using List.reverseRecOn with
  | nil => exact entriesOf_nil_get a
  | append_singleton l x ih =>
    have hx : x.sym ≠ a := h x (by simp)
    have hn : x.sym.toNat ≠ a.toNat := fun he => hx (BitVec.eq_of_toNat_eq he)
    simp only [entriesOf_concat, Vector.getElem_set_ne _ _ hn]
    exact ih fun y hy => h y (by simp [hy])

/-- With distinct symbols every assignment stands. -/
theorem entriesOf_get_of_mem {l : List Assignment} (hl : (l.map Assignment.sym).Nodup) {x : Assignment} (hx : x ∈ l) :
    (entriesOf l)[x.sym.toNat]'x.sym.isLt = assignedEntry x := by
  induction l using List.reverseRecOn with
  | nil => simp at hx
  | append_singleton l y ih =>
    simp only [List.map_append, List.map_cons, List.map_nil, List.nodup_append, List.nodup_cons] at hl
    rcases List.mem_append.1 hx with hm | hm
    · have hne : y.sym ≠ x.sym := fun he => hl.2.2 x.sym (List.mem_map_of_mem hm) y.sym (by simp) he.symm
      have hn : y.sym.toNat ≠ x.sym.toNat := fun he => hne (BitVec.eq_of_toNat_eq he)
      simp only [entriesOf_concat, Vector.getElem_set_ne _ _ hn]
      exact ih hl.1 hm
    · rw [List.mem_singleton] at hm
      subst hm
      simp [entriesOf_concat]

/-! ### Counts and anchors -/

@[simp] theorem tableCount_zero (m : Memory) : tableCount m 0 = 0 := rfl

theorem tableCount_of_pos {m : Memory} {L : Nat} (h : 1 ≤ L) : tableCount m L = (readByte m (L - 1)).toNat := by
  simp [tableCount, Nat.ne_of_gt h]

theorem tableCount_le (m : Memory) (L : Nat) : tableCount m L ≤ 255 := by
  unfold tableCount
  split
  · omega
  · have := (readByte m (L - 1)).isLt
    omega

theorem firstAt_setAnchors (s : State) {L : Nat} (h1 : 1 ≤ L) (h2 : L ≤ 16) :
    firstAt (setAnchors s) L = BitVec.ofNat 32 (canonFirst s.packed L) := by
  have hL : L - 1 < 16 := by omega
  have hs : L - 1 + 1 = L := by omega
  simp [firstAt, hL, hs]

theorem indexAt_setAnchors (s : State) {L : Nat} (h1 : 1 ≤ L) (h2 : L ≤ 16) :
    indexAt (setAnchors s) L = BitVec.ofNat 32 (canonIndex s.packed L) := by
  have hL : L - 1 < 16 := by omega
  have hs : L - 1 + 1 = L := by omega
  simp [indexAt, hL, hs]

/-! ### The bytes of a packed table -/

theorem readByte_packedBytesOf_count {counts values : List Byte} {i : Nat} (hc : counts.length = 16) (hi : i < 16) :
    readByte (memoryOf (packedBytesOf counts values)) i = counts.getD i 0 := by
  have h : i < counts.length := by omega
  simp [packedBytesOf, List.append_assoc, List.getElem?_append_left h]

/-- Past the values the section holds zeros (R125, R128). -/
theorem readByte_packedBytesOf_value {counts values : List Byte} (i : Nat) (hc : counts.length = 16) :
    readByte (memoryOf (packedBytesOf counts values)) (16 + i) = values.getD i 0 := by
  have h : counts.length ≤ 16 + i := by omega
  rw [readByte_memoryOf, packedBytesOf, List.append_assoc, List.getD_eq_getElem?_getD, List.getD_eq_getElem?_getD,
    List.getElem?_append_right h, hc, Nat.add_sub_cancel_left]
  by_cases hv : i < values.length
  · rw [List.getElem?_append_left hv]
  · rw [List.getElem?_append_right (by omega), List.getElem?_eq_none (by omega : values.length ≤ i), List.getElem?_replicate]
    split <;> rfl

theorem wf_packedBytesOf {counts values : List Byte} (hc : counts.length = 16) (hv : values.length ≤ 256) :
    Memory.wf (memoryOf (packedBytesOf counts values)) = true :=
  wf_memoryOf (by simp [packedBytesOf, hc, Config.nsym, Config.packedBytes]; omega)

/-- A loaded reference table has as many values as the ROM's table (R128). -/
theorem tableSize_packedBytesOf {counts values : List Byte} (hc : counts.length = 16) :
    tableSize (memoryOf (packedBytesOf counts values)) = (counts.map BitVec.toNat).sum := by
  have h : lengths.map (tableCount (memoryOf (packedBytesOf counts values))) = counts.map BitVec.toNat := by
    refine List.ext_getElem (by simp [lengths, hc]) fun i h1 h2 => ?_
    have hi : i < 16 := by simpa [hc] using h2
    have hg : i < counts.length := by omega
    simp [lengths, tableCount, Nat.add_comm 1 i, readByte_packedBytesOf_count hc hi, hg]
  rw [tableSize, h]

/-! ### greatestUsed -/

theorem greatestUsed_le (f : Nat → Nat) (n : Nat) : greatestUsed f n ≤ n := by
  induction n with
  | zero => simp [greatestUsed]
  | succ n ih => unfold greatestUsed; split <;> omega

/-- Above the largest used level nothing is used. -/
theorem eq_zero_of_greatestUsed_lt {f : Nat → Nat} {n d : Nat} (h : greatestUsed f n < d) (hd : d ≤ n) : f d = 0 := by
  induction n with
  | zero => simp only [greatestUsed] at h; omega
  | succ n ih =>
    unfold greatestUsed at h
    split at h
    · omega
    · by_cases hdn : d = n + 1
      · subst hdn; omega
      · exact ih h (by omega)

/-- The largest used level is used, when any is. -/
theorem greatestUsed_pos {f : Nat → Nat} {n d : Nat} (h1 : 1 ≤ d) (hd : d ≤ n) (hf : 0 < f d) :
    d ≤ greatestUsed f n ∧ 0 < f (greatestUsed f n) := by
  induction n with
  | zero => omega
  | succ n ih =>
    unfold greatestUsed
    split
    · next hp => exact ⟨hd, hp⟩
    · next hp =>
      have hne : d ≠ n + 1 := fun he => hp (he ▸ hf)
      exact ih (by omega)

end Sys2Proof.Machine
end

