-- ==== Sys2Proof/Laws/Ports.lean ====
section
/-! SUPPORT. What the port operations can do: one availability or can-accept call, and a list of bits offered to the bit sink. -/

namespace Sys2Proof.Machine

/-- An availability call that answers yes shows the value the next pull delivers (R61). -/
theorem avail_of_yes {α : Type} {p : Source α} (h : p.answersYes 1) : p.avail.1 = p.nth 0 := by
  have h0 : p.answers.headD true = true := by
    have := h 0 (by omega)
    cases ha : p.answers <;> simp_all
  cases hi : p.items <;> simp_all [Source.avail, Source.offer, Source.nth]

/-- An availability call of an agent that is dry shows nothing. -/
theorem avail_of_dry {α : Type} {p : Source α} (h : p.dryAfter 0) : p.avail.1 = none := by
  rcases h with h | h
  · have : p.answers.headD true = false := by cases ha : p.answers <;> simp_all
    simp only [Source.avail, this, Bool.false_eq_true, if_false]
  · cases hi : p.items <;> simp_all [Source.avail, Source.offer, Source.nth]

@[simp] theorem symAvail_fst (s : State) : (symAvail s).1 = s.symSource.avail.1 := rfl
@[simp] theorem bitAvail_fst (s : State) : (bitAvail s).1 = s.bitSource.avail.1 := rfl
@[simp] theorem symCanAccept_fst (s : State) : (symCanAccept s).1 = s.symSink.canAccept.1 := rfl
@[simp] theorem bitCanAccept_fst (s : State) : (bitCanAccept s).1 = s.bitSink.canAccept.1 := rfl

/-- After one availability call and one pull the agent is one value and one answer further. -/
theorem avail_pull {α : Type} (p : Source α) : p.avail.2.pull = p.after 1 1 := by
  cases p; simp [Source.avail, Source.pull, Source.after]

theorem avail_snd {α : Type} (p : Source α) : p.avail.2 = p.after 1 0 := by
  cases p; simp [Source.avail, Source.after]

theorem after_after {α : Type} (p : Source α) (a n b m : Nat) : (p.after a n).after b m = p.after (a + b) (n + m) := by
  simp [Source.after, List.drop_drop]

@[simp] theorem nth_after {α : Type} (p : Source α) (a n j : Nat) : (p.after a n).nth j = p.nth (n + j) := by
  simp [Source.nth, Source.after]

theorem canAccept_fst {α : Type} (p : Sink α) : p.canAccept.1 = p.answerAt 0 := by
  cases h : p.answers <;> simp [Sink.canAccept, Sink.answerAt, h]

theorem canAccept_snd {α : Type} (p : Sink α) : p.canAccept.2 = ⟨p.taken, p.answers.drop 1, p.rest⟩ := by
  cases p; simp [Sink.canAccept]

theorem sendBits_nil (s : State) : sendBits [] s = ⟨true, 0, s⟩ := rfl

theorem sendBits_refused_first {b : Bool} {bs : List Bool} {s : State} (h : s.bitSink.answerAt 0 = false) :
    sendBits (b :: bs) s = ⟨false, 0, (bitCanAccept s).2⟩ := by
  rw [← canAccept_fst] at h
  simp [sendBits, bitCanAccept, h]

theorem sendBits_taken_first {b : Bool} {bs : List Bool} {s : State} (h : s.bitSink.answerAt 0 = true) :
    sendBits (b :: bs) s =
      { sendBits bs (bitPush b (bitCanAccept s).2) with n := (sendBits bs (bitPush b (bitCanAccept s).2)).n + 1 } := by
  rw [← canAccept_fst] at h
  simp [sendBits, bitCanAccept, h]

/-- The state after bits were offered differs in the bit sink and BITCOUNT alone. -/
theorem sendBits_frame (bs : List Bool) (s : State) :
    (sendBits bs s).state =
      { s with bitSink := (sendBits bs s).state.bitSink, bitCount := (sendBits bs s).state.bitCount } := by
  induction bs generalizing s with
  | nil => rfl
  | cons b bs ih =>
    by_cases h : s.bitSink.answerAt 0 = true
    · rw [sendBits_taken_first h]
      exact ih _
    · rw [sendBits_refused_first (by simpa using h)]
      rfl

theorem sendBits_n_le (bs : List Bool) (s : State) : (sendBits bs s).n ≤ bs.length := by
  induction bs generalizing s with
  | nil => simp [sendBits]
  | cons b bs ih =>
    by_cases h : s.bitSink.answerAt 0 = true
    · have := ih (bitPush b (bitCanAccept s).2)
      rw [sendBits_taken_first h]
      simpa using this
    · rw [sendBits_refused_first (by simpa using h)]
      simp

/-- The sink's answers after a can-accept call and a push. -/
theorem answerAt_push (b : Bool) (s : State) (n : Nat) :
    (bitPush b (bitCanAccept s).2).bitSink.answerAt n = s.bitSink.answerAt (n + 1) := by
  cases h : s.bitSink.answers <;> simp [Sink.answerAt, Sink.push, Sink.canAccept, h]

/-- A sink that takes every bit offered (R149, R160). -/
theorem sendBits_all_taken {bs : List Bool} {s : State} (h : ∀ n, n < bs.length → s.bitSink.answerAt n = true) :
    sendBits bs s =
      ⟨true, bs.length,
        { s with
          bitSink := ⟨s.bitSink.taken ++ bs, s.bitSink.answers.drop bs.length, s.bitSink.rest⟩
          bitCount := s.bitCount + BitVec.ofNat 32 bs.length }⟩ := by
  induction bs generalizing s with
  | nil => simp [sendBits]
  | cons b bs ih =>
    have h0 := h 0 (by simp)
    rw [sendBits_taken_first h0, ih fun n hn => by rw [answerAt_push]; exact h (n + 1) (by simpa using hn)]
    simp only [bitPush_bitSink, bitPush_bitCount, bitCanAccept_bitSink, bitCanAccept_bitCount, canAccept_snd, Sink.push,
      List.length_cons, Sent.mk.injEq, true_and]
    simp [bitPush, bitCanAccept, BitVec.ofNat_add, BitVec.add_assoc, BitVec.add_comm 1#32]

/-- A sink that refuses bit n after taking those before it (R149, R151, R160). -/
theorem sendBits_refused {bs : List Bool} {s : State} {n : Nat} (hn : n < bs.length)
    (h : ∀ j, j < n → s.bitSink.answerAt j = true) (hr : s.bitSink.answerAt n = false) :
    sendBits bs s =
      ⟨false, n,
        { s with
          bitSink := ⟨s.bitSink.taken ++ bs.take n, s.bitSink.answers.drop (n + 1), s.bitSink.rest⟩
          bitCount := s.bitCount + BitVec.ofNat 32 n }⟩ := by
  induction bs generalizing s n with
  | nil => simp at hn
  | cons b bs ih =>
    cases n with
    | zero =>
      rw [sendBits_refused_first hr]
      simp [bitCanAccept, canAccept_snd]
    | succ n =>
      have h0 := h 0 (by omega)
      rw [sendBits_taken_first h0, ih (n := n) (by simpa using hn)
        (fun j hj => by rw [answerAt_push]; exact h (j + 1) (by omega)) (by rw [answerAt_push]; exact hr)]
      simp only [bitPush_bitSink, bitPush_bitCount, bitCanAccept_bitSink, bitCanAccept_bitCount, canAccept_snd, Sink.push,
        Sent.mk.injEq, true_and]
      simp [bitPush, bitCanAccept, BitVec.ofNat_add, BitVec.add_assoc, BitVec.add_comm 1#32, Nat.add_comm]

end Sys2Proof.Machine
end

