-- ==== Sys2Proof/Laws/Step.lean ====
section
/-! SUPPORT. What a command, an iteration and a step can do, said once: the shape of exec, the frames of EncodeOne and DecodeOne, the cases of an iteration, and the cases of a step. -/

namespace Sys2Proof.Machine

/-! ### Commands -/

/-- The rule of a command once its phase is allowed. -/
def bodyOf : Instr → State → State
  | .clear => clearBody
  | .statFreq => startRun .stat
  | .buildFreq => buildFreqBody
  | .tableDecode => tableDecodeBody
  | .tableEncode => tableEncodeBody
  | .loadRef k => loadRefBody k
  | .buildAnchors => buildAnchorsBody
  | .encInit mode => encInitBody mode
  | .encStep sym => encStepBody sym
  | .encRun => startRun .enc
  | .encDone => encDoneBody
  | .decInit => decInitBody
  | .decStep => decStepBody
  | .decRun => startRun .dec
  | .decDone => decDoneBody

/-- Every command is its rule behind the phase check. -/
theorem exec_eq_guarded (i : Instr) (s : State) : exec i s = guarded i (bodyOf i) s := by
  cases i <;> rfl

theorem exec_of_phaseOk {i : Instr} {s : State} (h : phaseOk i s.phase = true) : exec i s = .next (bodyOf i s) := by
  rw [exec_eq_guarded, guarded, if_pos h]

theorem exec_of_not_phaseOk {i : Instr} {s : State} (h : phaseOk i s.phase = false) :
    exec i s = .next (finish .illegalState s) := by
  rw [exec_eq_guarded, guarded, if_neg (by simp [h])]

/-- A command is turned away by its phase or follows its rule. -/
theorem exec_cases {i : Instr} {s t : State} (h : exec i s = .next t) :
    (phaseOk i s.phase = true ∧ t = bodyOf i s) ∨ (phaseOk i s.phase = false ∧ t = finish .illegalState s) := by
  cases hp : phaseOk i s.phase
  · rw [exec_of_not_phaseOk hp] at h
    injection h with h
    exact .inr ⟨rfl, h.symm⟩
  · rw [exec_of_phaseOk hp] at h
    injection h with h
    exact .inl ⟨rfl, h.symm⟩

/-! ### EncodeOne and DecodeOne -/

/-- EncodeOne writes the bit sink, BITCOUNT and ENC_LAST_BITS alone (R149). -/
theorem encodeOne_frame (a : Symbol) (s : State) :
    (encodeOne a s).2 =
      { s with
        bitSink := (encodeOne a s).2.bitSink
        bitCount := (encodeOne a s).2.bitCount
        encLastBits := (encodeOne a s).2.encLastBits } := by
  unfold encodeOne
  split
  · rfl
  · dsimp only
    rw [sendBits_frame]
    rfl

/-- DecodeOne writes the bit source, DEC_SYMBOL and DEC_BITS alone (R168). -/
theorem decodeFrom_frame (fuel L cand : Nat) (s : State) :
    (decodeFrom fuel L cand s).2 =
      { s with
        bitSource := (decodeFrom fuel L cand s).2.bitSource
        decSym := (decodeFrom fuel L cand s).2.decSym
        decValid := (decodeFrom fuel L cand s).2.decValid
        decBits := (decodeFrom fuel L cand s).2.decBits } := by
  induction fuel generalizing L cand s with
  | zero => rfl
  | succ fuel ih =>
    unfold decodeFrom bitAvail
    dsimp only
    split
    · next h => simp only [Prod.mk.injEq] at h; obtain ⟨_, rfl⟩ := h; rfl
    · next h =>
      simp only [Prod.mk.injEq] at h
      obtain ⟨_, rfl⟩ := h
      split
      · split <;> rfl
      · exact ih _ _ _

theorem decodeOne_frame (s : State) :
    (decodeOne s).2 =
      { s with
        bitSource := (decodeOne s).2.bitSource
        decSym := (decodeOne s).2.decSym
        decValid := (decodeOne s).2.decValid
        decBits := (decodeOne s).2.decBits } :=
  decodeFrom_frame _ _ _ s

/-- One length of DecodeOne with a bit available (R168). -/
theorem decodeFrom_bit {fuel L cand : Nat} {s : State} {b : Bool} (h : s.bitSource.avail.1 = some b) :
    decodeFrom (fuel + 1) L cand s =
      if inRange s L (2 * cand + b.toNat) then
        if 256 ≤ (indexAt s L).toNat + (2 * cand + b.toNat - (firstAt s L).toNat) then
          (.preconditionViolated, decodeFailed L { s with bitSource := s.bitSource.after 1 1 })
        else
          (.ok, decodeGave L
            (tableValue s.packed ((indexAt s L).toNat + (2 * cand + b.toNat - (firstAt s L).toNat)))
            { s with bitSource := s.bitSource.after 1 1 })
      else decodeFrom fuel (L + 1) (2 * cand + b.toNat) { s with bitSource := s.bitSource.after 1 1 } := by
  have hs : bitPull { s with bitSource := s.bitSource.avail.2 } = { s with bitSource := s.bitSource.after 1 1 } := by
    simp [bitPull, avail_pull]
  simp only [decodeFrom, bitAvail, h, hs]
  rfl

/-- One length of DecodeOne with no bit available (R168). -/
theorem decodeFrom_dry {fuel L cand : Nat} {s : State} (h : s.bitSource.avail.1 = none) :
    decodeFrom (fuel + 1) L cand s =
      (.truncatedStream, decodeFailed (L - 1) { s with bitSource := s.bitSource.after 1 0 }) := by
  simp [decodeFrom, bitAvail, h, avail_snd]

/-! ### Iterations -/

/-- What a STAT_FREQ iteration does (R100). -/
theorem statIteration_cases (s : State) :
    statIteration s = finish .ok (symAvail s).2 ∨
    (∃ a, s.symSource.avail.1 = some a ∧ freqAt s a = 0xFFFFFFFF ∧
      statIteration s = finish .preconditionViolated (faultFreqOverflow (symPull (symAvail s).2))) ∨
    (∃ a, s.symSource.avail.1 = some a ∧ freqAt s a ≠ 0xFFFFFFFF ∧
      statIteration s = countSymbol (setFreq a (freqAt s a + 1) (symPull (symAvail s).2))) := by
  cases h : s.symSource.avail.1 with
  | none => exact .inl (by simp [statIteration, symAvail, h])
  | some a =>
    by_cases hf : freqAt s a = 0xFFFFFFFF
    · refine .inr (.inl ⟨a, rfl, hf, ?_⟩)
      have hf' : freqAt (symPull (symAvail s).2) a = 0xFFFFFFFF := hf
      simp only [symAvail] at hf'
      simp only [statIteration, symAvail, h, hf', if_true]
    · refine .inr (.inr ⟨a, rfl, hf, ?_⟩)
      have hf' : freqAt (symPull (symAvail s).2) a ≠ 0xFFFFFFFF := hf
      simp only [symAvail] at hf'
      simp only [statIteration, symAvail, h, hf', if_false]
      rfl

/-- What an ENC_RUN iteration does (R158). -/
theorem encIteration_cases (s : State) :
    encIteration s = finish .ok (symAvail s).2 ∨
    ∃ a, s.symSource.avail.1 = some a ∧
      encIteration s =
        if (encodeOne a (symPull (symAvail s).2)).1 = .ok then countSymbol (encodeOne a (symPull (symAvail s).2)).2
        else finish (encodeOne a (symPull (symAvail s).2)).1 (encodeOne a (symPull (symAvail s).2)).2 := by
  cases h : s.symSource.avail.1 with
  | none => exact .inl (by simp [encIteration, symAvail, h])
  | some a =>
    refine .inr ⟨a, rfl, ?_⟩
    simp only [encIteration, symAvail, h]
    generalize encodeOne a (symPull { s with symSource := s.symSource.avail.2 }) = r
    obtain ⟨st, u⟩ := r
    cases st <;> rfl

/-- What a DEC_RUN iteration does (R173). -/
theorem decIteration_cases (s : State) :
    decIteration s = finish .ok (bitAvail s).2 ∨
    decIteration s = finish .outputFull (symCanAccept (bitAvail s).2).2 ∨
    decIteration s =
      if (decodeOne (symCanAccept (bitAvail s).2).2).1 = .ok then
        countSymbol (symPush (decodeOne (symCanAccept (bitAvail s).2).2).2.decSym
          (decodeOne (symCanAccept (bitAvail s).2).2).2)
      else finish (decodeOne (symCanAccept (bitAvail s).2).2).1 (decodeOne (symCanAccept (bitAvail s).2).2).2 := by
  cases h : s.bitSource.avail.1 with
  | none => exact .inl (by simp [decIteration, bitAvail, h])
  | some b =>
    refine .inr ?_
    cases h2 : s.symSink.canAccept.1 with
    | false => exact .inl (by simp [decIteration, bitAvail, symCanAccept, h, h2])
    | true =>
      refine .inr ?_
      simp only [decIteration, bitAvail, symCanAccept, h, h2]
      generalize decodeOne _ = r
      obtain ⟨st, u⟩ := r
      cases st <;> rfl

/-! ### The bus -/

/-- A read changes FAULT.BAD_ACCESS at most (R55). -/
theorem busRead_state (width : Nat) (off : Offset) (s : State) :
    (busRead width off s).2 = s ∨ (busRead width off s).2 = faultBadAccess s := by
  unfold busRead
  split
  · split
    · exact .inr rfl
    · exact .inl rfl
  · exact .inr rfl

/-- A write to a place stores into FREQ or PACKED, is rejected, or, at CMD, is not here. -/
theorem writePlace_cases (v : Word) (s : State) (p : Place) :
    (∃ a, p = .freq a ∧ writePlace v s p = setFreq a v s) ∨
    (∃ w, p = .packed w ∧ writePlace v s p = setPacked (writePackedWord s.packed w v) s) ∨
    (p = .cmd ∧ writePlace v s p = s) ∨ writePlace v s p = faultBadAccess s := by
  cases p <;> simp [writePlace]

/-- The PACKED word of an offset is one of the 68 (R52). -/
theorem placeAt_packed_lt {off w : Nat} (h : placeAt off = .packed w) : w < 68 := by
  unfold placeAt at h
  split at h
  · split at h <;> cases h
  · split at h
    · cases h
    · split at h
      · cases h
      · split at h
        · injection h with h; omega
        · split at h
          · cases h
          · split at h
            · cases h
            · split at h <;> cases h

/-- CMD is at offset 0 (R52). -/
theorem placeAt_cmd {off : Nat} : placeAt off = .cmd ↔ off = 0 := by
  constructor
  · intro h
    unfold placeAt at h
    split at h
    · split at h <;> first | rfl | cases h
    · split at h
      · cases h
      · split at h
        · cases h
        · split at h
          · cases h
          · split at h
            · cases h
            · split at h
              · cases h
              · split at h <;> cases h
  · rintro rfl; rfl

/-- What the service of a write can be (R53, R54, R56). -/
theorem serveWrite_cases {width : Nat} {off : Offset} {v : Word} {s t : State}
    (h : serveWrite width off v s = .next t) :
    (busy s = true ∧ t = faultBusyWrite s) ∨
    (busy s = false ∧ t = faultBadAccess s) ∨
    (busy s = false ∧ width = 4 ∧ off = 0 ∧ issue v s = .next t) ∨
    (busy s = false ∧ ∃ a, placeAt off.toNat = .freq a ∧ t = setFreq a v s) ∨
    (busy s = false ∧ ∃ w, w < 68 ∧ placeAt off.toNat = .packed w ∧ t = setPacked (writePackedWord s.packed w v) s) := by
  unfold serveWrite at h
  split at h
  · next hb => injection h with h; exact .inl ⟨hb, h.symm⟩
  · next hb =>
    have hb' : busy s = false := by simpa using hb
    split at h
    · next hl =>
      split at h
      · next hc =>
        simp only [legalAccess, Bool.and_eq_true, beq_iff_eq] at hl
        exact .inr (.inr (.inl ⟨hb', hl.1, BitVec.eq_of_toNat_eq (placeAt_cmd.1 hc), h⟩))
      · next hc =>
        injection h with h
        rcases writePlace_cases v s (placeAt off.toNat) with ⟨a, hp, he⟩ | ⟨w, hp, he⟩ | ⟨hp, _⟩ | he
        · exact .inr (.inr (.inr (.inl ⟨hb', a, hp, by rw [← h, he]⟩)))
        · exact .inr (.inr (.inr (.inr ⟨hb', w, placeAt_packed_lt hp, hp, by rw [← h, he]⟩)))
        · exact absurd hp hc
        · exact .inr (.inl ⟨hb', by rw [← h, he]⟩)
    · injection h with h; exact .inr (.inl ⟨hb', h.symm⟩)

/-- What the issue of a word can be (R89). -/
theorem issue_cases {w : Word} {s t : State} (h : issue w s = .next t) :
    (∃ i, decode w = .ok i ∧ exec i (setLastOp w s) = .next t) ∨
    ((∃ e, decode w = .error e) ∧ t = finish .illegalCommand (setLastOp w s)) := by
  unfold issue at h
  split at h
  · next i hd => exact .inl ⟨i, hd, h⟩
  · next e hd => injection h with h; exact .inr ⟨⟨e, hd⟩, h.symm⟩

/-! ### Steps -/

theorem step_nil {s : State} (h : s.host = []) : step s = .next (iterate s) := by
  simp only [step, advance, h]

theorem step_cons {s : State} {e : Event} {rest : List Event} (h : s.host = e :: rest) :
    step s = serve e { s with host := rest } := by
  simp only [step, advance, h]

/-- Every case of a step: the block's own move, a read, a write, or reset. -/
theorem step_cases {s t : State} (h : step s = .next t) :
    (s.host = [] ∧ t = iterate s) ∨
    (∃ rest, s.host = .pass :: rest ∧ t = iterate { s with host := rest }) ∨
    (∃ rest, s.host = .poll :: rest ∧ busy s = true ∧ t = { iterate { s with host := rest } with host := .poll :: rest }) ∨
    (∃ rest, s.host = .poll :: rest ∧ busy s = false ∧ t = serveRead 4 0x004 { s with host := rest }) ∨
    (∃ rest width off, s.host = .read width off :: rest ∧ t = serveRead width off { s with host := rest }) ∨
    (∃ rest width off v, s.host = .write width off v :: rest ∧ serveWrite width off v { s with host := rest } = .next t) ∨
    (∃ rest, s.host = .reset :: rest ∧ t = resetBlock { s with host := rest }) := by
  cases hh : s.host with
  | nil =>
    rw [step_nil hh] at h
    injection h with h
    exact .inl ⟨rfl, h.symm⟩
  | cons e rest =>
    rw [step_cons hh] at h
    refine .inr ?_
    cases e with
    | read width off =>
      injection h with h
      exact .inr (.inr (.inr (.inl ⟨rest, width, off, rfl, h.symm⟩)))
    | write width off v => exact .inr (.inr (.inr (.inr (.inl ⟨rest, width, off, v, rfl, h⟩))))
    | poll =>
      injection h with h
      by_cases hb : busy s = true
      · exact .inr (.inl ⟨rest, rfl, hb, by
          rw [← h, if_pos (show busy { s with host := rest } = true from hb)]⟩)
      · have hb' : busy s = false := by simpa using hb
        exact .inr (.inr (.inl ⟨rest, rfl, hb', by
          rw [← h, if_neg (show ¬ busy { s with host := rest } = true from hb)]⟩))
    | pass =>
      injection h with h
      exact .inl ⟨rest, rfl, h.symm⟩
    | reset =>
      injection h with h
      exact .inr (.inr (.inr (.inr (.inr ⟨rest, rfl, h.symm⟩))))

end Sys2Proof.Machine
end

