-- ==== Sys2Proof/Laws/Bits.lean ====
section
/-! SUPPORT. Bits as numbers and back, codewords, and DecodeOne over bits that match at no length. -/

namespace Sys2Proof.Machine

theorem bitsValue_concat (bs : List Bool) (b : Bool) : bitsValue (bs ++ [b]) = 2 * bitsValue bs + b.toNat := by
  simp [bitsValue]

@[simp] theorem length_msbFirst (n v : Nat) : (msbFirst n v).length = n := by simp [msbFirst]

/-- The codeword of an entry is the depth low bits of its code, most significant first (R78). -/
theorem codeword_entryAt (s : State) (a : Symbol) : codeword (entryAt s a) = msbFirst (depthOf s a) (codeOf s a) := by
  simp [codeword, msbFirst, depthOf, codeOf, BitVec.getLsbD]

/-- One more bit at the most significant end. -/
theorem msbFirst_succ (n v : Nat) : msbFirst (n + 1) v = v.testBit n :: msbFirst n v := by
  simp only [msbFirst, List.range_succ_eq_map, List.map_cons, List.map_map]
  congr 1
  refine List.map_congr_left fun t _ => ?_
  simp only [Function.comp_apply]
  congr 1
  omega

/-- One more bit at the least significant end. -/
theorem msbFirst_concat (n v : Nat) : msbFirst (n + 1) v = msbFirst n (v / 2) ++ [v.testBit 0] := by
  simp only [msbFirst, List.range_succ, List.map_append, List.map_cons, List.map_nil]
  congr 1
  · refine List.map_congr_left fun t ht => ?_
    rw [List.mem_range] at ht
    rw [Nat.testBit_div_two]
    congr 1
    omega
  · simp

/-- The `n` low bits of a number spell it modulo 2^n. -/
theorem bitsValue_msbFirst (n v : Nat) : bitsValue (msbFirst n v) = v % 2 ^ n := by
  induction n generalizing v with
  | zero => simp [msbFirst, bitsValue, Nat.mod_one]
  | succ n ih =>
    rw [msbFirst_concat, bitsValue_concat, ih, Nat.testBit_zero]
    have hm : v % 2 ^ (n + 1) = v % 2 + 2 * (v / 2 % 2 ^ n) := by
      rw [Nat.pow_succ, Nat.mul_comm, Nat.mod_mul]
    rcases Nat.mod_two_eq_zero_or_one v with h | h <;> simp [hm, h]
    omega

theorem answersYes_after {α : Type} {p : Source α} {n a : Nat} (k : Nat) (h : p.answersYes (a + n)) :
    (p.after a k).answersYes n := by
  intro t ht
  have := h (a + t) (by omega)
  simpa [Source.after] using this

theorem answersYes_mono {α : Type} {p : Source α} {n m : Nat} (hm : m ≤ n) (h : p.answersYes n) : p.answersYes m :=
  fun t ht => h t (by omega)

/-- DecodeOne over bits that match at none of their lengths takes them all and goes on (R168); `pre` are the bits before. -/
theorem decodeFrom_no_match {fuel : Nat} {s : State} {bs : List Bool} (pre : List Bool)
    (hd : s.bitSource.delivers bs) (hy : s.bitSource.answersYes bs.length)
    (hno : ∀ j, 1 ≤ j → j ≤ bs.length → inRange s (pre.length + j) (bitsValue (pre ++ bs.take j)) = false) :
    decodeFrom (fuel + bs.length) (pre.length + 1) (bitsValue pre) s =
      decodeFrom fuel (pre.length + bs.length + 1) (bitsValue (pre ++ bs))
        { s with bitSource := s.bitSource.after bs.length bs.length } := by
  induction bs generalizing pre s with
  | nil => simp [Source.after]
  | cons b bs ih =>
    have h0 : s.bitSource.avail.1 = some b := by
      rw [avail_of_yes (answersYes_mono (by simp) hy), hd 0 (by simp)]; rfl
    have h1 := hno 1 (by omega) (by simp)
    have hstep := decodeFrom_bit (fuel := fuel + bs.length) (L := pre.length + 1) (cand := bitsValue pre) h0
    simp only [List.take_succ_cons, List.take_zero, bitsValue_concat] at h1
    rw [h1] at hstep
    simp only [Bool.false_eq_true, if_false] at hstep
    rw [List.length_cons, ← Nat.add_assoc, hstep, ← bitsValue_concat]
    have hrec := ih (s := { s with bitSource := s.bitSource.after 1 1 }) (pre ++ [b])
      (by intro n hn; have := hd (n + 1) (by simpa using hn); simpa [Nat.add_comm] using this)
      (answersYes_after 1 (by rw [Nat.add_comm]; exact hy))
      (by
        intro j h1 h2
        have := hno (j + 1) (by omega) (by simpa using h2)
        rw [List.take_succ_cons] at this
        rw [List.length_append, List.length_singleton, List.append_assoc, List.singleton_append, Nat.add_assoc,
          Nat.add_comm 1 j]
        exact this)
    simp only [List.length_append, List.length_singleton, List.append_assoc, List.singleton_append] at hrec
    rw [hrec]
    simp [after_after, Nat.add_comm, Nat.add_left_comm]

end Sys2Proof.Machine
end

