-- ==== Sys2Proof/Laws/PerInstr.lean ====
section
/-! SUPPORT. Facts about every command as syntax, one lemma per constructor: where the fields of its word stand (spec/30_encoding.md R70). -/

namespace Sys2Proof

theorem toNat_of_fields (a o : BitVec 8) : BitVec.toNat (w := 32) (0#16 ++ (a ++ o)) = a.toNat * 256 + o.toNat := by
  have h := o.isLt
  rw [BitVec.toNat_append, BitVec.toNat_append, ← Nat.shiftLeft_add_eq_or_of_lt h]
  simp [Nat.shiftLeft_eq]

theorem wordOp_of_fields (a o : BitVec 8) : wordOp (0#16 ++ (a ++ o)) = o := by
  have h := o.isLt
  apply BitVec.eq_of_toNat_eq
  rw [wordOp, BitVec.extractLsb'_toNat, toNat_of_fields]
  simp only [Nat.shiftRight_zero]
  omega

theorem wordArg_of_fields (a o : BitVec 8) : wordArg (0#16 ++ (a ++ o)) = a := by
  have h := o.isLt
  have h' := a.isLt
  apply BitVec.eq_of_toNat_eq
  rw [wordArg, BitVec.extractLsb'_toNat, toNat_of_fields, Nat.shiftRight_eq_div_pow]
  omega

theorem wordRsv_of_fields (a o : BitVec 8) : wordRsv (0#16 ++ (a ++ o)) = 0 := by
  have h := o.isLt
  have h' := a.isLt
  apply BitVec.eq_of_toNat_eq
  rw [wordRsv, BitVec.extractLsb'_toNat, toNat_of_fields, Nat.shiftRight_eq_div_pow]
  simp
  omega

/-- The three fields of a command's word. -/
theorem encode_fields (i : Instr) :
    wordOp (encode i) = opcode i ∧ wordArg (encode i) = argument i ∧ wordRsv (encode i) = 0 :=
  ⟨wordOp_of_fields _ _, wordArg_of_fields _ _, wordRsv_of_fields _ _⟩

namespace Laws.EncodedFields

/-- A command's word has its opcode in OP, its operand in ARG and 0 in RSV. -/
def Statement (i : Instr) : Prop :=
  wordOp (encode i) = opcode i ∧ wordArg (encode i) = argument i ∧ wordRsv (encode i) = 0

theorem clear : Statement .clear := encode_fields _
theorem statFreq : Statement .statFreq := encode_fields _
theorem buildFreq : Statement .buildFreq := encode_fields _
theorem tableDecode : Statement .tableDecode := encode_fields _
theorem tableEncode : Statement .tableEncode := encode_fields _
theorem loadRef (k : BitVec 8) : Statement (.loadRef k) := encode_fields _
theorem buildAnchors : Statement .buildAnchors := encode_fields _
theorem encInit (mode : BitVec 8) : Statement (.encInit mode) := encode_fields _
theorem encStep (sym : Symbol) : Statement (.encStep sym) := encode_fields _
theorem encRun : Statement .encRun := encode_fields _
theorem encDone : Statement .encDone := encode_fields _
theorem decInit : Statement .decInit := encode_fields _
theorem decStep : Statement .decStep := encode_fields _
theorem decRun : Statement .decRun := encode_fields _
theorem decDone : Statement .decDone := encode_fields _

end Laws.EncodedFields

end Sys2Proof
end

