-- ==== Sys2Proof/Machine/Assembler.lean ====
section
/-! DEFINITION. The host-program notation of spec/30_encoding.md R75 and R76: a line of text to the bus actions it stands for. It is how a program comes to stand in `State.host`; the block itself reads no text. -/

namespace Sys2Proof.Machine

/-- The sixteen digits in order. A hexadecimal digit above 9 may be of either case (log entry 14). -/
def digits : List Char := "0123456789abcdef".toList

/-- One more digit of a number in a base, `n` being the number its digits spell so far. -/
def withDigit (base n : Nat) (c : Char) : Option Nat :=
  (digits.take base).findIdx? (· == c.toLower) |>.map (base * n + ·)

/-- The number that digits of a base spell. -/
def numberIn (base : Nat) (cs : List Char) : Option Nat := cs.foldlM (withDigit base) 0

/-- "a decimal number or a 0x-hex number" (R75). -/
def numberOf : List Char → Option Nat
  | [] => none
  | ['0', 'x'] => none
  | '0' :: 'x' :: cs => numberIn 16 cs
  | cs => numberIn 10 cs

/-- The mnemonics of R72 whose ARG must be 0, with their opcodes. -/
def plainMnemonics : List (String × Nat) :=
  [("CLEAR", 0x01), ("STAT_FREQ", 0x02), ("BUILD_FREQ", 0x03), ("TABLE_DECODE", 0x04), ("TABLE_ENCODE", 0x05),
   ("BUILD_ANCHORS", 0x07), ("ENC_RUN", 0x12), ("ENC_DONE", 0x13)] ++
  [("DEC_INIT", 0x20), ("DEC_STEP", 0x21), ("DEC_RUN", 0x22), ("DEC_DONE", 0x23)]

/-- The mnemonics of R72 that have an operand, with their opcodes. -/
def operandMnemonics : List (String × Nat) := [("LOAD_REF", 0x06), ("ENC_INIT", 0x10), ("ENC_STEP", 0x11)]

/-- The pseudo-commands of R76, with their words. -/
def pseudoCommands : List (String × Word) :=
  [("ENC_INIT.FREQ", 0x00000010), ("ENC_INIT.TABLE", 0x00000110), ("LOAD_REF.LAC", 0x00000006),
   ("LOAD_REF.LDC", 0x00000106), ("LOAD_REF.CAC", 0x00000206), ("LOAD_REF.CDC", 0x00000306)]

/-- What a name stands for in a list. -/
def named {α : Type} (l : List (String × α)) (cs : List Char) : Option α :=
  (l.find? fun p => p.1.toList == cs).map (·.2)

/-- `(a << 8) | OP(M)` (R75), for an operand of ARG's 8 bits; a larger number has no word (log entry 14). -/
def commandWord (op a : Nat) : Option Word :=
  if a < 256 then some (BitVec.ofNat 32 ((a <<< 8) ||| op)) else none

/-- A line's words, up to its comment (R75), which may stand after an action too; a space or a comma ends a word, and
nothing asks for the comma of `WR` (DESIGN CHOICE, log entry 14). `cur` is the word so far, last character first. -/
def tokensFrom : List Char → List Char → List (List Char)
  | [], cur => if cur = [] then [] else [cur.reverse]
  | c :: cs, cur =>
    if c = ';' then (if cur = [] then [] else [cur.reverse])
    else if c = ' ' ∨ c = ',' then (if cur = [] then tokensFrom cs [] else cur.reverse :: tokensFrom cs [])
    else tokensFrom cs (c :: cur)

/-- A window offset (12 bits, R46); a larger number is none (log entry 14). -/
def offsetOf (cs : List Char) : Option Offset :=
  match numberOf cs with
  | some n => if n < 4096 then some (BitVec.ofNat 12 n) else none
  | none => none

/-- A bus value (32 bits, R47); a larger number is none (log entry 14). -/
def valueOf (cs : List Char) : Option Word :=
  match numberOf cs with
  | some n => if n < 2 ^ 32 then some (BitVec.ofNat 32 n) else none
  | none => none

/-- The word of `CMD <MNEMONIC>` or of a pseudo-command: the operand "is omitted when it must be 0" (R75), so LOAD_REF,
ENC_INIT and ENC_STEP are not written without one (DESIGN CHOICE, log entry 14). -/
def wordWithoutOperand (name : List Char) : Option Word :=
  match named pseudoCommands name with
  | some w => some w
  | none => (named plainMnemonics name).bind (commandWord · 0)

/-- The word of `CMD <MNEMONIC> <arg>` (R75), an explicit operand of a mnemonic that must have 0 among them, as V39's
0x00000101 needs; a pseudo-command has no operand (R76; DESIGN CHOICE, log entry 14). -/
def wordWithOperand (name arg : List Char) : Option Word :=
  match named (plainMnemonics ++ operandMnemonics) name, numberOf arg with
  | some op, some a => commandWord op a
  | _, _ => none

/-- The bus action of a command line: its word is written to CMD. -/
def commandEvent (w : Word) : Event := .write 4 0x000 w

/-- The commands `RUN` may name (R76). -/
def runNames : List String := ["STAT_FREQ", "ENC_RUN", "DEC_RUN"]

/-- The bus actions of one line's words (R75, R76). A line without words, be it R75's comment or a blank line, has none:
R75 gives no blank line, and taking it as a line without an action is a DESIGN CHOICE (log entry 14). -/
def lineEvents : List (List Char) → Option (List Event)
  | [] => some []
  | [k] => if k = "POLL".toList then some [.poll] else none
  | [k, x] =>
    if k = "CMD".toList then (wordWithoutOperand x).map fun w => [commandEvent w]
    else if k = "RD".toList then (offsetOf x).map fun off => [.read 4 off]
    else if k = "RUN".toList ∧ x ∈ runNames.map String.toList then
      (wordWithoutOperand x).map fun w => [commandEvent w, .poll]
    else none
  | [k, x, y] =>
    if k = "CMD".toList then (wordWithOperand x y).map fun w => [commandEvent w]
    else if k = "WR".toList then
      match offsetOf x, valueOf y with
      | some off, some v => some [.write 4 off v]
      | _, _ => none
    else none
  | _ => none

/-- A program, one bus action per line (R75), where a blank or comment line has no action and a program may have no
lines; nothing when some line is not of the syntax (DESIGN CHOICE, log entry 14). -/
def assemble : List String → Option (List Event)
  | [] => some []
  | l :: ls =>
    match lineEvents (tokensFrom l.toList []), assemble ls with
    | some es, some rest => some (es ++ rest)
    | _, _ => none

end Sys2Proof.Machine
end

