-- ==== Sys2Proof/Tests/Slice0.lean ====
section
/-! SUPPORT. Tests of the model: words written out from spec/30_encoding.md, one step of each command against spec/95_test_vectors.md (each names its vector), and, for every obligation with hypotheses, a state and operands that meet them. -/

namespace Sys2Proof.Tests

open Sys2Proof.Machine

-- One kernel evaluation at a time: many at once would need a thread and its stack each.
set_option Elab.async false

/-! ### Words (spec/30_encoding.md R70 to R76) -/

theorem test_wellFormed_refuses_loadRef_4 : (Instr.loadRef 4).wellFormed = false := by decide

theorem test_wellFormed_refuses_encInit_2 : (Instr.encInit 2).wellFormed = false := by decide

theorem test_wellFormed_takes_the_last_operands :
    (Instr.loadRef 3).wellFormed = true ∧ (Instr.encInit 1).wellFormed = true ∧ (Instr.encStep 255).wellFormed = true := by
  decide

theorem test_decode_builder_words :
    decode 0x00000001 = .ok .clear ∧ decode 0x00000002 = .ok .statFreq ∧ decode 0x00000003 = .ok .buildFreq := by decide

theorem test_decode_table_words :
    decode 0x00000004 = .ok .tableDecode ∧ decode 0x00000005 = .ok .tableEncode ∧ decode 0x00000206 = .ok (.loadRef 2) ∧
    decode 0x00000007 = .ok .buildAnchors := by decide

theorem test_decode_encoder_words :
    decode 0x00000110 = .ok (.encInit 1) ∧ decode 0x0000FF11 = .ok (.encStep 0xFF) ∧ decode 0x00000012 = .ok .encRun ∧
    decode 0x00000013 = .ok .encDone := by decide

theorem test_decode_decoder_words :
    decode 0x00000020 = .ok .decInit ∧ decode 0x00000021 = .ok .decStep ∧ decode 0x00000022 = .ok .decRun ∧
    decode 0x00000023 = .ok .decDone := by decide

theorem test_encode_words :
    encode (.encStep 0x41) = 0x00004111 ∧ encode (.loadRef 3) = 0x00000306 ∧ encode .decDone = 0x00000023 := by decide

/-- V39, with the reason of each. -/
theorem test_illegal_words :
    decode 0x00000000 = .error .unknownOpcode ∧ decode 0x00000014 = .error .unknownOpcode ∧
    decode 0x00010001 = .error .reservedBits ∧ decode 0x00000101 = .error .argumentOutOfRange ∧
    decode 0x00000210 = .error .argumentOutOfRange ∧ decode 0x00000406 = .error .argumentOutOfRange ∧
    decode 0x00010011 = .error .reservedBits ∧ decode 0x00000421 = .error .argumentOutOfRange := by decide

theorem test_decodeTableWord :
    decodeTableWord 32 0x00000511 = some (.encStep 5) ∧ decodeTableWord 32 0x00000008 = none ∧
    decodeTableWord 64 0x100000001 = none := by decide

/-- R75, R76: lines of P1, P2 and P5. -/
theorem test_assemble :
    assemble ["CMD ENC_INIT.TABLE", "CMD ENC_STEP 11 ; one symbol", "WR 0x40C, 3", "RD 0xC10", "RUN ENC_RUN", ""] =
      some [.write 4 0x000 0x00000110, .write 4 0x000 0x00000B11, .write 4 0x40C 3, .read 4 0xC10,
        .write 4 0x000 0x00000012, .poll] := by decide +kernel

/-- Lines R75 and R76 do not give (log entry 14), and V39's word with an operand that must be 0. -/
theorem test_assemble_rejects :
    assemble ["CMD ENC_STEP 256"] = none ∧ assemble ["RUN CLEAR"] = none ∧ assemble ["CMD LOAD_REF.LAC 2"] = none ∧
    assemble ["CMD ENC_STEP"] = none ∧ assemble ["; a comment", "", "POLL"] = some [.poll] ∧
    assemble ["CMD CLEAR 1"] = some [.write 4 0x000 0x00000101] := by decide +kernel

/-! ### States the tests start from -/

/-- The state a command or a step goes to. -/
def nextOf : Result → State
  | .next t => t
  | .fault e => nomatch e
  | .refused _ => State.reset

def run1 (i : Instr) (s : State) : State := nextOf (exec i s)

/-- The code entries of symbols 3, 5, 7 and 12 are V1's. -/
def hasV1Codes (t : State) : Bool :=
  entryAt t 3 == ⟨1, 0⟩ && entryAt t 5 == ⟨2, 2⟩ && entryAt t 7 == ⟨3, 6⟩ && entryAt t 12 == ⟨0, 0⟩

def zeros (n : Nat) : List Byte := List.replicate n 0

/-- V1's frequencies. -/
def freqs : State := setFreq 3 3 (setFreq 5 2 (setFreq 7 1 State.reset))

/-- V1's code entries. -/
def coded : State := setEntries (entriesOf [⟨3, 1, 0⟩, ⟨5, 2, 2⟩, ⟨7, 3, 6⟩]) State.reset

/-- V1's code entries in an encode pass. -/
def encoding : State := { coded with phase := .encActive }

/-- The scenario table. -/
def scenario : State := { State.reset with packed := memoryOf ([1, 1, 1] ++ zeros 13 ++ [3, 5, 7]) }

/-- The scenario table and V1's anchors in a decode pass. -/
def decoding : State :=
  { scenario with
    phase := .decActive
    first := #v[0, 2, 6, 14, 28, 56, 112, 224, 448, 896, 1792, 3584, 7168, 14336, 28672, 57344]
    index := #v[0, 1, 2, 3, 3, 3, 3, 3, 3, 3, 3, 3, 3, 3, 3, 3] }

/-- V18's table: the scenario table with junk past its values. -/
def junkTable : State :=
  { State.reset with packed := memoryOf ([1, 1, 1] ++ zeros 13 ++ [3, 5, 7, 0xAA] ++ zeros 251 ++ [0x55]) }

/-- V19's fifth table, invalid by V4. -/
def fullTable : State := { coded with packed := memoryOf ([2] ++ zeros 15 ++ [1, 2]) }

/-- V19's first table, invalid by V1: 257 codes. -/
def overfullTable : State := { coded with packed := memoryOf (zeros 7 ++ [255, 2]) }

def sourceOf {α : Type} (l : List α) : Source α := ⟨l, none, []⟩

/-- A bit sink that takes `n` bits and then refuses. -/
def roomFor (n : Nat) : Sink Bool := ⟨[], List.replicate n true, false⟩

/-! ### Commands -/

/-- V42. -/
theorem test_clear :
    let t := run1 .clear { decoding with fault := ⟨true, false, false⟩, entry := coded.entry, count := 6 }
    t.code = .ok ∧ t.phase = .idle ∧ t.count = 0 ∧ t.packed = [] ∧ t.first = State.reset.first ∧
    entryAt t 5 = ⟨0, 0⟩ ∧ t.fault = ⟨true, false, false⟩ := by decide +kernel

/-- V13: between iterations of the run STATUS reads 0x00000210 and COUNT shows the live count. -/
theorem test_statFreq_iteration :
    let t := nextOf (step { run1 .statFreq { State.reset with lastOp := 0x02 } with symSource := sourceOf [3, 3] })
    statusWord t = 0x00000210 ∧ t.count = 1 ∧ freqAt t 3 = 1 ∧ t.symSource.items = [3] := by decide +kernel

/-- V14, second iteration: the counter at 2^32 − 1 stays, and the symbol is consumed. -/
theorem test_statFreq_overflow :
    let s := setFreq 9 0xFFFFFFFF { State.reset with lastOp := 0x02, runKind := .stat, count := 1, symSource := sourceOf [9, 2] }
    let t := nextOf (step s)
    statusWord t = 0x00000208 ∧ faultWord t = 0x00000004 ∧ freqAt t 9 = 0xFFFFFFFF ∧ t.count = 1 ∧
    t.symSource.items = [2] := by decide +kernel

/-- V1. -/
theorem test_buildFreq_scenario :
    let t := run1 .buildFreq freqs
    t.code = .ok ∧ hasV1Codes t = true := by decide +kernel

/-- V6, the deepest codes: the length limit and the withheld code point. -/
theorem test_buildFreq_limited :
    let t := run1 .buildFreq ((List.range 20).foldl (fun s i => setFreq (BitVec.ofNat 8 i) (BitVec.ofNat 32 (2 ^ i)) s) State.reset)
    entryAt t 7 = ⟨13, 0x1FFE⟩ ∧ entryAt t 0 = ⟨16, 0xFFF8⟩ ∧ entryAt t 6 = ⟨16, 0xFFFE⟩ := by decide +kernel

/-- V18. -/
theorem test_tableDecode_ignores_junk :
    let t := run1 .tableDecode junkTable
    t.code = .ok ∧ hasV1Codes t = true := by decide +kernel

/-- V19, fifth row. -/
theorem test_tableDecode_refuses_all_ones :
    let t := run1 .tableDecode fullTable
    t.code = .preconditionViolated ∧ hasV1Codes t = true := by decide +kernel

/-- V17, and V18's last sentence: the bytes past the values are written 0. -/
theorem test_tableEncode :
    let t := run1 .tableEncode { junkTable with entry := coded.entry }
    t.code = .ok ∧ packedWord t.packed 0 = 0x00010101 ∧ packedWord t.packed 4 = 0x00070503 ∧
    packedWord t.packed 67 = 0 := by decide +kernel

/-- V21, the two AC tables. -/
theorem test_loadRef_AC :
    let t := run1 (.loadRef 0) State.reset
    let u := run1 (.loadRef 2) State.reset
    packedWord t.packed 0 = 0x03010200 ∧ packedWord t.packed 3 = 0x7D010000 ∧ packedWord t.packed 5 = 0x12051104 ∧
    packedWord u.packed 1 = 0x04030404 ∧ packedWord u.packed 3 = 0x77020100 ∧ packedWord u.packed 5 = 0x21050411 := by
  decide +kernel

/-- V21, the two DC tables. -/
theorem test_loadRef_DC :
    let t := run1 (.loadRef 1) junkTable
    let u := run1 (.loadRef 3) junkTable
    packedWord t.packed 0 = 0x01050100 ∧ packedWord t.packed 2 = 0x00000001 ∧ packedWord t.packed 6 = 0x0B0A0908 ∧
    packedWord t.packed 67 = 0 ∧ packedWord u.packed 0 = 0x01010300 ∧ packedWord u.packed 2 = 0x00010101 := by
  decide +kernel

/-- V23, first point. -/
theorem test_buildAnchors_scenario :
    let t := run1 .buildAnchors scenario
    t.first = decoding.first ∧ t.index = decoding.index := by decide +kernel

/-- V23, third point: no check, no wrap. -/
theorem test_buildAnchors_unchecked :
    let t := run1 .buildAnchors { State.reset with packed := memoryOf (List.replicate 16 255) }
    t.code = .ok ∧ firstAt t 16 = 16711170 ∧ indexAt t 16 = 3825 := by decide +kernel

/-- V24. -/
theorem test_encInit_both_modes :
    let t := run1 (.encInit 0) { freqs with count := 9, bitCount := 9, encLastBits := 9 }
    let u := run1 (.encInit 1) scenario
    hasV1Codes t = true ∧ t.phase = .encActive ∧ t.count = 0 ∧ t.bitCount = 0 ∧ t.encLastBits = 0 ∧
    hasV1Codes u = true ∧ u.phase = .encActive := by decide +kernel

/-- V24, third point. -/
theorem test_encInit_refuses_an_invalid_table :
    let t := run1 (.encInit 1) { fullTable with phase := .decActive }
    t.code = .preconditionViolated ∧ t.phase = .idle ∧ hasV1Codes t = true := by decide +kernel

/-- V25. -/
theorem test_encStep :
    let t := run1 (.encStep 7) (run1 (.encStep 5) { encoding with lastOp := 0x11 })
    statusWord t = 0x00001100 ∧ t.bitSink.taken = [true, false, true, true, false] ∧ t.bitCount = 5 ∧ t.encLastBits = 3 ∧
    t.count = 0 := by decide +kernel

/-- V26 and V27. -/
theorem test_encStep_stops :
    let t := run1 (.encStep 7) { encoding with bitSink := roomFor 1, lastOp := 0x11 }
    let u := run1 (.encStep 12) { encoding with bitSink := roomFor 0, lastOp := 0x11, encLastBits := 3 }
    statusWord t = 0x00001105 ∧ t.bitSink.taken = [true] ∧ t.bitCount = 1 ∧ t.encLastBits = 1 ∧
    statusWord u = 0x00001102 ∧ u.encLastBits = 0 ∧ u.phase = .encActive := by decide +kernel

/-- V28, last row: its fourth iteration. -/
theorem test_encRun_iteration :
    let t := nextOf (step { run1 .encRun encoding with symSource := sourceOf [5, 5, 7], bitSink := roomFor 1, count := 3 })
    t.code = .outputFull ∧ t.count = 3 ∧ t.encLastBits = 1 ∧ t.bitSink.taken = [true] ∧ t.symSource.items = [5, 7] ∧
    busy t = false := by decide +kernel

/-- V29. -/
theorem test_encDone :
    let t := run1 .encDone { encoding with bitCount := 10, lastOp := 0x13 }
    statusWord t = 0x00001300 ∧ t.bitSink.taken = List.replicate 6 true ∧ t.bitCount = 16 ∧ t.phase = .encDone := by
  decide +kernel

/-- V29, the sink with room for 2 bits. -/
theorem test_encDone_resumes :
    let t := run1 .encDone { encoding with bitCount := 10, bitSink := roomFor 2 }
    t.code = .outputFull ∧ t.bitCount = 12 ∧ t.phase = .encActive ∧ t.bitSink.taken = [true, true] := by decide +kernel

/-- V37, first point. -/
theorem test_decInit :
    let t := run1 .decInit { scenario with lastOp := 0x20, decValid := true, decBits := 3, count := 2 }
    statusWord t = 0x00002000 ∧ t.first = decoding.first ∧ t.index = decoding.index ∧ t.phase = .decActive ∧
    t.decValid = false ∧ t.decBits = 0 ∧ t.count = 0 := by decide +kernel

/-- V37, second point. -/
theorem test_decInit_refuses_257_codes :
    let t := run1 .decInit { overfullTable with lastOp := 0x20, first := decoding.first }
    statusWord t = 0x00002008 ∧ t.phase = .idle ∧ t.first = decoding.first := by decide +kernel

/-- V31, V32 and V33 on the scenario table. -/
theorem test_decStep :
    let t := run1 .decStep { decoding with bitSource := sourceOf [true, true, false, true] }
    let u := run1 .decStep { decoding with bitSource := sourceOf [true, true], decSym := 9, decValid := true }
    let v := run1 .decStep { decoding with bitSource := sourceOf (List.replicate 17 true) }
    decSymbolWord t = 0x00000107 ∧ t.decBits = 3 ∧ t.bitSource.items = [true] ∧
    u.code = .truncatedStream ∧ decSymbolWord u = 0x00000009 ∧ u.decBits = 2 ∧
    v.code = .corruptTable ∧ v.decBits = 16 ∧ v.bitSource.items = [true] := by decide +kernel

/-- V38: the anchors are the latched ones and the counts the live ones. -/
theorem test_decStep_changed_table :
    let s := { decoding with packed := writePackedWord decoding.packed 3 0xFF000000 }
    let t := run1 .decStep { s with bitSource := sourceOf (msbFirst 16 0xE0FD) }
    let u := run1 .decStep { s with bitSource := sourceOf (msbFirst 16 0xE0FC) }
    t.code = .preconditionViolated ∧ t.decBits = 16 ∧ t.decValid = false ∧
    u.code = .ok ∧ decSymbolWord u = 0x00000100 := by decide +kernel

/-- V36: a refusing sink stops the run before a bit is taken; an empty source ends it first. -/
theorem test_decRun_iteration :
    let s := { run1 .decRun decoding with symSink := ⟨[3, 3], [], false⟩, count := 2 }
    let t := nextOf (step { s with bitSource := sourceOf [false, true] })
    let u := nextOf (step s)
    t.code = .outputFull ∧ t.count = 2 ∧ t.bitSource.items = [false, true] ∧ u.code = .ok ∧ busy u = false := by
  decide +kernel

/-- V40's last point. -/
theorem test_decDone_twice :
    let t := run1 .decDone (run1 .decDone decoding)
    t.code = .ok ∧ t.phase = .decDone := by decide +kernel

/-- V40. -/
theorem test_commands_outside_their_phase :
    (run1 (.encStep 3) coded).code = .illegalState ∧ (run1 .encDone coded).code = .illegalState ∧
    (run1 .decDone encoding).code = .illegalState ∧ (run1 .encRun { coded with phase := .encDone }).code = .illegalState ∧
    (run1 .decRun { coded with phase := .decDone }).code = .illegalState := by decide +kernel

/-! ### The bus and the step -/

/-- V43. ENTRY[255] is at 0xBFC by R52 (log entry 7). -/
theorem test_reads :
    (busRead 4 0x024 State.reset).1 = 0x48554637 ∧ (busRead 4 0xBFC State.reset).1 = 0xFF ∧
    faultWord (busRead 4 0x000 State.reset).2 = 0 ∧ faultWord (busRead 4 0x002 State.reset).2 = 2 ∧
    faultWord (busRead 2 0x024 State.reset).2 = 2 ∧ faultWord (busRead 4 0xD10 State.reset).2 = 2 := by decide +kernel

/-- V43. -/
theorem test_writes :
    let t := nextOf (step { State.reset with host := [.write 4 0x40C 7] })
    let u := nextOf (step { State.reset with host := [.write 4 0xC00 0x01050100] })
    let v := nextOf (step { State.reset with host := [.write 4 0x008 3] })
    freqAt t 3 = 7 ∧ (List.range 4).map (readByte u.packed) = [0x00, 0x01, 0x05, 0x01] ∧ v.phase = .idle ∧
    faultWord v = 2 := by decide +kernel

/-- V41. -/
theorem test_write_while_busy :
    let t := nextOf (step { run1 .statFreq { State.reset with lastOp := 0x02 } with host := [.write 4 0x000 0x00000001] })
    faultWord t = 1 ∧ t.lastOp = 0x02 ∧ busy t = true := by decide +kernel

/-- V39, last row: an illegal word wins over the phase. -/
theorem test_illegal_word_in_idle :
    statusWord (nextOf (step { State.reset with host := [.write 4 0x000 0x00000421] })) = 0x00002106 := by decide +kernel

/-- P1's first line, placed by `withFetchWord`. -/
theorem test_withFetchWord :
    statusWord (nextOf (step (State.reset.withFetchWord 32 0x00000001))) = 0x00000100 := by decide +kernel

/-- V44: reset in the middle of a run. -/
theorem test_reset_abandons_a_run :
    let t := nextOf (step { run1 .decRun decoding with host := [.reset], bitSource := sourceOf [true] })
    statusWord t = 0 ∧ t.phase = .idle ∧ t.packed = [] ∧ t.bitSource.items = [true] := by decide +kernel

/-! ### Witnesses: for each obligation with hypotheses, a state and operands that meet them -/

/-- The state `s` with `e` as the only thing the host will do. -/
def hostDoes (e : Event) (s : State) : State := { s with host := [e] }

theorem test_witness_DecodeOfEncodeIsTheCommand :
    (Instr.loadRef 3).wellFormed = true ∧ (Instr.encInit 1).wellFormed = true ∧ (Instr.encStep 0).wellFormed = true := by
  decide

theorem test_witness_EncodeOfDecodeIsTheWord : decode 0x0000FF11 = .ok (.encStep 0xFF) := by decide

theorem test_witness_LegalWordsAreTheOpcodeRows :
    decode 0x00000306 = .ok (.loadRef 3) ∧
    (⟨"LOAD_REF", 0x00000006, 0xFFFFFCFF⟩ : OpcodeRow) ∈ opcodeRows ∧
    rowMatches ⟨"LOAD_REF", 0x00000006, 0xFFFFFCFF⟩ 0x00000306 = true := by decide

/-- One word for each clause, at the edge of its range. -/
theorem test_witness_IllegalWordsAndTheirReasons :
    wordRsv 0x00010001 ≠ 0 ∧
    (wordRsv 0x00000008 = 0 ∧ wordOp 0x00000008 ∉ [0x01#8, 0x02#8, 0x03#8, 0x04#8, 0x05#8, 0x06#8, 0x07#8, 0x10#8, 0x11#8,
      0x12#8, 0x13#8, 0x20#8, 0x21#8, 0x22#8, 0x23#8]) ∧
    (wordOp 0x00000406 = 0x06#8 ∧ 4 ≤ (wordArg 0x00000406).toNat) ∧
    (wordOp 0x00000210 = 0x10#8 ∧ 2 ≤ (wordArg 0x00000210).toNat) ∧
    (wordOp 0x00000123 = 0x23#8 ∧ wordArg 0x00000123 ≠ 0) ∧
    (wordRsv 0x00000306 = 0 ∧ ¬ 4 ≤ (wordArg 0x00000306).toNat) := by decide

theorem test_witness_CommandWriteRunsTheDecodedCommand :
    decode 0x00000005 = .ok .tableEncode ∧ busy coded = false ∧
    (hostDoes (.write 4 0x000 0x00000005) coded).host = .write 4 0x000 0x00000005 :: [] := by decide

/-- One word for each of the five ways. -/
theorem test_witness_IllegalWordChangesStatusAlone :
    busy (hostDoes (.write 4 0x000 0x00010001) encoding) = false ∧ wordRsv 0x00010001 ≠ 0 ∧
    wordOp 0x00000024 ∉ [0x01#8, 0x02#8, 0x03#8, 0x04#8, 0x05#8, 0x06#8, 0x07#8, 0x10#8, 0x11#8, 0x12#8, 0x13#8, 0x20#8,
      0x21#8, 0x22#8, 0x23#8] ∧
    (wordOp 0x00000406 = 0x06#8 ∧ 4 ≤ (wordArg 0x00000406).toNat) ∧
    (wordOp 0x00000210 = 0x10#8 ∧ 2 ≤ (wordArg 0x00000210).toNat) ∧
    (wordOp 0x00000101 = 0x01#8 ∧ wordArg 0x00000101 ≠ 0) := by decide

theorem test_witness_PhaseRules :
    (coded.phase ≠ .encActive ∧ coded.phase ≠ .encDone ∧ coded.phase ≠ .decActive ∧ coded.phase ≠ .decDone) ∧
    (Instr.encInit 0).wellFormed = true ∧ ∃ t, exec (.encInit 0) coded = .next t :=
  ⟨by decide, by decide, _, rfl⟩

/-- A command with a "-" cell, one that fails, one out of phase, and a run of each kind. -/
theorem test_witness_CommandsWriteOnlyTheirColumns :
    (∃ t, exec .tableDecode scenario = .next t ∧ mayWrite .tableDecode .packed = false) ∧
    (∃ t, exec .tableDecode fullTable = .next t ∧ onOkOnly .tableDecode .entry = true ∧ t.code ≠ .ok) ∧
    (∃ t, exec .encDone decoding = .next t ∧ phaseOk .encDone decoding.phase = false) ∧
    ((run1 .statFreq coded).runKind = .stat ∧ mayWrite .statFreq .entry = false) ∧
    ((run1 .encRun encoding).runKind = .enc ∧ mayWrite .encRun .phase = false) ∧
    ((run1 .decRun decoding).runKind = .dec ∧ mayWrite .decRun .anchors = false) :=
  ⟨⟨_, rfl, by decide⟩, ⟨_, rfl, by decide +kernel⟩, ⟨_, rfl, by decide⟩, by decide, by decide +kernel, by decide +kernel⟩

theorem test_witness_CommandsUseOnlyTheirPorts :
    (∃ t, exec .decInit scenario = .next t ∧ Instr.decInit ≠ .decStep) ∧ (∀ a, Instr.decInit ≠ .encStep a) ∧
    Instr.decInit ≠ .encDone ∧ (run1 .statFreq coded).runKind ≠ .dec ∧ (run1 .encRun encoding).runKind ≠ .stat ∧
    (run1 .decRun decoding).runKind ≠ .enc :=
  ⟨⟨_, rfl, by decide⟩, (by intro a h; cases h), by decide, by decide, by decide +kernel, by decide +kernel⟩

theorem test_witness_IteratingCommandsStart : encoding.phase = .encActive ∧ decoding.phase = .decActive := by decide

/-- A start of a run keeps CODE, and a command written while not busy changes LAST_OP. -/
theorem test_witness_CodeIsKeptWhileBusy :
    ∃ t, step (hostDoes (.write 4 0x000 0x00000002) coded) = .next t ∧ busy t = true ∧ t.lastOp ≠ coded.lastOp :=
  ⟨_, rfl, by decide, by decide⟩

theorem test_witness_IdleBlockDoesNothing :
    busy coded = false ∧ coded.host = [] ∧ busy (hostDoes .pass coded) = false ∧ (hostDoes .pass coded).host = .pass :: [] := by
  decide

theorem test_witness_StepsWithoutAnAccessIterate : busy (run1 .statFreq coded) = true ∧ busy coded = false := by decide

/-- A bit kept, and each bit set by its cause. -/
theorem test_witness_FaultBitsAreSticky :
    (∃ t, step (hostDoes .pass { coded with fault := ⟨true, true, true⟩ }) = .next t ∧ t.fault = ⟨true, true, true⟩) ∧
    (∃ t, step (hostDoes (.write 4 0x400 1) (run1 .statFreq coded)) = .next t ∧ t.fault.busyWrite ≠ coded.fault.busyWrite) ∧
    (∃ t, step (hostDoes (.read 4 0x002) coded) = .next t ∧ t.fault.badAccess ≠ coded.fault.badAccess) ∧
    ∃ t, step { run1 .statFreq (setFreq 9 0xFFFFFFFF coded) with symSource := sourceOf [9] } = .next t ∧
      t.fault.freqOverflow ≠ coded.fault.freqOverflow :=
  ⟨⟨_, rfl, by decide⟩, ⟨_, rfl, by decide⟩, ⟨_, rfl, by decide +kernel⟩, ⟨_, rfl, by decide +kernel⟩⟩

theorem test_witness_WriteWhileBusyIsDropped :
    busy (hostDoes (.write 2 0x001 0) (run1 .statFreq coded)) = true ∧
    (hostDoes (.write 2 0x001 0) (run1 .statFreq coded)).host = .write 2 0x001 0 :: [] := by decide

theorem test_witness_MisalignedOrNarrowAccessIsRejected :
    ((2 : Nat) ≠ 4 ∨ (0x004 : Offset).toNat % 4 ≠ 0) ∧ ((4 : Nat) ≠ 4 ∨ (0xFFF : Offset).toNat % 4 ≠ 0) ∧
    (hostDoes (.read 2 0x004) coded).host = .read 2 0x004 :: [] ∧ busy coded = false ∧
    (hostDoes (.write 4 0xFFF 1) coded).host = .write 4 0xFFF 1 :: [] := by decide

/-- The first and the last offset of each window and of each gap. -/
theorem test_witness_ReadsOfTheWindow :
    (0x024 : Offset).toNat = 0x024 ∧ (0x400 : Offset).toNat = 0x400 + 4 * (0 : Symbol).toNat ∧
    (0x7FC : Offset).toNat = 0x400 + 4 * (255 : Symbol).toNat ∧ (0xBFC : Offset).toNat = 0x800 + 4 * (255 : Symbol).toNat ∧
    (0xD0C : Offset).toNat = 0xC00 + 4 * 67 ∧ (0xE3C : Offset).toNat = 0xE00 + 4 * (16 - 1) ∧
    (0xE7C : Offset).toNat = 0xE40 + 4 * (16 - 1) ∧ (0x3FC : Offset).toNat % 4 = 0 ∧ (0xD10 : Offset).toNat = 0xD10 ∧
    (0xDFC : Offset).toNat = 0xDFC ∧ (0xE80 : Offset).toNat = 0xE80 ∧ (0xFFC : Offset).toNat = 0xFFC := by decide

/-- No offset of two clauses: the place of the last word of each window and the first of each gap. -/
theorem test_window_edges :
    placeAt 0x024 = .id ∧ placeAt 0x028 = .unmapped ∧ placeAt 0x3FC = .unmapped ∧ placeAt 0x400 = .freq 0 ∧
    placeAt 0x7FC = .freq 255 ∧ placeAt 0x800 = .entry 0 ∧ placeAt 0xBFC = .entry 255 ∧ placeAt 0xC00 = .packed 0 ∧
    placeAt 0xD0C = .packed 67 ∧ placeAt 0xD10 = .unmapped ∧ placeAt 0xDFC = .unmapped ∧ placeAt 0xE00 = .first 1 ∧
    placeAt 0xE3C = .first 16 ∧ placeAt 0xE40 = .index 1 ∧ placeAt 0xE7C = .index 16 ∧ placeAt 0xE80 = .unmapped := by decide

theorem test_witness_WritesOfTheWindow :
    busy coded = false ∧ (0x7FC : Offset).toNat = 0x400 + 4 * (255 : Symbol).toNat ∧
    (0xD0C : Offset).toNat = 0xC00 + 4 * 67 ∧ (67 : Nat) < 68 ∧ (0x004 : Offset).toNat = 0x004 ∧
    (0xBFC : Offset).toNat = 0xBFC ∧ (0xFFC : Offset).toNat = 0xFFC := by decide

theorem test_witness_EntryAndPackedWordLayouts : (3 : Nat) < 4 := by decide

theorem test_witness_ResetGivesTheResetValues : (hostDoes .reset decoding).host = .reset :: [] := rfl

theorem test_witness_PackedStaysCanonical :
    Memory.wf scenario.packed = true ∧ ∃ t, step (hostDoes (.write 4 0xC00 0) scenario) = .next t :=
  ⟨by decide +kernel, _, rfl⟩

theorem uncoded_of_ne {a : Symbol} (h : a ∉ [(3 : Symbol), 5, 7]) : entryAt coded a = ⟨0, 0⟩ := by
  simp only [List.mem_cons, List.not_mem_nil, or_false, not_or] at h
  refine entriesOf_get_of_not_mem fun x hx => ?_
  simp only [List.mem_cons, List.not_mem_nil, or_false] at hx
  rcases hx with rfl | rfl | rfl
  · exact Ne.symm h.1
  · exact Ne.symm h.2.1
  · exact Ne.symm h.2.2

theorem mem_of_coded {a : Symbol} (h : Coded coded a) : a ∈ [(3 : Symbol), 5, 7] := by
  by_contra hn
  rw [Coded, depthOf, uncoded_of_ne hn] at h
  exact absurd h (by decide)

theorem codedSequence_coded : codedSequence coded = [3, 5, 7] := by decide +kernel

/-- V1's code entries satisfy the invariant of R32. -/
theorem test_witness_EntryInvariant : EntryInvariant coded where
  depthAndCodeFit := by
    have h : ∀ a ∈ [(3 : Symbol), 5, 7], depthOf coded a ≤ 16 ∧ codeOf coded a < 2 ^ depthOf coded a := by decide +kernel
    exact fun a ha => h a (mem_of_coded ha)
  uncodedIsZero := by
    have h : ∀ a ∈ [(3 : Symbol), 5, 7], Coded coded a := by decide +kernel
    intro a ha
    rw [codeOf, uncoded_of_ne fun hm => ha (h a hm)]
    rfl
  prefixFree := by
    have h : ∀ a ∈ [(3 : Symbol), 5, 7], ∀ b ∈ [(3 : Symbol), 5, 7], a ≠ b →
        ¬ codeword (entryAt coded a) <+: codeword (entryAt coded b) := by decide +kernel
    exact fun a ha b hb => h a (mem_of_coded ha) b (mem_of_coded hb)
  firstCodeIsZero := by
    intro a ha
    rw [codedSequence_coded] at ha
    injection ha with ha
    subst ha
    decide +kernel
  canonical := by
    rw [codedSequence_coded]
    decide +kernel
  noAllOnes := by
    have h : ∀ a ∈ [(3 : Symbol), 5, 7], (∀ b ∈ [(3 : Symbol), 5, 7], depthOf coded b ≤ depthOf coded a) →
        codeOf coded a ≠ 2 ^ depthOf coded a - 1 := by decide +kernel
    exact fun a ha hb => h a (mem_of_coded ha) fun b _ => hb b
  countFits := by
    have h3 : allSymbols.countP (fun a => decide (a ∈ [(3 : Symbol), 5, 7])) = 3 := by decide +kernel
    intro L hL
    have h : depthCount coded L ≤ allSymbols.countP (fun a => decide (a ∈ [(3 : Symbol), 5, 7])) := by
      refine List.countP_mono_left fun a _ ha => ?_
      simp only [beq_iff_eq] at ha
      exact decide_eq_true (mem_of_coded (by show 0 < (entryAt coded a).depth.toNat; omega))
    omega

theorem test_witness_EntryInvariantIsKept :
    EntryInvariant (hostDoes (.write 4 0x000 0x00000005) coded) ∧
    ∃ t, step (hostDoes (.write 4 0x000 0x00000005) coded) = .next t :=
  ⟨⟨test_witness_EntryInvariant.1, test_witness_EntryInvariant.2, test_witness_EntryInvariant.3,
    test_witness_EntryInvariant.4, test_witness_EntryInvariant.5, test_witness_EntryInvariant.6,
    test_witness_EntryInvariant.7⟩, _, rfl⟩

theorem test_witness_CommandsFinishWithTheirStatuses :
    (Instr.encInit 1).wellFormed = true ∧ EntryInvariant coded ∧
    (∃ t, exec .encDone coded = .next t ∧ busy t = false) ∧ busy (iterate (run1 .statFreq coded)) = false ∧
    (run1 .statFreq coded).runKind = .stat :=
  ⟨by decide, test_witness_EntryInvariant, ⟨_, rfl, by decide +kernel⟩, by decide +kernel, by decide +kernel⟩

theorem test_witness_BitNumbersStayAtMostSixteen :
    EntryInvariant coded ∧ coded.decBits.toNat ≤ 16 ∧ coded.encLastBits.toNat ≤ 16 ∧ ∃ t, step coded = .next t :=
  ⟨test_witness_EntryInvariant, by decide, by decide, _, rfl⟩

theorem test_witness_AnchorsAreASnapshot :
    ∃ t, step (hostDoes (.write 4 0x000 0x00000007) scenario) = .next t ∧ t.first ≠ scenario.first :=
  ⟨_, rfl, by decide +kernel⟩

/-- One source for each of the three cases. -/
theorem test_witness_StatFreqIteration :
    let s := run1 .statFreq (setFreq 9 0xFFFFFFFF State.reset)
    s.runKind = .stat ∧ s.host = [] ∧ s.symSource.avail.1 = none ∧
    (Source.avail (sourceOf [(9 : Symbol)])).1 = some 9 ∧ (freqAt s 9).toNat = 2 ^ 32 - 1 ∧
    (Source.avail (sourceOf [(3 : Symbol)])).1 = some 3 ∧ (freqAt s 3).toNat ≠ 2 ^ 32 - 1 := by decide +kernel

theorem test_witness_StatFreqCountsEverySymbol :
    let s := { State.reset with symSource := sourceOf [3, 3, 5] }
    s.host = [] ∧ s.symSource = ⟨[3, 3, 5], none, []⟩ ∧
    ∀ a, (freqAt s a).toNat + [(3 : Symbol), 3, 5].count a < 2 ^ 32 :=
  ⟨rfl, rfl, fun a => by
    have h : (freqAt { State.reset with symSource := sourceOf [(3 : Symbol), 3, 5] } a).toNat = 0 := by
      simp [freqAt, State.reset]
    have h' : [(3 : Symbol), 3, 5].count a ≤ 3 := List.count_le_length
    omega⟩

theorem test_witness_GreaterFrequencyIsNotDeeper :
    ∃ t, exec .buildFreq freqs = .next t ∧ (Coded t 3 ∧ Coded t 7) ∧ (freqAt freqs 7).toNat < (freqAt freqs 3).toNat :=
  ⟨run1 .buildFreq freqs, rfl, by
    have h := test_buildFreq_scenario.2
    simp only [hasV1Codes, Bool.and_eq_true, beq_iff_eq] at h
    exact ⟨by rw [Coded, depthOf, h.1.1.1]; decide, by rw [Coded, depthOf, h.1.2]; decide⟩, by decide +kernel⟩

/-- One frequency, two equal ones of 1, and two equal ones above 1. -/
theorem test_witness_SmallBuiltCodes :
    (∀ c, freqAt State.reset c = 0) ∧
    (freqAt (setFreq 65 5 State.reset) 65 ≠ 0 ∧ ∀ c, c ≠ 65 → freqAt (setFreq 65 5 State.reset) c = 0) ∧
    (∀ v : Word, v = 1 ∨ v = 4 →
      let s := setFreq 0 v (setFreq 1 v State.reset)
      (0 : Symbol).toNat < (1 : Symbol).toNat ∧ freqAt s 0 ≠ 0 ∧ freqAt s 1 = freqAt s 0 ∧
      ∀ c, c ≠ 0 → c ≠ 1 → freqAt s c = 0) := by
  have h0 : ∀ c, freqAt State.reset c = 0 := fun c => by simp [freqAt, State.reset]
  refine ⟨h0, ⟨?_, fun c hc => ?_⟩, ?_⟩
  · simp [freqAt_setFreq]
  · rw [freqAt_setFreq, if_neg hc, h0]
  · rintro v (rfl | rfl) <;>
      exact ⟨by decide, by simp [freqAt_setFreq], by simp [freqAt_setFreq],
        fun c hc0 hc1 => by rw [freqAt_setFreq, if_neg hc0, freqAt_setFreq, if_neg hc1, h0]⟩

theorem test_witness_CanonicalRecurrence : (1 : Nat) ≤ 16 ∧ (16 : Nat) ≤ 16 := by decide

/-- Both directions have a table: the scenario table and V19's fifth. -/
theorem test_witness_TableValidIsV1ToV4 : tableValid scenario.packed = true ∧ tableValid fullTable.packed = false := by
  decide +kernel

theorem test_witness_TableDecodeAssignsTheTablesCodes :
    tableValid scenario.packed = true ∧ (0 < tableCount scenario.packed 3 ∧ 2 < tableSize scenario.packed) ∧
    (∀ j, j < tableSize scenario.packed → tableValue scenario.packed j ≠ 12) ∧ tableValid overfullTable.packed = false := by
  decide +kernel

/-- 256 symbols at depth 9 for the second clause. -/
def deepEntries : State := { State.reset with entry := Vector.replicate 256 ⟨9, 0⟩ }

theorem test_witness_TableEncodeWritesTheSortedTable :
    (∀ L, 1 ≤ L → L ≤ 16 → depthCount coded L ≤ 255) ∧ (∀ a, depthOf coded a ≤ 16) ∧ 255 < depthCount deepEntries 9 := by
  refine ⟨fun L h _ => test_witness_EntryInvariant.countFits L h, fun a => ?_, by decide +kernel⟩
  by_cases h : Coded coded a
  · exact (test_witness_EntryInvariant.depthAndCodeFit a h).1
  · have : depthOf coded a = 0 := by simpa [Coded] using h
    omega

theorem test_witness_TableRoundTrip :
    EntryInvariant coded ∧ tableValid scenario.packed = true ∧
    ∀ k, tableSize scenario.packed ≤ k → k < 256 → readByte scenario.packed (16 + k) = 0 := by
  refine ⟨test_witness_EntryInvariant, by decide +kernel, fun k hk _ => ?_⟩
  have h3 : tableSize scenario.packed = 3 := by decide +kernel
  rw [h3] at hk
  rw [scenario, readByte_memoryOf]
  exact List.getD_eq_default _ _ (by simp only [zeros, List.length_append, List.length_replicate, List.length_cons, List.length_nil]; omega)

/-- A step, the two sides of the operand's range, the places on the two sides of a table's size, and the default ROM. -/
theorem test_witness_LoadRefCopiesTheTable :
    (∃ t, step (hostDoes (.write 4 0x000 0x00000306) coded) = .next t) ∧ (3 : BitVec 8).toNat < 4 ∧
    4 ≤ (4 : BitVec 8).toNat ∧ tableSize (run1 (.loadRef 3) coded).packed = 12 ∧ coded.refTables = State.reset.refTables :=
  ⟨⟨_, rfl⟩, by decide, by decide, by decide +kernel, rfl⟩

/-- Another ROM: LOAD_REF copies its first sum(counts) values and no more. -/
theorem test_loadRef_of_another_rom :
    let rom : Vector RefTable 4 := State.reset.refTables.set 2 (RefTable.ofLists [1, 1] [9, 8, 7])
    let t := run1 (.loadRef 2) { junkTable with refTables := rom }
    (List.range 20).map (readByte t.packed) = [1, 1] ++ zeros 14 ++ [9, 8, 0, 0] := by decide +kernel

theorem test_witness_BuildAnchorsFollowsTheRecurrence : tableValid scenario.packed = true := by decide +kernel

theorem test_witness_EncInitBuildsAndStartsThePass :
    tableValid scenario.packed = true ∧ tableValid fullTable.packed = false ∧ 2 ≤ (2 : BitVec 8).toNat := by decide +kernel

theorem test_witness_EncStepPushesTheCodeword :
    encoding.phase = .encActive ∧ Coded encoding 7 ∧ (∀ n, n < depthOf encoding 7 → encoding.bitSink.answerAt n = true) ∧
    ¬ Coded encoding 12 := by decide +kernel

/-- The last bit of a codeword refused. -/
theorem test_witness_EncStepStopsAtARefusedBit :
    let s := { encoding with bitSink := roomFor 2 }
    s.phase = .encActive ∧ 2 < depthOf s 7 ∧ (∀ j, j < 2 → s.bitSink.answerAt j = true) ∧ s.bitSink.answerAt 2 = false := by
  decide +kernel

theorem test_witness_EncRunIterationIsAStep :
    let s := run1 .encRun encoding
    s.runKind = .enc ∧ s.phase = .encActive ∧ s.host = [] ∧ s.symSource.avail.1 = none ∧
    (Source.avail (sourceOf [(5 : Symbol)])).1 = some 5 := by decide +kernel

theorem test_witness_EncRunEncodesTheSource :
    let s := { encoding with symSource := sourceOf [3, 5, 7] }
    s.phase = .encActive ∧ s.host = [] ∧ s.symSource = ⟨[3, 5, 7], none, []⟩ ∧ s.bitSink.answers = [] ∧
    s.bitSink.rest = true ∧ ∀ a ∈ [(3 : Symbol), 5, 7], Coded s a := by decide +kernel

theorem test_witness_EncDonePadsTheLastByte :
    let s := { encoding with bitCount := 1 }
    s.phase = .encActive ∧ (∀ n, n < (8 - s.bitCount.toNat % 8) % 8 → s.bitSink.answerAt n = true) ∧
    { s with phase := .encDone }.phase = .encDone := by decide +kernel

theorem test_witness_RefusedPadBitLeavesThePassResumable :
    let s := { encoding with bitCount := 1, bitSink := roomFor 6 }
    s.phase = .encActive ∧ 6 < (8 - s.bitCount.toNat % 8) % 8 ∧ (∀ j, j < 6 → s.bitSink.answerAt j = true) ∧
    s.bitSink.answerAt 6 = false := by decide +kernel

theorem test_witness_EndlessSourceKeepsTheBlockBusy :
    let d := { run1 .decRun decoding with bitSource := ⟨[], some false, []⟩ }
    let s := { run1 .encRun encoding with symSource := ⟨[], some 5, []⟩ }
    (s.runKind = .enc ∧ s.host = [] ∧ s.symSource = ⟨[], some 5, []⟩ ∧ s.bitSink.answers = [] ∧ s.bitSink.rest = true ∧
      Coded s 5) ∧
    d.runKind = .dec ∧ d.phase = .decActive ∧ d.host = [] ∧ d.bitSource = ⟨[], some false, []⟩ ∧ d.symSink.answers = [] ∧
    d.symSink.rest = true ∧ ∃ u, exec .decStep d = .next u ∧ u.code = .ok :=
  ⟨by decide +kernel, by decide +kernel, by decide +kernel, rfl, rfl, rfl, rfl, _, rfl, by decide +kernel⟩

/-- V37's tables, on the two sides of 256. -/
theorem test_witness_DecInitLatchesTheAnchors :
    tableSize scenario.packed ≤ 256 ∧ 256 < tableSize overfullTable.packed := by decide +kernel

/-- An agent with given bits delivers them, and answers yes to every call. -/
theorem sourceOf_delivers (bs : List Bool) : (sourceOf bs).delivers bs := by
  intro n hn
  simp [sourceOf, Source.nth, hn]

theorem sourceOf_answersYes (bs : List Bool) (n : Nat) : (sourceOf bs).answersYes n := by
  intro t _
  simp [sourceOf]

theorem sourceOf_dryAfter (bs : List Bool) : (sourceOf bs).dryAfter bs.length := by
  right
  simp [sourceOf, Source.nth]

/-- The scenario table after the write of V38: 255 codes of 16 bits, the anchors as they were. -/
def changed : State := { decoding with packed := writePackedWord decoding.packed 3 0xFF000000 }

/-- V38's two bit strings: the last good place and the first bad one. -/
theorem test_witness_DecStepDecodesTheFirstMatch (c : Nat) (hc : c = 0xE0FC ∨ c = 0xE0FD) :
    let bs := msbFirst 16 c
    let s := { changed with bitSource := sourceOf bs }
    s.phase = .decActive ∧ 1 ≤ bs.length ∧ bs.length ≤ 16 ∧ s.bitSource.delivers bs ∧ s.bitSource.answersYes bs.length ∧
    (∀ j, 1 ≤ j → j < bs.length → ¬ ((firstAt s j).toNat ≤ bitsValue (bs.take j) ∧
      bitsValue (bs.take j) < (firstAt s j).toNat + tableCount s.packed j)) ∧
    (firstAt s bs.length).toNat ≤ bitsValue bs ∧
    bitsValue bs < (firstAt s bs.length).toNat + tableCount s.packed bs.length ∧
    ((indexAt s bs.length).toNat + (bitsValue bs - (firstAt s bs.length).toNat) < 256 ↔ c = 0xE0FC) := by
  refine ⟨rfl, by simp, by simp, sourceOf_delivers _, sourceOf_answersYes _ _, ?_, ?_⟩
  · have h : ∀ j, j < 16 → 1 ≤ j → ¬ ((firstAt changed j).toNat ≤ bitsValue ((msbFirst 16 c).take j) ∧
        bitsValue ((msbFirst 16 c).take j) < (firstAt changed j).toNat + tableCount changed.packed j) := by
      rcases hc with rfl | rfl <;> decide +kernel
    intro j h1 h2
    exact h j (by simpa using h2) h1
  · rcases hc with rfl | rfl <;> decide +kernel

/-- Bits that match at no length: sixteen of them, and two that end the source. -/
theorem test_witness_DecStepFailsWithoutAMatch (n : Nat) (hn : n = 16 ∨ n = 2) :
    let bs := List.replicate n true
    let s := { decoding with bitSource := sourceOf bs }
    s.phase = .decActive ∧ bs.length ≤ 16 ∧ s.bitSource.delivers bs ∧ s.bitSource.answersYes bs.length ∧
    (∀ j, 1 ≤ j → j ≤ bs.length → ¬ ((firstAt s j).toNat ≤ bitsValue (bs.take j) ∧
      bitsValue (bs.take j) < (firstAt s j).toNat + tableCount s.packed j)) ∧ s.bitSource.dryAfter bs.length := by
  refine ⟨rfl, by rcases hn with rfl | rfl <;> simp, sourceOf_delivers _, sourceOf_answersYes _ _, ?_, sourceOf_dryAfter _⟩
  have h : ∀ j, j < 17 → 1 ≤ j → j ≤ n → ¬ ((firstAt decoding j).toNat ≤ bitsValue ((List.replicate n true).take j) ∧
      bitsValue ((List.replicate n true).take j) < (firstAt decoding j).toNat + tableCount decoding.packed j) := by
    rcases hn with rfl | rfl <;> decide +kernel
  intro j h1 h2
  rw [List.length_replicate] at h2
  exact h j (by rcases hn with rfl | rfl <;> omega) h1 h2

/-- V1's anchors are those of the scenario table. -/
theorem test_witness_AnchorsMatch : tableValid decoding.packed = true ∧ AnchorsMatch decoding := by
  refine ⟨by decide +kernel, fun L h1 h2 => ?_⟩
  have h : ∀ L, L < 17 → 1 ≤ L → (firstAt decoding L).toNat = canonFirst decoding.packed L ∧
      (indexAt decoding L).toNat = canonIndex decoding.packed L := by decide +kernel
  exact h L (by omega) h1

/-- The codeword of symbol 7, whole and cut after two bits. -/
theorem test_witness_DecodingInvertsEncoding :
    let cw := msbFirst 3 (canonFirst decoding.packed 3 + 0)
    decoding.phase = .decActive ∧ tableValid decoding.packed = true ∧ AnchorsMatch decoding ∧
    0 < tableCount decoding.packed 3 ∧ (sourceOf cw).delivers cw ∧ (sourceOf cw).answersYes 3 ∧ (2 : Nat) < 3 ∧
    (sourceOf (cw.take 2)).delivers (cw.take 2) ∧ (sourceOf (cw.take 2)).answersYes 2 ∧
    (sourceOf (cw.take 2)).dryAfter 2 := by
  refine ⟨rfl, test_witness_AnchorsMatch.1, test_witness_AnchorsMatch.2, by decide +kernel, sourceOf_delivers _,
    sourceOf_answersYes _ _, by omega, sourceOf_delivers _, sourceOf_answersYes _ _, ?_⟩
  have h := sourceOf_dryAfter ((msbFirst 3 (canonFirst decoding.packed 3 + 0)).take 2)
  simpa using h

theorem test_witness_ExportedTableDecodesTheCodewords :
    let s := { coded with bitSource := sourceOf (msbFirst (depthOf coded 7) (codeOf coded 7)) }
    EntryInvariant s ∧ Coded s 7 ∧ s.bitSource.delivers (msbFirst (depthOf s 7) (codeOf s 7)) ∧
    s.bitSource.answersYes (depthOf s 7) :=
  ⟨⟨test_witness_EntryInvariant.1, test_witness_EntryInvariant.2, test_witness_EntryInvariant.3,
    test_witness_EntryInvariant.4, test_witness_EntryInvariant.5, test_witness_EntryInvariant.6,
    test_witness_EntryInvariant.7⟩, by decide +kernel, sourceOf_delivers _, sourceOf_answersYes _ _⟩

theorem test_witness_DecRunIterationIsAStep :
    let s := run1 .decRun decoding
    s.runKind = .dec ∧ s.phase = .decActive ∧ s.host = [] ∧ s.bitSource.avail.1 = none ∧
    (Source.avail (sourceOf [true])).1 ≠ none ∧ (Sink.canAccept (⟨[], [], false⟩ : Sink Symbol)).1 = false ∧
    s.symSink.canAccept.1 = true := by decide +kernel

/-- The stream of W1, with no pad bit and with six. -/
theorem test_witness_DecRunRecoversTheSymbols (p : Nat) (hp : p = 0 ∨ p = 6) :
    let ps := [(1, 0), (1, 0), (1, 0), (2, 0), (2, 0), (3, 0)]
    let s := { decoding with bitSource :=
      ⟨ps.flatMap (fun q => msbFirst q.1 (canonFirst decoding.packed q.1 + q.2)) ++ List.replicate p true, none, []⟩ }
    s.phase = .decActive ∧ s.host = [] ∧ tableValid s.packed = true ∧ AnchorsMatch s ∧
    (∀ q ∈ ps, 1 ≤ q.1 ∧ q.1 ≤ 16 ∧ q.2 < tableCount s.packed q.1) ∧ p ≤ 7 ∧ s.symSink.answers = [] ∧
    s.symSink.rest = true := by
  have h : ∀ q ∈ [(1, 0), (1, 0), (1, 0), (2, 0), (2, 0), (3, 0)],
      1 ≤ q.1 ∧ q.1 ≤ 16 ∧ q.2 < tableCount decoding.packed q.1 := by decide +kernel
  exact ⟨rfl, rfl, test_witness_AnchorsMatch.1, test_witness_AnchorsMatch.2, h, by omega, rfl, rfl⟩

theorem test_witness_SixteenOnesMatchNoValidTable :
    let s := { decoding with bitSource := sourceOf (List.replicate 16 true) }
    s.phase = .decActive ∧ tableValid s.packed = true ∧ AnchorsMatch s ∧
    s.bitSource.delivers (List.replicate 16 true) ∧ s.bitSource.answersYes 16 :=
  ⟨rfl, test_witness_AnchorsMatch.1, test_witness_AnchorsMatch.2, sourceOf_delivers _, sourceOf_answersYes _ _⟩

theorem test_witness_DecDoneOnlyChangesThePhase :
    decoding.phase = .decActive ∧ { decoding with phase := .decDone }.phase = .decDone := by decide

/-- W1's sequence, and a block with the same PACKED. -/
theorem test_witness_RoundTrip :
    let xs := [(3 : Symbol), 3, 3, 5, 5, 7]
    xs ≠ [] ∧ State.reset.host = [] ∧ (∀ a, xs.count a < 2 ^ 32) ∧
    ∀ f : State, ∃ s' : State, s'.host = [] ∧ ∀ i, i < 272 → readByte s'.packed i = readByte f.packed i :=
  ⟨by decide, rfl, fun a => by
    have h : [(3 : Symbol), 3, 3, 5, 5, 7].count a ≤ 6 := List.count_le_length
    show [(3 : Symbol), 3, 3, 5, 5, 7].count a < 2 ^ 32
    omega, fun f => ⟨{ State.reset with packed := f.packed }, rfl, fun _ _ => rfl⟩⟩

end Sys2Proof.Tests
end

section
/-! SUPPORT. No move of the block reads or writes the queue of what the host will do, and a step without a host access is
one iteration (spec/00_scope.md R9, R59 O3). -/

namespace Sys2Proof.Machine

/-- The queue of what the outside will do <- es -/
def setHost (es : List Event) (s : State) : State := { s with host := es }

/-! ### The operations of an iteration, under another queue -/

section
variable (es : List Event) (s : State)

@[simp] theorem finish_setHost (c : StatusCode) : finish c (setHost es s) = setHost es (finish c s) := rfl
@[simp] theorem countSymbol_setHost : countSymbol (setHost es s) = setHost es (countSymbol s) := rfl
@[simp] theorem faultFreqOverflow_setHost :
    faultFreqOverflow (setHost es s) = setHost es (faultFreqOverflow s) := rfl
@[simp] theorem freqAt_setHost (a : Symbol) : freqAt (setHost es s) a = freqAt s a := rfl
@[simp] theorem setFreq_setHost (a : Symbol) (v : Word) :
    setFreq a v (setHost es s) = setHost es (setFreq a v s) := rfl
@[simp] theorem entryAt_setHost (a : Symbol) : entryAt (setHost es s) a = entryAt s a := rfl
@[simp] theorem setLastBits_setHost (n : Nat) : setLastBits n (setHost es s) = setHost es (setLastBits n s) := rfl
@[simp] theorem symAvail_setHost : symAvail (setHost es s) = ((symAvail s).1, setHost es (symAvail s).2) := rfl
@[simp] theorem symPull_setHost : symPull (setHost es s) = setHost es (symPull s) := rfl
@[simp] theorem symCanAccept_setHost :
    symCanAccept (setHost es s) = ((symCanAccept s).1, setHost es (symCanAccept s).2) := rfl
@[simp] theorem symPush_setHost (v : Symbol) : symPush v (setHost es s) = setHost es (symPush v s) := rfl
@[simp] theorem bitAvail_setHost : bitAvail (setHost es s) = ((bitAvail s).1, setHost es (bitAvail s).2) := rfl
@[simp] theorem bitPull_setHost : bitPull (setHost es s) = setHost es (bitPull s) := rfl
@[simp] theorem bitCanAccept_setHost :
    bitCanAccept (setHost es s) = ((bitCanAccept s).1, setHost es (bitCanAccept s).2) := rfl
@[simp] theorem bitPush_setHost (b : Bool) : bitPush b (setHost es s) = setHost es (bitPush b s) := rfl
@[simp] theorem decodeFailed_setHost (n : Nat) :
    decodeFailed n (setHost es s) = setHost es (decodeFailed n s) := rfl
@[simp] theorem decodeGave_setHost (n : Nat) (v : Symbol) :
    decodeGave n v (setHost es s) = setHost es (decodeGave n v s) := rfl
@[simp] theorem inRange_setHost (L cand : Nat) : inRange (setHost es s) L cand = inRange s L cand := rfl
@[simp] theorem firstAt_setHost (L : Nat) : firstAt (setHost es s) L = firstAt s L := rfl
@[simp] theorem indexAt_setHost (L : Nat) : indexAt (setHost es s) L = indexAt s L := rfl
@[simp] theorem setHost_packed : (setHost es s).packed = s.packed := rfl
@[simp] theorem setHost_decSym : (setHost es s).decSym = s.decSym := rfl
@[simp] theorem setHost_runKind : (setHost es s).runKind = s.runKind := rfl

end

/-! ### Iterations under another queue -/

theorem sendBits_setHost (es : List Event) (bs : List Bool) (s : State) :
    sendBits bs (setHost es s) = { sendBits bs s with state := setHost es (sendBits bs s).state } := by
  induction bs generalizing s with
  | nil => rfl
  | cons b bs ih =>
    cases h : s.bitSink.answerAt 0 with
    | true =>
      rw [sendBits_taken_first h, sendBits_taken_first (s := setHost es s) h]
      simp [ih]
    | false =>
      rw [sendBits_refused_first h, sendBits_refused_first (s := setHost es s) h]
      rfl

theorem encodeOne_setHost (es : List Event) (a : Symbol) (s : State) :
    encodeOne a (setHost es s) = ((encodeOne a s).1, setHost es (encodeOne a s).2) := by
  simp only [encodeOne, entryAt_setHost, setLastBits_setHost, sendBits_setHost]
  split <;> rfl

theorem decodeFrom_setHost (es : List Event) (fuel L cand : Nat) (s : State) :
    decodeFrom fuel L cand (setHost es s) =
      ((decodeFrom fuel L cand s).1, setHost es (decodeFrom fuel L cand s).2) := by
  induction fuel generalizing L cand s with
  | zero => rfl
  | succ fuel ih =>
    rcases h : bitAvail s with ⟨_ | b, s1⟩
    · simp [decodeFrom, h]
    · by_cases hr : inRange (bitPull s1) L (2 * cand + b.toNat) = true
      · by_cases hk : 256 ≤ (indexAt s1 L).toNat + (2 * cand + b.toNat - (firstAt s1 L).toNat) <;>
          simp [decodeFrom, h, hr, hk]
      · simp [decodeFrom, h, hr, ih]

theorem decodeOne_setHost (es : List Event) (s : State) :
    decodeOne (setHost es s) = ((decodeOne s).1, setHost es (decodeOne s).2) :=
  decodeFrom_setHost es _ _ _ s

theorem statIteration_setHost (es : List Event) (s : State) :
    statIteration (setHost es s) = setHost es (statIteration s) := by
  unfold statIteration
  rcases h : symAvail s with ⟨_ | a, s1⟩
  · simp [h]
  · by_cases hf : freqAt s1 a = 0xFFFFFFFF#32 <;> simp [h, hf]

theorem encIteration_setHost (es : List Event) (s : State) :
    encIteration (setHost es s) = setHost es (encIteration s) := by
  unfold encIteration
  rcases h : symAvail s with ⟨_ | a, s1⟩
  · simp [h]
  · rcases he : encodeOne a (symPull s1) with ⟨st, s2⟩
    cases st <;> simp [h, encodeOne_setHost, he]

theorem decIteration_setHost (es : List Event) (s : State) :
    decIteration (setHost es s) = setHost es (decIteration s) := by
  unfold decIteration
  rcases h : bitAvail s with ⟨_ | b, s1⟩
  · simp [h]
  · rcases hc : symCanAccept s1 with ⟨_ | _, s2⟩
    · simp [h, hc]
    · rcases hd : decodeOne s2 with ⟨st, s3⟩
      cases st <;> simp [h, hc, decodeOne_setHost, hd]

/-- An iteration does not look at what the host will do next (R9). -/
theorem iterate_setHost (es : List Event) (s : State) : iterate (setHost es s) = setHost es (iterate s) := by
  unfold iterate
  cases h : s.runKind with
  | none => simp [h]
  | stat => simpa [h] using statIteration_setHost es s
  | enc => simpa [h] using encIteration_setHost es s
  | dec => simpa [h] using decIteration_setHost es s

/-! ### Steps without a host access -/

theorem step_setHost_nil (s : State) : step (setHost [] s) = .next (setHost [] (iterate s)) := by
  rw [step_nil rfl, iterate_setHost]

theorem step_setHost_pass (s : State) (rest : List Event) :
    step (setHost (.pass :: rest) s) = .next (setHost rest (iterate s)) := by
  rw [step_cons rfl, ← iterate_setHost]
  rfl

theorem step_setHost_poll_busy {s : State} (rest : List Event) (hb : busy s = true) :
    step (setHost (.poll :: rest) s) = .next (setHost (.poll :: rest) (iterate s)) := by
  have hs : step (setHost (.poll :: rest) s) = .next (setHost (.poll :: rest) (iterate (setHost rest s))) := by
    rw [step_cons rfl]
    exact congrArg Host.Outcome.next (if_pos hb)
  rw [hs, iterate_setHost]
  rfl

/-- STATUS is at offset 0x004 (R52), and a read of it is a legal access. -/
theorem serveRead_status (s : State) : serveRead 4 0x004 s = { s with readLog := s.readLog ++ [statusWord s] } := rfl

theorem step_setHost_poll_idle {s : State} (rest : List Event) (hb : busy s = false) :
    step (setHost (.poll :: rest) s) =
      .next { setHost rest s with readLog := s.readLog ++ [statusWord s] } := by
  have hs : step (setHost (.poll :: rest) s) = .next (serveRead 4 0x004 (setHost rest s)) := by
    rw [step_cons rfl]
    exact congrArg Host.Outcome.next (if_neg (ne_true_of_eq_false hb))
  rw [hs, serveRead_status]
  rfl

/-- Settles O16: an iteration commutes with replacing the host's queue, and a POLL's branch is BUSY's. -/
theorem stepsWithoutAnAccessIterate : Obligations.StepsWithoutAnAccessIterate := fun s rest =>
  ⟨step_setHost_nil s, step_setHost_pass s rest, step_setHost_poll_busy rest, step_setHost_poll_idle rest⟩

end Sys2Proof.Machine
end

section
/-! SUPPORT. What every command and iteration leaves as it was: the frames of the commands' rules, said once, and a step seen
by what it can do to the block (spec/10_state.md R41, spec/20_memory.md R53 to R59). -/

namespace Sys2Proof.Machine

/-! ### What the rules of the commands do -/

/-- BUILD_FREQ writes the code Build gives, or fails with no other effect (R102, R109). -/
theorem buildFreqBody_cases (s : State) :
    (∃ e, build s.freq = some e ∧ buildFreqBody s = finish .ok (setEntries e s)) ∨
    buildFreqBody s = finish .tableOverflow s := by
  unfold buildFreqBody
  cases h : build s.freq with
  | none => exact .inr rfl
  | some e => exact .inl ⟨e, rfl, rfl⟩

/-- TABLE_DECODE writes the codes of a valid table, or fails with no other effect (R123). -/
theorem tableDecodeBody_cases (s : State) :
    (tableValid s.packed = true ∧
      tableDecodeBody s = finish .ok (setEntries (entriesOf (tableAssignments s.packed)) s)) ∨
    tableDecodeBody s = finish .preconditionViolated s := by
  unfold tableDecodeBody
  split
  · next h => exact .inl ⟨h, rfl⟩
  · exact .inr rfl

theorem length_codedSequence_le (s : State) : (codedSequence s).length ≤ 256 := by
  calc (codedSequence s).length ≤ allSymbols.length := by
        rw [codedSequence, List.length_insertionSort]; exact List.length_filter_le ..
    _ = 256 := by simp [allSymbols]

/-- TABLE_ENCODE writes PACKED whole, or fails with no other effect (R125). -/
theorem tableEncodeBody_cases (s : State) :
    (∃ counts values : List Byte, counts.length = 16 ∧ values.length ≤ 256 ∧
      tableEncodeBody s = finish .ok (setPacked (memoryOf (packedBytesOf counts values)) s)) ∨
    tableEncodeBody s = finish .preconditionViolated s := by
  unfold tableEncodeBody
  split
  · exact .inr rfl
  · exact .inl ⟨_, _, by simp [lengths], length_codedSequence_le s, rfl⟩

/-- LOAD_REF with a legal operand writes PACKED whole (R128). -/
theorem loadRefBody_cases (k : BitVec 8) (s : State) :
    (∃ counts values : List Byte, counts.length = 16 ∧ values.length ≤ 256 ∧
      loadRefBody k s = finish .ok (setPacked (memoryOf (packedBytesOf counts values)) s)) ∨
    loadRefBody k s = finish .illegalCommand s := by
  unfold loadRefBody
  split
  · exact .inl ⟨_, _, by simp, by simp, rfl⟩
  · exact .inr rfl

/-- ENC_INIT starts a pass over a built code or over a valid table's, or fails and writes PHASE at most (R146). -/
theorem encInitBody_cases (mode : BitVec 8) (s : State) :
    (∃ e, (build s.freq = some e ∨ tableValid s.packed = true ∧ e = entriesOf (tableAssignments s.packed)) ∧
      encInitBody mode s = startEncode e s) ∨
    encInitBody mode s = finish .tableOverflow (setPhase .idle s) ∨
    encInitBody mode s = finish .preconditionViolated (setPhase .idle s) ∨
    encInitBody mode s = finish .illegalCommand s := by
  unfold encInitBody
  split
  · split
    · next e he => exact .inl ⟨e, .inl he, rfl⟩
    · exact .inr (.inl rfl)
  · split
    · next hv => exact .inl ⟨_, .inr ⟨hv, rfl⟩, rfl⟩
    · exact .inr (.inr (.inl rfl))
  · exact .inr (.inr (.inr rfl))

/-- DEC_INIT starts a pass, or fails and writes PHASE alone (R164). -/
theorem decInitBody_cases (s : State) :
    decInitBody s =
      finish .ok (setPhase .decActive { setAnchors s with decValid := false, decBits := 0, count := 0 }) ∨
    decInitBody s = finish .preconditionViolated (setPhase .idle s) := by
  unfold decInitBody
  split
  · exact .inr rfl
  · exact .inl rfl

/-- ENC_DONE writes PHASE, the bit sink and BITCOUNT at most, and finishes (R160). -/
theorem encDoneBody_cases (s : State) :
    ∃ c p sink n, encDoneBody s = finish c { s with phase := p, bitSink := sink, bitCount := n } := by
  unfold encDoneBody
  split
  · exact ⟨.ok, s.phase, s.bitSink, s.bitCount, rfl⟩
  · dsimp only
    rw [sendBits_frame]
    split
    · exact ⟨.ok, .encDone, _, _, rfl⟩
    · exact ⟨.outputFull, s.phase, _, _, rfl⟩

/-- DEC_DONE writes PHASE at most, and finishes (R176). -/
theorem decDoneBody_cases (s : State) : ∃ p, decDoneBody s = finish .ok (setPhase p s) := by
  unfold decDoneBody
  split
  · exact ⟨s.phase, rfl⟩
  · exact ⟨.decDone, rfl⟩

/-- Every command starts a run, which keeps CODE, or finishes (R94, R95). -/
theorem bodyOf_starts_or_finishes (i : Instr) (s : State) :
    (∃ k, bodyOf i s = startRun k s) ∨ ∃ c u, bodyOf i s = finish c u := by
  cases i with
  | statFreq | encRun | decRun => exact .inl ⟨_, rfl⟩
  | clear | buildAnchors | encStep | decStep => exact .inr ⟨_, _, rfl⟩
  | buildFreq => rcases buildFreqBody_cases s with ⟨_, _, h⟩ | h <;> exact .inr ⟨_, _, h⟩
  | tableDecode => rcases tableDecodeBody_cases s with ⟨_, h⟩ | h <;> exact .inr ⟨_, _, h⟩
  | tableEncode => rcases tableEncodeBody_cases s with ⟨_, _, _, _, h⟩ | h <;> exact .inr ⟨_, _, h⟩
  | loadRef k => rcases loadRefBody_cases k s with ⟨_, _, _, _, h⟩ | h <;> exact .inr ⟨_, _, h⟩
  | encInit mode => rcases encInitBody_cases mode s with ⟨_, _, h⟩ | h | h | h <;> exact .inr ⟨_, _, h⟩
  | decInit => rcases decInitBody_cases s with h | h <;> exact .inr ⟨_, _, h⟩
  | encDone => obtain ⟨_, _, _, _, h⟩ := encDoneBody_cases s; exact .inr ⟨_, _, h⟩
  | decDone => obtain ⟨_, h⟩ := decDoneBody_cases s; exact .inr ⟨_, _, h⟩

/-! ### What a move writes (R41) -/

/-- The column holds the same data in both states. -/
def sameColumn (c : Column) (s t : State) : Prop :=
  match c with
  | .freq => t.freq = s.freq
  | .entry => t.entry = s.entry
  | .packed => t.packed = s.packed
  | .anchors => (t.first, t.index) = (s.first, s.index)
  | .phase => t.phase = s.phase
  | .count => t.count = s.count
  | .bitCount => t.bitCount = s.bitCount
  | .decode => (t.decSym, t.decValid, t.decBits) = (s.decSym, s.decValid, s.decBits)
  | .encLastBits => t.encLastBits = s.encLastBits

/-- The same data reads the same. -/
theorem columnKept_of_sameColumn {c : Column} {s t : State} (h : sameColumn c s t) : columnKept c s t := by
  cases c with
  | freq => intro a; simp only [freqAt]; rw [show t.freq = s.freq from h]
  | entry => intro a; simp only [entryAt]; rw [show t.entry = s.entry from h]
  | packed => intro a; rw [show t.packed = s.packed from h]
  | anchors => exact Prod.mk.inj h
  | phase | count | bitCount | encLastBits => exact h
  | decode => simpa [sameColumn, columnKept] using h

/-- From `s` to `t` no column is written but those of `w`, nor FAULT, LAST_OP, the reference ROM, the host's queue or the read
log. -/
structure WritesOnly (w : Column → Bool) (s t : State) : Prop where
  columns : ∀ c, w c = false → sameColumn c s t
  background : (t.fault, t.lastOp, t.refTables, t.host, t.readLog) = (s.fault, s.lastOp, s.refTables, s.host, s.readLog)

/-- The columns a command that ended with a code may have written (R41). -/
def writesGiven (i : Instr) (code : StatusCode) (c : Column) : Bool :=
  mayWrite i c && (!onOkOnly i c || code == .ok)

/-- A command's rule writes only its row's columns, those marked "on OK" on OK only (R41): in each of its cases the columns
outside the row are untouched fields of the record. -/
theorem writesOnly_bodyOf (i : Instr) (s : State) : WritesOnly (writesGiven i (bodyOf i s).code) s (bodyOf i s) := by
  cases i
  case buildAnchors =>
    rw [bodyOf, buildAnchorsBody]
    exact ⟨by rintro ⟨⟩ ⟨⟩ <;> simp [sameColumn], by simp⟩
  case decInit =>
    rcases decInitBody_cases s with h | h <;> rw [bodyOf, h] <;>
      exact ⟨by rintro ⟨⟩ ⟨⟩ <;> simp [sameColumn], by simp⟩
  case' encStep sym => rw [bodyOf, encStepBody, encodeOne_frame]
  case' decStep => rw [bodyOf, decStepBody, decodeOne_frame]
  case' buildFreq => rcases buildFreqBody_cases s with ⟨_, _, h⟩ | h <;> rw [bodyOf, h]
  case' tableDecode => rcases tableDecodeBody_cases s with ⟨_, h⟩ | h <;> rw [bodyOf, h]
  case' tableEncode => rcases tableEncodeBody_cases s with ⟨_, _, _, _, h⟩ | h <;> rw [bodyOf, h]
  case' loadRef k => rcases loadRefBody_cases k s with ⟨_, _, _, _, h⟩ | h <;> rw [bodyOf, h]
  case' encInit mode => rcases encInitBody_cases mode s with ⟨_, _, h⟩ | h | h | h <;> rw [bodyOf, h]
  case' encDone => obtain ⟨_, _, _, _, h⟩ := encDoneBody_cases s; rw [bodyOf, h]
  case' decDone => obtain ⟨_, h⟩ := decDoneBody_cases s; rw [bodyOf, h]
  all_goals exact ⟨by rintro ⟨⟩ ⟨⟩ <;> rfl, rfl⟩

/-- A command leaves the columns outside its row as they were (R41). -/
theorem sameColumn_bodyOf {i : Instr} {c : Column} (h : mayWrite i c = false) (s : State) : sameColumn c s (bodyOf i s) :=
  (writesOnly_bodyOf i s).columns c (by simp [writesGiven, h])

theorem bodyOf_packed {i : Instr} (h : mayWrite i .packed = false) (s : State) : (bodyOf i s).packed = s.packed :=
  sameColumn_bodyOf h s

theorem bodyOf_entry {i : Instr} (h : mayWrite i .entry = false) (s : State) : (bodyOf i s).entry = s.entry :=
  sameColumn_bodyOf h s

theorem bodyOf_encLastBits {i : Instr} (h : mayWrite i .encLastBits = false) (s : State) :
    (bodyOf i s).encLastBits = s.encLastBits :=
  sameColumn_bodyOf h s

theorem bodyOf_decBits {i : Instr} (h : mayWrite i .decode = false) (s : State) : (bodyOf i s).decBits = s.decBits := by
  have hw := sameColumn_bodyOf h s
  simp only [sameColumn, Prod.mk.injEq] at hw
  exact hw.2.2

/-- A command turned away by its phase writes the status alone (R91). -/
theorem writesOnly_finish (w : Column → Bool) (c : StatusCode) (s : State) : WritesOnly w s (finish c s) :=
  ⟨by rintro ⟨⟩ _ <;> rfl, rfl⟩

/-- What an issued command writes (R41, R91). -/
theorem writesOnly_exec {i : Instr} {s t : State} (h : exec i s = .next t) :
    WritesOnly (fun c => phaseOk i s.phase && writesGiven i t.code c) s t := by
  rcases exec_cases h with ⟨hp, rfl⟩ | ⟨hp, rfl⟩
  · simpa [hp] using writesOnly_bodyOf i s
  · exact writesOnly_finish _ _ s

/-! ### What an iteration writes -/

/-- The columns an iteration writes, those of its command's row (R41). -/
def iterationWrites : RunKind → Column → Bool
  | .none => fun _ => false
  | .stat => mayWrite .statFreq
  | .enc => mayWrite .encRun
  | .dec => mayWrite .decRun

/-- A STAT_FREQ iteration at a full counter: what sets FAULT.FREQ_OVERFLOW (R100). -/
def Overflows (s : State) : Prop :=
  s.runKind = .stat ∧ (iterate s).code = .preconditionViolated ∧
    ∃ a, s.symSource.avail.1 = some a ∧ freqAt s a = 0xFFFFFFFF

theorem writesOnly_encIteration (s : State) : WritesOnly (mayWrite .encRun) s (encIteration s) := by
  rcases encIteration_cases s with h | ⟨a, _, h⟩
  · rw [h]; exact ⟨by rintro ⟨⟩ ⟨⟩ <;> rfl, rfl⟩
  · rw [h]
    split <;> rw [encodeOne_frame] <;> exact ⟨by rintro ⟨⟩ ⟨⟩ <;> rfl, rfl⟩

theorem writesOnly_decIteration (s : State) : WritesOnly (mayWrite .decRun) s (decIteration s) := by
  rcases decIteration_cases s with h | h | h
  · rw [h]; exact ⟨by rintro ⟨⟩ ⟨⟩ <;> rfl, rfl⟩
  · rw [h]; exact ⟨by rintro ⟨⟩ ⟨⟩ <;> rfl, rfl⟩
  · rw [h]
    split <;> rw [decodeOne_frame] <;> exact ⟨by rintro ⟨⟩ ⟨⟩ <;> rfl, rfl⟩

/-- An iteration writes its command's columns, and FAULT at an overflow alone (R41, R100). -/
theorem writesOnly_iterate (s : State) :
    WritesOnly (iterationWrites s.runKind) s (iterate s) ∨
    Overflows s ∧ WritesOnly (iterationWrites s.runKind) (faultFreqOverflow s) (iterate s) := by
  cases hk : s.runKind with
  | none => exact .inl (by simpa [iterate, hk] using ⟨by rintro ⟨⟩ _ <;> rfl, rfl⟩)
  | enc => exact .inl (by simpa [iterate, hk, iterationWrites] using writesOnly_encIteration s)
  | dec => exact .inl (by simpa [iterate, hk, iterationWrites] using writesOnly_decIteration s)
  | stat =>
    have hi : iterate s = statIteration s := by simp [iterate, hk]
    rw [hi]
    rcases statIteration_cases s with h | ⟨a, ha, hf, h⟩ | ⟨a, ha, _, h⟩
    · exact .inl (by rw [h]; exact ⟨by rintro ⟨⟩ ⟨⟩ <;> rfl, rfl⟩)
    · refine .inr ⟨⟨hk, by rw [hi, h]; rfl, a, ha, hf⟩, ?_⟩
      rw [h]; exact ⟨by rintro ⟨⟩ ⟨⟩ <;> rfl, rfl⟩
    · exact .inl (by rw [h]; exact ⟨by rintro ⟨⟩ ⟨⟩ <;> rfl, rfl⟩)

/-- An iteration finishes, or keeps CODE and goes on (R94, R95). -/
theorem iterate_goes_on_or_finishes (s : State) : (iterate s).code = s.code ∨ ∃ c u, iterate s = finish c u := by
  unfold iterate
  split
  · exact .inl rfl
  · rcases statIteration_cases s with h | ⟨_, _, _, h⟩ | ⟨_, _, _, h⟩
    · exact .inr ⟨_, _, h⟩
    · exact .inr ⟨_, _, h⟩
    · exact .inl (by rw [h]; rfl)
  · rcases encIteration_cases s with h | ⟨_, _, h⟩
    · exact .inr ⟨_, _, h⟩
    · rw [h]
      split
      · exact .inl (by rw [encodeOne_frame]; rfl)
      · exact .inr ⟨_, _, rfl⟩
  · rcases decIteration_cases s with h | h | h
    · exact .inr ⟨_, _, h⟩
    · exact .inr ⟨_, _, h⟩
    · rw [h]
      split
      · exact .inl (by rw [decodeOne_frame]; rfl)
      · exact .inr ⟨_, _, rfl⟩

/-- The columns an iteration leaves as they were (R41). -/
theorem sameColumn_iterate {c : Column} {s : State} (h : iterationWrites s.runKind c = false) :
    sameColumn c s (iterate s) := by
  rcases writesOnly_iterate s with hw | ⟨_, hw⟩
  · exact hw.columns c h
  · have := hw.columns c h
    cases c <;> exact this

@[simp] theorem iterate_entry (s : State) : (iterate s).entry = s.entry :=
  sameColumn_iterate (c := .entry) (by cases s.runKind <;> rfl)

@[simp] theorem iterate_packed (s : State) : (iterate s).packed = s.packed :=
  sameColumn_iterate (c := .packed) (by cases s.runKind <;> rfl)

/-- No iteration writes LAST_OP, the reference ROM, the host's queue or the read log. -/
theorem iterate_background (s : State) :
    (iterate s).lastOp = s.lastOp ∧ (iterate s).refTables = s.refTables ∧ (iterate s).host = s.host ∧
      (iterate s).readLog = s.readLog := by
  rcases writesOnly_iterate s with hw | ⟨_, hw⟩ <;> simpa using (Prod.mk.inj hw.background).2

/-! ### What a step can do to the block -/

/-- What a step serves: an iteration, with or without an event, a read, a POLL's read of STATUS, a write, or reset. The service
sees the block as it was, and the queue already moved on (R53 to R56, R59, R200). -/
theorem step_serves {s t : State} (h : step s = .next t) :
    (∃ es, t = setHost es (iterate s)) ∨
    (∃ es width off, s.host.head? = some (.read width off) ∧ t = serveRead width off (setHost es s)) ∨
    (∃ es l, t = { setHost es s with readLog := l }) ∨
    (∃ es width off v, s.host.head? = some (.write width off v) ∧ serveWrite width off v (setHost es s) = .next t) ∨
    ∃ es, s.host.head? = some .reset ∧ t = resetBlock (setHost es s) := by
  rcases step_cases h with ⟨hh, ht⟩ | ⟨rest, _, ht⟩ | ⟨rest, _, _, ht⟩ | ⟨rest, _, _, ht⟩ | ⟨rest, width, off, hh, ht⟩ |
    ⟨rest, width, off, v, hh, ht⟩ | ⟨rest, hh, ht⟩
  · refine .inl ⟨[], ht.trans ?_⟩
    rw [← iterate_setHost, setHost, ← hh]
  · exact .inl ⟨rest, ht.trans (iterate_setHost rest s)⟩
  · refine .inl ⟨.poll :: rest, ht.trans ?_⟩
    change setHost (.poll :: rest) (iterate (setHost rest s)) = _
    rw [iterate_setHost]
    rfl
  · exact .inr (.inr (.inl ⟨rest, _, ht⟩))
  · exact .inr (.inl ⟨rest, width, off, by rw [hh]; rfl, ht⟩)
  · exact .inr (.inr (.inr (.inl ⟨rest, width, off, v, by rw [hh]; rfl, ht⟩)))
  · exact .inr (.inr (.inr (.inr ⟨rest, by rw [hh]; rfl, ht⟩)))

/-- What a step can do to the block, whichever event it serves (R53 to R56, R59, R89, R200). -/
inductive Effect (s : State) : State → Prop where
  /-- The running command's iteration, or nothing while idle. -/
  | iterates (es : List Event) : Effect s (setHost es (iterate s))
  /-- A read, or a write that is dropped: FAULT, the queue and the log alone. -/
  | answers (es : List Event) (f : FaultBits) (l : List Word) :
      Effect s { s with host := es, fault := f, readLog := l }
  /-- A command in a phase that allows it. -/
  | runs (es : List Event) (w : Word) (i : Instr) : Effect s (bodyOf i (setLastOp w (setHost es s)))
  /-- An illegal word, or a command outside its phases. -/
  | finishes (es : List Event) (w : Word) (c : StatusCode) : Effect s (finish c (setLastOp w (setHost es s)))
  /-- A host write to FREQ. -/
  | storesFreq (es : List Event) (a : Symbol) (v : Word) : Effect s (setFreq a v (setHost es s))
  /-- A host write to PACKED. -/
  | storesPacked (es : List Event) (w : Nat) (v : Word) (hw : w < 68) :
      Effect s (setPacked (writePackedWord s.packed w v) (setHost es s))
  /-- Reset. -/
  | resets (es : List Event) : Effect s (resetBlock (setHost es s))

theorem step_effect {s t : State} (h : step s = .next t) : Effect s t := by
  rcases step_serves h with ⟨es, rfl⟩ | ⟨es, width, off, _, rfl⟩ | ⟨es, l, rfl⟩ | ⟨es, width, off, v, _, ht⟩ | ⟨es, _, rfl⟩
  · exact .iterates es
  · rcases busRead_state width off (setHost es s) with hr | hr <;> rw [serveRead, hr]
    · exact .answers es s.fault _
    · exact .answers es _ _
  · exact .answers es s.fault l
  · rcases serveWrite_cases ht with ⟨_, rfl⟩ | ⟨_, rfl⟩ | ⟨_, _, _, hi⟩ | ⟨_, a, _, rfl⟩ | ⟨_, w, hw, _, rfl⟩
    · exact .answers es _ s.readLog
    · exact .answers es _ s.readLog
    · rcases issue_cases hi with ⟨i, _, he⟩ | ⟨_, rfl⟩
      · rcases exec_cases he with ⟨_, rfl⟩ | ⟨_, rfl⟩
        · exact .runs es v i
        · exact .finishes es v _
      · exact .finishes es v _
    · exact .storesFreq es a v
    · exact .storesPacked es w v hw
  · exact .resets es

end Sys2Proof.Machine
end

section
/-! SUPPORT. PACKED's canonical form is kept (spec/10_state.md R34). -/

namespace Sys2Proof.Machine

/-- A command keeps PACKED's canonical form: it leaves PACKED alone, clears it or writes it whole (R41). -/
theorem wf_bodyOf_packed (i : Instr) {s : State} (hs : Memory.wf s.packed = true) :
    Memory.wf (bodyOf i s).packed = true := by
  cases i with
  | clear => rfl
  | tableEncode =>
    rcases tableEncodeBody_cases s with ⟨_, _, hc, hv, h⟩ | h <;> rw [bodyOf, h]
    · exact wf_packedBytesOf hc hv
    · exact hs
  | loadRef k =>
    rcases loadRefBody_cases k s with ⟨_, _, hc, hv, h⟩ | h <;> rw [bodyOf, h]
    · exact wf_packedBytesOf hc hv
    · exact hs
  | _ => rw [bodyOf_packed rfl]; exact hs

/-- Settles O26: a step leaves PACKED alone, writes one of its 68 words, or writes it whole. -/
theorem packedStaysCanonical : Obligations.PackedStaysCanonical := by
  intro s t hs ht
  cases step_effect ht with
  | iterates es => simpa using hs
  | runs es w i => exact wf_bodyOf_packed i hs
  | storesPacked es w v hw => exact wf_writePackedWord v hw hs
  | resets es => rfl
  | answers | finishes | storesFreq => exact hs

end Sys2Proof.Machine
end

section
/-! SUPPORT. Canonical codes: lists of assignments in the canonical order that leave code space over, and the entry
invariant of the entries they make (spec/10_state.md R32). -/

namespace Sys2Proof.Machine

/-! ### The code space -/

/-- The share of the code space, out of 2^256, that a codeword of length `d` takes (R106's accounting). -/
def share (d : Nat) : Nat := 2 ^ (256 - d)

theorem share_pos (d : Nat) : 0 < share d := Nat.two_pow_pos _

/-- A codeword's share is that of all its extensions of one length. -/
theorem share_eq {d e : Nat} (h : d ≤ e) (he : e ≤ 256) : share d = 2 ^ (e - d) * share e := by
  rw [share, share, ← Nat.pow_add]
  congr 1
  omega

theorem share_eq_two_mul {d : Nat} (hd : d < 256) : share d = 2 * share (d + 1) := by
  simpa using share_eq (Nat.le_succ d) hd

theorem share_anti {d e : Nat} (h : d ≤ e) : share e ≤ share d := Nat.pow_le_pow_right (by omega) (by omega)

/-- Lengths of a canonical code: in 1..16, not all the code space taken (E5), and no length 256 times (E6). -/
structure DepthsFit (ds : List Nat) : Prop where
  inRange : ∀ d ∈ ds, 1 ≤ d ∧ d ≤ 16
  spaceLeft : (ds.map share).sum < share 0
  countFits : ∀ L, ds.count L ≤ 255

theorem DepthsFit.perm {ds es : List Nat} (h : DepthsFit ds) (hp : ds.Perm es) : DepthsFit es where
  inRange d hd := h.inRange d (hp.mem_iff.2 hd)
  spaceLeft := (hp.map share).sum_eq ▸ h.spaceLeft
  countFits L := hp.count_eq L ▸ h.countFits L

/-! ### Codewords and their order -/

/-- R125's order, as numbers. -/
theorem codeBefore_iff {s : State} (a b : Symbol) : codeBefore s a b = true ↔
    depthOf s a < depthOf s b ∨ depthOf s a = depthOf s b ∧ codeOf s a ≤ codeOf s b := by
  simp [codeBefore, depthOf, codeOf]

theorem bitsValue_lt (bs : List Bool) : bitsValue bs < 2 ^ bs.length := by
  induction bs using List.reverseRecOn with
  | nil => simp [bitsValue]
  | append_singleton bs b ih =>
    have := b.toNat_lt
    rw [bitsValue_concat, List.length_append, List.length_singleton, Nat.pow_succ]
    omega

theorem bitsValue_append (as bs : List Bool) : bitsValue (as ++ bs) = bitsValue as * 2 ^ bs.length + bitsValue bs := by
  induction bs using List.reverseRecOn with
  | nil => simp [bitsValue]
  | append_singleton bs b ih =>
    rw [← List.append_assoc, bitsValue_concat, bitsValue_concat, ih, List.length_append, List.length_singleton,
      Nat.pow_succ]
    ring

/-- A codeword that starts another is its leading bits. -/
theorem code_eq_of_codeword_starts {s : State} {a b : Symbol} (h : codeword (entryAt s a) <+: codeword (entryAt s b))
    (ha : codeOf s a < 2 ^ depthOf s a) (hb : codeOf s b < 2 ^ depthOf s b) :
    depthOf s a ≤ depthOf s b ∧ codeOf s a = codeOf s b / 2 ^ (depthOf s b - depthOf s a) := by
  rw [codeword_entryAt, codeword_entryAt] at h
  obtain ⟨bs, hbs⟩ := h
  have hlen : depthOf s a + bs.length = depthOf s b := by simpa using congrArg List.length hbs
  have hval : codeOf s a * 2 ^ bs.length + bitsValue bs = codeOf s b := by
    have := congrArg bitsValue hbs
    rwa [bitsValue_append, bitsValue_msbFirst, bitsValue_msbFirst, Nat.mod_eq_of_lt ha, Nat.mod_eq_of_lt hb] at this
  refine ⟨by omega, ?_⟩
  rw [← hlen, Nat.add_sub_cancel_left, ← hval, Nat.mul_comm, Nat.mul_add_div (Nat.two_pow_pos _),
    Nat.div_eq_of_lt (bitsValue_lt bs), Nat.add_zero]

/-! ### The canonical order -/

/-- Assignments in the canonical order from length `d` on, `c` being the next code of that length (R110, R123). -/
def followsFrom : Nat → Nat → List Assignment → Prop
  | _, _, [] => True
  | d, c, x :: l => d ≤ x.depth ∧ x.code = c * 2 ^ (x.depth - d) ∧ followsFrom x.depth (x.code + 1) l

/-- `y` comes after `x` in depth, and its code is after every extension of x's. -/
def Assignment.before (x y : Assignment) : Prop :=
  x.depth ≤ y.depth ∧ (x.code + 1) * 2 ^ (y.depth - x.depth) ≤ y.code

/-- No code is below the next one. -/
theorem followsFrom_lower {d c : Nat} {l : List Assignment} (h : followsFrom d c l) {y : Assignment} (hy : y ∈ l) :
    d ≤ y.depth ∧ c * 2 ^ (y.depth - d) ≤ y.code := by
  induction l generalizing d c with
  | nil => cases hy
  | cons x l ih =>
    obtain ⟨hd, hc, hl⟩ := h
    rcases List.mem_cons.1 hy with rfl | hy
    · exact ⟨hd, hc.ge⟩
    · obtain ⟨hxy, hle⟩ := ih hl hy
      refine ⟨hd.trans hxy, ?_⟩
      calc c * 2 ^ (y.depth - d) = x.code * 2 ^ (y.depth - x.depth) := by
            rw [hc, Nat.mul_assoc, ← Nat.pow_add]; congr 2; omega
        _ ≤ (x.code + 1) * 2 ^ (y.depth - x.depth) := Nat.mul_le_mul_right _ (Nat.le_succ _)
        _ ≤ y.code := hle

theorem followsFrom_pairwise {d c : Nat} {l : List Assignment} (h : followsFrom d c l) :
    l.Pairwise Assignment.before := by
  induction l generalizing d c with
  | nil => exact .nil
  | cons x l ih => exact .cons (fun _ hy => followsFrom_lower h.2.2 hy) (ih h.2.2)

/-- Of two assignments of a list in the canonical order one is before the other. -/
theorem before_or_before {l : List Assignment} (h : l.Pairwise Assignment.before) {x y : Assignment} (hx : x ∈ l)
    (hy : y ∈ l) (hne : x ≠ y) : x.before y ∨ y.before x := by
  have : Std.Symm fun x y : Assignment => x.before y ∨ y.before x := ⟨fun _ _ => Or.symm⟩
  have h' : l.Pairwise fun x y => x.before y ∨ y.before x := h.imp Or.inl
  exact h'.forall hx hy hne

/-- The code space up to a codeword's end is what was taken before and what the list takes. -/
theorem followsFrom_upper {d c : Nat} {l : List Assignment} (h : followsFrom d c l) (hmax : ∀ x ∈ l, x.depth ≤ 256)
    {y : Assignment} (hy : y ∈ l) :
    (y.code + 1) * share y.depth ≤ c * share d + ((l.map Assignment.depth).map share).sum := by
  induction l generalizing d c with
  | nil => cases hy
  | cons x l ih =>
    obtain ⟨hd, hc, hl⟩ := h
    have hx : x.code * share x.depth = c * share d := by
      rw [hc, Nat.mul_assoc, ← share_eq hd (hmax x (by simp))]
    simp only [List.map_cons, List.sum_cons]
    rcases List.mem_cons.1 hy with rfl | hy
    · rw [Nat.add_mul, hx]; omega
    · have := ih hl (fun z hz => hmax z (by simp [hz])) hy
      rw [Nat.add_mul x.code, hx] at this
      omega

/-- From a lower length the next code is the shifted one. -/
theorem followsFrom_of_le {d e c : Nat} {l : List Assignment} (hde : d ≤ e) (h : followsFrom e (c * 2 ^ (e - d)) l) :
    followsFrom d c l := by
  cases l with
  | nil => trivial
  | cons x l =>
    obtain ⟨hd, hc, hl⟩ := h
    refine ⟨hde.trans hd, ?_, hl⟩
    rw [hc, Nat.mul_assoc, ← Nat.pow_add]
    congr 2
    omega

/-- The canonical order is E4's chain. -/
theorem followsFrom_isChain {s : State} {l : List Assignment} {d c : Nat} (h : followsFrom d c l)
    (he : ∀ x ∈ l, depthOf s x.sym = x.depth ∧ codeOf s x.sym = x.code) :
    (l.map Assignment.sym).IsChain (CanonicalNext s) := by
  induction l generalizing d c with
  | nil => simp
  | cons x l ih =>
    cases l with
    | nil => simp
    | cons y l =>
      obtain ⟨hdx, hcx⟩ := he x (by simp)
      obtain ⟨hdy, hcy⟩ := he y (by simp)
      obtain ⟨_, _, hl⟩ := h
      refine .cons_cons ?_ (ih hl fun z hz => he z (List.mem_cons_of_mem x hz))
      rw [CanonicalNext, hdx, hcx, hdy, hcy]
      exact hl.2.1

/-! ### Canonical codes -/

/-- A canonical code: its symbols are distinct, its codes follow each other from 0, and its lengths fit. -/
structure CanonicalCode (l : List Assignment) : Prop where
  nodup : (l.map Assignment.sym).Nodup
  follows : followsFrom 0 0 l
  depths : DepthsFit (l.map Assignment.depth)

theorem canonicalCode_nil : CanonicalCode [] where
  nodup := .nil
  follows := trivial
  depths := ⟨by simp, share_pos 0, by simp⟩

/-- A symbol that no assignment names is uncoded, and its code is 0 (E2). -/
theorem assigned_or_uncoded {l : List Assignment} {s : State} (hs : s.entry = entriesOf l) (a : Symbol) :
    (∃ x ∈ l, x.sym = a) ∨ ¬ Coded s a ∧ codeOf s a = 0 := by
  by_cases h : ∃ x ∈ l, x.sym = a
  · exact .inl h
  · have he : entryAt s a = ⟨0, 0⟩ := by
      simp only [entryAt, hs]
      exact entriesOf_get_of_not_mem fun x hx hxa => h ⟨x, hx, hxa⟩
    exact .inr (by simp [depthOf, codeOf, he])

section
variable {l : List Assignment} {s : State} (hl : CanonicalCode l) (hs : s.entry = entriesOf l)
include hl

theorem CanonicalCode.depth_inRange {x : Assignment} (hx : x ∈ l) : 1 ≤ x.depth ∧ x.depth ≤ 16 :=
  hl.depths.inRange _ (List.mem_map_of_mem hx)

/-- No codeword is all ones (E1, E5). -/
theorem CanonicalCode.code_lt {x : Assignment} (hx : x ∈ l) : x.code + 1 < 2 ^ x.depth := by
  have hmax : ∀ y ∈ l, y.depth ≤ 256 := fun y hy => by have := (hl.depth_inRange hy).2; omega
  have hu := followsFrom_upper hl.follows hmax hx
  have hlt : (x.code + 1) * share x.depth < 2 ^ x.depth * share x.depth := by
    calc (x.code + 1) * share x.depth ≤ ((l.map Assignment.depth).map share).sum := by simpa using hu
      _ < share 0 := hl.depths.spaceLeft
      _ = 2 ^ x.depth * share x.depth := by simpa using share_eq (Nat.zero_le x.depth) (hmax x hx)
  exact Nat.lt_of_mul_lt_mul_right hlt

include hs

/-- The entry of an assigned symbol. -/
theorem CanonicalCode.entry_of_mem {x : Assignment} (hx : x ∈ l) :
    depthOf s x.sym = x.depth ∧ codeOf s x.sym = x.code := by
  have he : entryAt s x.sym = assignedEntry x := by
    simp only [entryAt, hs]; exact entriesOf_get_of_mem hl.nodup hx
  have hd := hl.depth_inRange hx
  have hc : x.code < 2 ^ 16 := by
    calc x.code < 2 ^ x.depth := by have := hl.code_lt hx; omega
      _ ≤ 2 ^ 16 := Nat.pow_le_pow_right (by omega) hd.2
  simp only [depthOf, codeOf, he, assignedEntry, BitVec.toNat_ofNat]
  exact ⟨Nat.mod_eq_of_lt (by omega), Nat.mod_eq_of_lt hc⟩

theorem CanonicalCode.coded_iff (a : Symbol) : Coded s a ↔ ∃ x ∈ l, x.sym = a := by
  refine ⟨fun ha => (assigned_or_uncoded hs a).resolve_right fun h => h.1 ha, ?_⟩
  rintro ⟨x, hx, rfl⟩
  have := hl.depth_inRange hx
  rw [Coded, (hl.entry_of_mem hs hx).1]
  omega

/-! ### E4: the coded symbols in order -/

/-- Assignments in the canonical order are in R125's order. -/
theorem CanonicalCode.pairwise_codeBefore :
    (l.map Assignment.sym).Pairwise fun a b => codeBefore s a b = true := by
  rw [List.pairwise_map]
  refine (followsFrom_pairwise hl.follows).imp_of_mem fun {x y} hx hy hxy => ?_
  obtain ⟨hdx, hcx⟩ := hl.entry_of_mem hs hx
  obtain ⟨hdy, hcy⟩ := hl.entry_of_mem hs hy
  have hle : (x.code + 1) * 1 ≤ (x.code + 1) * 2 ^ (y.depth - x.depth) := Nat.mul_le_mul_left _ Nat.one_le_two_pow
  have := hxy.1
  have := hxy.2
  rw [codeBefore_iff, hdx, hcx, hdy, hcy]
  omega

/-- Distinct assignments have distinct places in R125's order. -/
theorem CanonicalCode.codeBefore_antisymm {x y : Assignment} (hx : x ∈ l) (hy : y ∈ l)
    (hxy : codeBefore s x.sym y.sym = true) (hyx : codeBefore s y.sym x.sym = true) : x = y := by
  rw [codeBefore_iff, (hl.entry_of_mem hs hx).1, (hl.entry_of_mem hs hx).2, (hl.entry_of_mem hs hy).1,
    (hl.entry_of_mem hs hy).2] at hxy hyx
  have hd : x.depth = y.depth := by omega
  have hc : x.code = y.code := by omega
  by_contra hne
  rcases before_or_before (followsFrom_pairwise hl.follows) hx hy hne with h | h <;> have := h.2 <;>
    simp only [hd, Nat.sub_self] at this <;> omega

/-- The coded symbols in R125's order are the assigned ones in the canonical order. -/
theorem CanonicalCode.codedSequence_eq : codedSequence s = l.map Assignment.sym := by
  have perm : (allSymbols.filter fun a => decide ((entryAt s a).depth ≠ 0)).Perm (l.map Assignment.sym) := by
    refine (List.perm_ext_iff_of_nodup (nodup_allSymbols.filter _) hl.nodup).2 fun a => ?_
    have hc : (entryAt s a).depth ≠ 0 ↔ Coded s a := by
      rw [Coded, depthOf, ← BitVec.toNat_ne_iff_ne]; exact Nat.pos_iff_ne_zero.symm
    simp only [List.mem_filter, mem_allSymbols, true_and, decide_eq_true_eq, hc, hl.coded_iff hs a, List.mem_map]
  have total : Std.Total fun a b => codeBefore s a b = true := ⟨fun a b => by simp only [codeBefore_iff]; omega⟩
  have trans : IsTrans Symbol fun a b => codeBefore s a b = true :=
    ⟨fun a b c => by simp only [codeBefore_iff]; omega⟩
  refine List.Perm.eq_of_pairwise ?_ (List.pairwise_insertionSort _ _) (hl.pairwise_codeBefore hs)
    ((List.perm_insertionSort _ _).trans perm)
  intro a b ha hb hab hba
  obtain ⟨x, hx, rfl⟩ := List.mem_map.1 (perm.subset ((List.perm_insertionSort _ _).subset ha))
  obtain ⟨y, hy, rfl⟩ := List.mem_map.1 hb
  rw [hl.codeBefore_antisymm hs hx hy hab hba]

/-! ### E3: the codewords -/

/-- Of two codewords of a canonical code none starts the other: a later code is past every extension of an earlier one. -/
theorem CanonicalCode.not_starts {x y : Assignment} (hx : x ∈ l) (hy : y ∈ l) (hne : x ≠ y) :
    ¬ codeword (entryAt s x.sym) <+: codeword (entryAt s y.sym) := by
  intro h
  obtain ⟨hdx, hcx⟩ := hl.entry_of_mem hs hx
  obtain ⟨hdy, hcy⟩ := hl.entry_of_mem hs hy
  have hxlt := hl.code_lt hx
  have hylt := hl.code_lt hy
  obtain ⟨hle, heq⟩ := code_eq_of_codeword_starts h (by rw [hdx, hcx]; omega) (by rw [hdy, hcy]; omega)
  rw [hdx, hdy] at hle
  rw [hcx, hcy, hdx, hdy] at heq
  rcases before_or_before (followsFrom_pairwise hl.follows) hx hy hne with hb | hb
  · have := (Nat.le_div_iff_mul_le (Nat.two_pow_pos _)).2 hb.2
    omega
  · have hd : y.depth = x.depth := Nat.le_antisymm hb.1 hle
    have := hb.2
    simp only [hd, Nat.sub_self, Nat.pow_zero, Nat.div_one, Nat.mul_one] at heq this
    omega

/-! ### E6: the counts -/

/-- The symbols of a length are the assignments of it. -/
theorem CanonicalCode.depthCount_eq {L : Nat} (hL : 1 ≤ L) : depthCount s L = (l.map Assignment.depth).count L := by
  have hf : depthCount s L = (codedSequence s).countP fun a => (entryAt s a).depth.toNat == L := by
    rw [codedSequence, (List.perm_insertionSort _ _).countP_eq, List.countP_filter]
    refine List.countP_congr fun a _ => ?_
    have : (entryAt s a).depth.toNat = L → (entryAt s a).depth ≠ 0 := by
      intro h h0; rw [h0] at h; simp at h; omega
    simpa using this
  rw [hf, hl.codedSequence_eq hs, List.countP_map, List.count, List.countP_map]
  refine List.countP_congr fun x hx => ?_
  have hd : (entryAt s x.sym).depth.toNat = x.depth := (hl.entry_of_mem hs hx).1
  simp [hd]

/-- A canonical code's entries satisfy E1 to E6 (R32). -/
theorem CanonicalCode.entryInvariant : EntryInvariant s where
  depthAndCodeFit a ha := by
    obtain ⟨x, hx, rfl⟩ := (hl.coded_iff hs a).1 ha
    obtain ⟨hd, hc⟩ := hl.entry_of_mem hs hx
    have := hl.code_lt hx
    rw [hd, hc]
    exact ⟨(hl.depth_inRange hx).2, by omega⟩
  uncodedIsZero a ha := by
    rcases assigned_or_uncoded hs a with h | h
    · exact absurd ((hl.coded_iff hs a).2 h) ha
    · exact h.2
  prefixFree a ha b hb hab := by
    obtain ⟨x, hx, rfl⟩ := (hl.coded_iff hs a).1 ha
    obtain ⟨y, hy, rfl⟩ := (hl.coded_iff hs b).1 hb
    exact hl.not_starts hs hx hy fun h => hab (h ▸ rfl)
  firstCodeIsZero a ha := by
    rw [hl.codedSequence_eq hs] at ha
    obtain ⟨x, hx, rfl⟩ := by simpa using ha
    rw [(hl.entry_of_mem hs (List.mem_of_mem_head? hx)).2]
    cases l with
    | nil => cases hx
    | cons y l =>
      cases hx
      obtain ⟨_, hc, _⟩ := hl.follows
      simpa using hc
  canonical := by
    rw [hl.codedSequence_eq hs]
    exact followsFrom_isChain hl.follows fun x hx => hl.entry_of_mem hs hx
  noAllOnes a ha _ := by
    obtain ⟨x, hx, rfl⟩ := (hl.coded_iff hs a).1 ha
    obtain ⟨hd, hc⟩ := hl.entry_of_mem hs hx
    have := hl.code_lt hx
    rw [hd, hc]
    omega
  countFits L hL := by
    rw [hl.depthCount_eq hs hL]
    exact hl.depths.countFits L

end

end Sys2Proof.Machine
end

section
/-! SUPPORT. The code of a valid table is canonical (spec/42_table_codec.md R121 to R123). -/

namespace Sys2Proof.Machine

/-! ### Lengths by their counts -/

/-- Length L, `f L` times, for L in 1..16 (R108, R123). -/
def lengthsBy (f : Nat → Nat) : List Nat := lengths.flatMap fun L => List.replicate (f L) L

theorem mem_lengthsBy {f : Nat → Nat} {d : Nat} (h : d ∈ lengthsBy f) : (1 ≤ d ∧ d ≤ 16) ∧ 0 < f d := by
  obtain ⟨L, hL, hd⟩ := List.mem_flatMap.1 h
  obtain ⟨hf, rfl⟩ := List.mem_replicate.1 hd
  exact ⟨mem_lengths.1 hL, Nat.pos_of_ne_zero hf⟩

theorem sum_map_lengths (g : Nat → Nat) : (lengths.map g).sum = ∑ L ∈ Finset.Icc 1 16, g L := rfl

theorem count_lengthsBy (f : Nat → Nat) (d : Nat) : (lengthsBy f).count d ≤ f d := by
  have h : (lengthsBy f).count d = ∑ L ∈ Finset.Icc 1 16, if L = d then f L else 0 := by
    rw [lengthsBy, List.count_flatMap, ← sum_map_lengths]
    simp [Function.comp_def, List.count_replicate]
  rw [h, Finset.sum_ite_eq']
  split <;> omega

theorem sum_lengthsBy (f w : Nat → Nat) :
    ((lengthsBy f).map w).sum = ∑ L ∈ Finset.Icc 1 16, f L * w L := by
  rw [← sum_map_lengths]
  simp [lengthsBy, List.flatMap, List.map_flatten, List.sum_flatten, Function.comp_def]

/-! ### The table's order -/

/-- The values of the lengths 1..n, in order, are the first ones of the section (R121). -/
theorem flatMap_canonIndex (m : Memory) (n : Nat) :
    ((List.range' 1 n).flatMap fun L => (List.range (tableCount m L)).map (canonIndex m L + ·)) =
      List.range (canonIndex m (n + 1)) := by
  induction n with
  | zero => simp [canonIndex]
  | succ n ih =>
    have hs : canonIndex m (n + 1 + 1) = canonIndex m (n + 1) + tableCount m (n + 1) := rfl
    rw [List.range'_concat, List.flatMap_append, ih, hs, List.range_add]
    simp [Nat.add_comm 1 n]

theorem canonIndex_eq_sum (m : Memory) (n : Nat) :
    canonIndex m (n + 1) = ((List.range' 1 n).map (tableCount m)).sum := by
  induction n with
  | zero => simp [canonIndex]
  | succ n ih => rw [canonIndex, ih, List.range'_concat]; simp [Nat.add_comm]

/-- The assignments' symbols are the table's, in its order (R123). -/
theorem tableAssignments_sym (m : Memory) : (tableAssignments m).map Assignment.sym = tableSymbols m := by
  have h := congrArg (List.map (tableValue m)) (flatMap_canonIndex m 16)
  rw [canonIndex_eq_sum] at h
  rw [tableSymbols, tableSize, lengths, ← h]
  simp [tableAssignments, lengths, List.map_flatMap, Function.comp_def]

theorem tableAssignments_depth (m : Memory) : (tableAssignments m).map Assignment.depth = lengthsBy (tableCount m) := by
  simp [tableAssignments, lengthsBy, List.map_flatMap, Function.comp_def]

/-- A length's codes follow each other. -/
theorem followsFrom_block (L c n : Nat) (v : Nat → Symbol) {l : List Assignment} (h : followsFrom L (c + n) l) :
    followsFrom L c (((List.range n).map fun k => ⟨v k, L, c + k⟩) ++ l) := by
  induction n generalizing c v with
  | zero => simpa using h
  | succ n ih =>
    rw [List.range_succ_eq_map]
    refine ⟨Nat.le_refl L, by simp, ?_⟩
    have := ih (c + 1) (fun k => v (k + 1)) (by rwa [Nat.add_right_comm])
    simpa [Function.comp_def, Nat.add_comm, Nat.add_left_comm, Nat.add_assoc] using this

/-- The table's codes follow each other (R121, R123). -/
theorem followsFrom_tableAssignments (m : Memory) : followsFrom 0 0 (tableAssignments m) := by
  have h : ∀ n L, followsFrom L (canonFirst m L) ((List.range' L n).flatMap fun L =>
      (List.range (tableCount m L)).map fun k => ⟨tableValue m (canonIndex m L + k), L, canonFirst m L + k⟩) := by
    intro n
    induction n with
    | zero => intro L; trivial
    | succ n ih =>
      intro L
      rw [List.range'_succ, List.flatMap_cons]
      refine followsFrom_block _ _ _ _ (followsFrom_of_le (Nat.le_succ L) ?_)
      simpa [canonFirst, Nat.shiftLeft_eq] using ih (L + 1)
  exact followsFrom_of_le (Nat.zero_le 1) (h 16 1)

/-! ### The table's code space -/

/-- The code space the lengths 1..n take ends where their codes end (R121). -/
theorem sum_share_tableCount (m : Memory) {n : Nat} (hn : n ≤ 256) :
    ∑ L ∈ Finset.Icc 1 n, tableCount m L * share L = (canonFirst m n + tableCount m n) * share n := by
  induction n with
  | zero => simp [canonFirst]
  | succ n ih =>
    rw [Finset.sum_Icc_succ_top (by omega), ih (by omega), share_eq_two_mul (by omega : n < 256), canonFirst,
      Nat.shiftLeft_eq]
    ring

theorem greatestUsed_eq_zero {f : Nat → Nat} {n : Nat} (h : ∀ d, 1 ≤ d → d ≤ n → f d = 0) : greatestUsed f n = 0 := by
  induction n with
  | zero => rfl
  | succ n ih =>
    rw [greatestUsed, h (n + 1) (by omega) (Nat.le_refl _), if_neg (Nat.lt_irrefl 0)]
    exact ih fun d h1 h2 => h d h1 (by omega)

/-- V4, for a table with no codes too (R122). -/
theorem lastCode_lt_of_tableValid {m : Memory} (h : tableValid m = true) :
    canonFirst m (longestLength m) + tableCount m (longestLength m) < 2 ^ longestLength m := by
  simp only [tableValid, Bool.and_eq_true, Bool.or_eq_true, decide_eq_true_eq] at h
  obtain ⟨_, _, _, h0 | h4⟩ := h
  · rw [tableSize, sum_map_lengths, Finset.sum_eq_zero_iff] at h0
    rw [longestLength, greatestUsed_eq_zero fun d h1 h2 => h0 d (Finset.mem_Icc.2 ⟨h1, h2⟩)]
    simp [canonFirst]
  · exact h4

theorem tableValid_depthsFit {m : Memory} (h : tableValid m = true) : DepthsFit (lengthsBy (tableCount m)) where
  inRange _ hd := (mem_lengthsBy hd).1
  spaceLeft := by
    have hle : longestLength m ≤ 16 := greatestUsed_le _ _
    have hs : ∑ L ∈ Finset.Icc 1 16, tableCount m L * share L =
        ∑ L ∈ Finset.Icc 1 (longestLength m), tableCount m L * share L := by
      refine (Finset.sum_subset (Finset.Icc_subset_Icc_right hle) fun L hL hn => ?_).symm
      rw [Finset.mem_Icc] at hL hn
      rw [longestLength, Config.maxlen] at hn
      have hz : tableCount m L = 0 := eq_zero_of_greatestUsed_lt (n := 16) (by omega) hL.2
      rw [hz, Nat.zero_mul]
    rw [sum_lengthsBy, hs, sum_share_tableCount m (by omega), share_eq (Nat.zero_le (longestLength m)) (by omega)]
    exact Nat.mul_lt_mul_of_pos_right (by simpa using lastCode_lt_of_tableValid h) (share_pos _)
  countFits L := (count_lengthsBy _ L).trans (tableCount_le m L)

/-- The code of a valid table is canonical (R122, R123). -/
theorem canonicalCode_tableAssignments {m : Memory} (h : tableValid m = true) : CanonicalCode (tableAssignments m) where
  nodup := by
    rw [tableAssignments_sym]
    simp only [tableValid, Bool.and_eq_true, decide_eq_true_eq] at h
    exact h.2.1
  follows := followsFrom_tableAssignments m
  depths := tableAssignments_depth m ▸ tableValid_depthsFit h

end Sys2Proof.Machine
end

section
/-! SUPPORT. The code Build gives is canonical (spec/41_builder.md R103 to R112): the merges make one tree, its depths take the
whole code space, the length limit keeps that, and withholding the longest codeword leaves space over. -/

namespace Sys2Proof.Machine

/-! ### Steps 1 to 3: one tree of all leaves (R103 to R105) -/

/-- The number of leaves of a tree. -/
def Tree.size : Tree → Nat
  | .leaf _ => 1
  | .node l r => l.size + r.size

theorem Tree.size_pos (t : Tree) : 0 < t.size := by
  induction t with
  | leaf => exact Nat.one_pos
  | node l r ihl _ => exact Nat.add_pos_left ihl _

theorem length_leafDepths (d : Nat) (t : Tree) : (leafDepths d t).length = t.size := by
  induction t generalizing d with
  | leaf => rfl
  | node l r ihl ihr => simp [leafDepths, Tree.size, ihl, ihr]

/-- A tree of n leaves has depth below n. -/
theorem leafDepths_lt {d : Nat} {t : Tree} {x : Nat × Nat} (h : x ∈ leafDepths d t) : x.2 < d + t.size := by
  induction t generalizing d with
  | leaf id =>
    rw [leafDepths, List.mem_singleton] at h
    subst h
    simp [Tree.size]
  | node l r ihl ihr =>
    rw [leafDepths, List.mem_append] at h
    have := l.size_pos
    have := r.size_pos
    rcases h with h | h
    · have := ihl h; rw [Tree.size]; omega
    · have := ihr h; rw [Tree.size]; omega

/-- The leaves below a node take its code space. -/
theorem sum_share_leafDepths {d : Nat} {t : Tree} (h : d + t.size ≤ 257) :
    ((leafDepths d t).map fun x => share x.2).sum = share d := by
  induction t generalizing d with
  | leaf id => simp [leafDepths]
  | node l r ihl ihr =>
    rw [Tree.size] at h
    have := l.size_pos
    have := r.size_pos
    rw [leafDepths, List.map_append, List.sum_append, ihl (by omega), ihr (by omega), share_eq_two_mul (by omega : d < 256)]
    omega

/-- The least node and the others are the nodes (R104). -/
theorem takeLeast_perm (x : Node) (l : List Node) : ((takeLeast x l).1 :: (takeLeast x l).2).Perm (x :: l) := by
  induction l generalizing x with
  | nil => exact .refl _
  | cons y l ih =>
    rw [takeLeast]
    split
    · exact (List.Perm.swap _ _ _).trans ((ih y).cons x)
    · exact (List.Perm.swap _ _ _).trans (((ih x).cons y).trans (List.Perm.swap _ _ _))

/-- The leaves of all nodes. -/
def totalSize (A : List Node) : Nat := (A.map fun n => n.tree.size).sum

theorem totalSize_perm {A B : List Node} (h : A.Perm B) : totalSize A = totalSize B := (h.map _).sum_eq

/-- The merges end with one root over all the leaves (R104). -/
theorem mergeNodes_root (fuel id : Nat) {A : List Node} (hne : A ≠ []) (hf : A.length ≤ fuel + 1) :
    ∃ n, mergeNodes fuel id A = [n] ∧ n.tree.size = totalSize A := by
  induction fuel generalizing id A with
  | zero =>
    obtain ⟨n, rfl⟩ := List.length_eq_one_iff.1 (show A.length = 1 by have := List.length_pos_iff.2 hne; omega)
    exact ⟨n, rfl, by simp [totalSize]⟩
  | succ fuel ih =>
    obtain ⟨x, l, rfl⟩ := List.exists_cons_of_ne_nil hne
    have hp := takeLeast_perm x l
    rw [mergeNodes]
    rcases h : takeLeast x l with ⟨n1, _ | ⟨y, l'⟩⟩ <;> rw [h] at hp
    · exact ⟨n1, rfl, by simpa [totalSize] using totalSize_perm hp⟩
    · have hp' := takeLeast_perm y l'
      have hlen : l'.length + 1 = l.length := by simpa using hp.length_eq
      have hlen' : (takeLeast y l').2.length = l'.length := by simpa using hp'.length_eq
      obtain ⟨n, hn, hs⟩ := ih (id + 1) (A := ⟨n1.weight + (takeLeast y l').1.weight, id,
        .node n1.tree (takeLeast y l').1.tree⟩ :: (takeLeast y l').2) (by simp) (by simp at hf ⊢; omega)
      refine ⟨n, hn, hs.trans ?_⟩
      have h1 := totalSize_perm hp
      have h2 := totalSize_perm hp'
      simp only [totalSize, List.map_cons, List.sum_cons, Tree.size] at h1 h2 ⊢
      omega

theorem length_present_le (freq : Vector Word 256) : (present freq).length ≤ 256 := by
  simpa [present] using List.length_filter_le (fun a => decide (0 < weightOf freq a)) (List.range 256)

/-- The depths are those of one tree with a leaf for every present symbol and the pseudo-leaf (R103 to R105). -/
theorem unconstrainedDepths_eq (freq : Vector Word 256) :
    ∃ t : Tree, t.size = (present freq).length + 1 ∧ unconstrainedDepths freq = leafDepths 0 t := by
  obtain ⟨n, hn, hs⟩ := mergeNodes_root (leavesOf freq).length 257 (A := leavesOf freq) (by simp [leavesOf]) (by omega)
  refine ⟨n.tree, ?_, by simp [unconstrainedDepths, hn]⟩
  rw [hs]
  simp [totalSize, leavesOf, Tree.size, Function.comp_def]

/-! ### Counts of lengths under weights -/

/-- The sum of a weight over all leaves, BITS[d] of them at depth d. -/
def weigh (w : Nat → Nat) (bits : List Nat) : Nat := ∑ d ∈ Finset.range 257, bitsAt bits d * w d

/-- BITS of a full code of `n` leaves: they take the whole code space (R105, R106). -/
structure FullCode (n : Nat) (bits : List Nat) : Prop where
  length : bits.length = 257
  leaves : weigh (fun _ => 1) bits = n
  full : weigh share bits = share 0

theorem bitsAt_modify (bits : List Nat) (k d : Nat) (f : Nat → Nat) (hk : k < bits.length) :
    bitsAt (bits.modify k f) d = if d = k then f (bitsAt bits d) else bitsAt bits d := by
  by_cases hd : d = k
  · subst hd; simp [bitsAt, hk]
  · simp [bitsAt, hd, Ne.symm hd]

/-- A change of one count changes the sum by its weight. -/
theorem weigh_modify (w : Nat → Nat) {bits : List Nat} (hl : bits.length = 257) {k : Nat} (hk : k < 257) (f : Nat → Nat) :
    weigh w (bits.modify k f) + bitsAt bits k * w k = weigh w bits + f (bitsAt bits k) * w k := by
  have hmem : k ∈ Finset.range 257 := Finset.mem_range.2 hk
  have hrest : ∑ d ∈ (Finset.range 257).erase k, bitsAt (bits.modify k f) d * w d =
      ∑ d ∈ (Finset.range 257).erase k, bitsAt bits d * w d :=
    Finset.sum_congr rfl fun d hd => by rw [bitsAt_modify _ _ _ _ (by omega), if_neg (Finset.ne_of_mem_erase hd)]
  rw [weigh, weigh, ← Finset.add_sum_erase _ _ hmem, ← Finset.add_sum_erase _ _ hmem, hrest,
    bitsAt_modify _ _ _ _ (by omega), if_pos rfl]
  omega

theorem weigh_modify_add (w : Nat → Nat) {bits : List Nat} (hl : bits.length = 257) {k : Nat} (hk : k < 257) (m : Nat) :
    weigh w (bits.modify k (· + m)) = weigh w bits + m * w k := by
  have := weigh_modify w hl hk (· + m)
  rw [Nat.add_mul] at this
  omega

theorem weigh_modify_sub (w : Nat → Nat) {bits : List Nat} (hl : bits.length = 257) {k : Nat} (hk : k < 257) {m : Nat}
    (hm : m ≤ bitsAt bits k) : weigh w (bits.modify k (· - m)) + m * w k = weigh w bits := by
  have := weigh_modify w hl hk (· - m)
  rw [Nat.sub_mul] at this
  have := Nat.mul_le_mul_right (w k) hm
  omega

theorem bitsAt_histogram (uds : List (Nat × Nat)) {d : Nat} (hd : d < 257) :
    bitsAt (histogram uds) d = uds.countP fun x => x.2 == d := by
  simp [bitsAt, histogram, hd]

theorem weigh_histogram (w : Nat → Nat) {uds : List (Nat × Nat)} (h : ∀ x ∈ uds, x.2 < 257) :
    weigh w (histogram uds) = (uds.map fun x => w x.2).sum := by
  have hc : weigh w (histogram uds) = ∑ d ∈ Finset.range 257, (uds.countP fun x => x.2 == d) * w d :=
    Finset.sum_congr rfl fun d hd => by rw [bitsAt_histogram _ (Finset.mem_range.1 hd)]
  rw [hc]
  clear hc
  induction uds with
  | nil => simp
  | cons x uds ih =>
    have hx : x.2 ∈ Finset.range 257 := Finset.mem_range.2 (h x (by simp))
    simp only [List.countP_cons, Nat.add_mul, Finset.sum_add_distrib, List.map_cons, List.sum_cons]
    rw [ih fun y hy => h y (by simp [hy]), Nat.add_comm]
    simp [hx]

/-- The unconstrained depths are a full code's (R105). -/
theorem fullCode_histogram (freq : Vector Word 256) :
    FullCode ((present freq).length + 1) (histogram (unconstrainedDepths freq)) := by
  obtain ⟨t, hsize, ht⟩ := unconstrainedDepths_eq freq
  have hle := length_present_le freq
  have hlt : ∀ x ∈ leafDepths 0 t, x.2 < 257 := fun x hx => by have := leafDepths_lt hx; omega
  rw [ht]
  exact {
    length := by simp [histogram]
    leaves := by rw [weigh_histogram _ hlt]; simp [length_leafDepths, hsize]
    full := by rw [weigh_histogram _ hlt, sum_share_leafDepths (by omega)] }

theorem bitsAt_of_length_le {bits : List Nat} {d : Nat} (h : bits.length ≤ d) : bitsAt bits d = 0 := by
  simp [bitsAt, h]

/-! ### Step 4: the length limit (R106) -/

section
variable {n : Nat} {bits : List Nat}

/-- In a code of two leaves or more no leaf has depth 0. -/
theorem FullCode.bitsAt_zero (h : FullCode n bits) (hn : 2 ≤ n) : bitsAt bits 0 = 0 := by
  have hl := h.leaves
  have hf := h.full
  rw [weigh, Finset.sum_range_succ'] at hl hf
  have hle : ∑ d ∈ Finset.range 256, bitsAt bits (d + 1) * 1 ≤
      ∑ d ∈ Finset.range 256, bitsAt bits (d + 1) * share (d + 1) :=
    Finset.sum_le_sum fun d _ => Nat.mul_le_mul_left _ (share_pos _)
  by_contra h0
  have h1 : share 0 ≤ bitsAt bits 0 * share 0 := Nat.le_mul_of_pos_left _ (Nat.pos_of_ne_zero h0)
  have h2 : 2 * share 0 ≤ bitsAt bits 0 * share 0 := Nat.mul_le_mul_right _ (by omega)
  have := share_pos 0
  omega

/-- At the deepest used level the count is even (R106). -/
theorem FullCode.two_dvd_bitsAt (h : FullCode n bits) {i : Nat} (h1 : 1 ≤ i) (h256 : i ≤ 256)
    (hz : ∀ d, i < d → bitsAt bits d = 0) : 2 ∣ bitsAt bits i := by
  have dvd_share : ∀ d, d < i → 2 * share i ∣ share d := fun d hd =>
    ⟨2 ^ (i - 1 - d), by
      rw [share_eq (show d ≤ i by omega) h256, show i - d = i - 1 - d + 1 by omega, Nat.pow_succ]; ring⟩
  have hmem : i ∈ Finset.range 257 := Finset.mem_range.2 (by omega)
  have hf := h.full
  rw [weigh, ← Finset.add_sum_erase _ _ hmem] at hf
  have hrest : 2 * share i ∣ ∑ d ∈ (Finset.range 257).erase i, bitsAt bits d * share d := by
    refine Finset.dvd_sum fun d hd => ?_
    rcases Nat.lt_trichotomy d i with hlt | heq | hgt
    · exact Dvd.dvd.mul_left (dvd_share d hlt) _
    · exact absurd heq (Finset.ne_of_mem_erase hd)
    · rw [hz d hgt, Nat.zero_mul]; exact dvd_zero _
  have hi : 2 * share i ∣ bitsAt bits i * share i :=
    (Nat.dvd_add_left hrest).1 (hf ▸ dvd_share 0 (by omega))
  exact Nat.dvd_of_mul_dvd_mul_right (share_pos i) hi

/-- Some level below 16 is used: 257 leaves from depth 16 on take less than the whole code space. -/
theorem FullCode.exists_used (h : FullCode n bits) (hn' : n ≤ 257) : ∃ d, d < 16 ∧ 0 < bitsAt bits d := by
  by_contra hno
  have hz : ∀ d, d < 16 → bitsAt bits d = 0 := fun d hd => by
    by_contra h0
    exact hno ⟨d, hd, Nat.pos_of_ne_zero h0⟩
  have hle : weigh share bits ≤ weigh (fun _ => 1) bits * share 16 := by
    rw [weigh, weigh, Finset.sum_mul]
    refine Finset.sum_le_sum fun d _ => ?_
    by_cases hd : d < 16
    · simp [hz d hd]
    · rw [Nat.mul_one]
      exact Nat.mul_le_mul_left _ (share_anti (by omega))
  rw [h.full, h.leaves, share_eq (Nat.zero_le 16) (by omega)] at hle
  have := Nat.le_of_mul_le_mul_right hle (share_pos 16)
  omega

/-- The level the limit borrows from is used, and is not level 0 (R106). -/
theorem FullCode.greatestUsed_pos (h : FullCode n bits) (hn : 2 ≤ n) (hn' : n ≤ 257) {m : Nat} (hm : 15 ≤ m) :
    0 < bitsAt bits (greatestUsed (bitsAt bits) m) := by
  obtain ⟨d, hd, hpos⟩ := h.exists_used hn'
  have h0 := h.bitsAt_zero hn
  have hd1 : 1 ≤ d := Nat.pos_of_ne_zero fun h => by rw [h] at hpos; omega
  exact (Machine.greatestUsed_pos hd1 (by omega) hpos).2

end

/-- What one turn of the limit does to the counts at level i and above, and to every sum of weights (R106). -/
theorem limitOnce_spec {bits : List Nat} {i : Nat} (hl : bits.length = 257) (hi : 2 ≤ i) (hi' : i ≤ 256)
    (h2 : 2 ≤ bitsAt bits i) (hj : 0 < bitsAt bits (greatestUsed (bitsAt bits) (i - 2))) :
    (limitOnce i bits).length = 257 ∧ bitsAt (limitOnce i bits) i = bitsAt bits i - 2 ∧
    (∀ d, i < d → bitsAt (limitOnce i bits) d = bitsAt bits d) ∧
    ∀ w, weigh w (limitOnce i bits) + 2 * w i + w (greatestUsed (bitsAt bits) (i - 2)) =
      weigh w bits + w (i - 1) + 2 * w (greatestUsed (bitsAt bits) (i - 2) + 1) := by
  have hle := greatestUsed_le (bitsAt bits) (i - 2)
  unfold limitOnce
  dsimp only
  generalize greatestUsed (bitsAt bits) (i - 2) = j at hj hle ⊢
  -- the four updates of R106, one by one
  obtain ⟨b1, hb1⟩ : ∃ b, b = bits.modify i (· - 2) := ⟨_, rfl⟩
  obtain ⟨b2, hb2⟩ : ∃ b, b = b1.modify (i - 1) (· + 1) := ⟨_, rfl⟩
  obtain ⟨b3, hb3⟩ : ∃ b, b = b2.modify (j + 1) (· + 2) := ⟨_, rfl⟩
  rw [← hb1, ← hb2, ← hb3]
  have l1 : b1.length = 257 := by simp [hb1, hl]
  have l2 : b2.length = 257 := by simp [hb2, l1]
  have l3 : b3.length = 257 := by simp [hb3, l2]
  have e1 (d : Nat) : bitsAt b1 d = if d = i then bitsAt bits d - 2 else bitsAt bits d :=
    hb1 ▸ bitsAt_modify _ _ _ _ (by omega)
  have e2 (d : Nat) (hd : d ≠ i - 1) : bitsAt b2 d = bitsAt b1 d := by
    rw [hb2, bitsAt_modify _ _ _ _ (by omega), if_neg hd]
  have e3 (d : Nat) (hd : d ≠ j + 1) : bitsAt b3 d = bitsAt b2 d := by
    rw [hb3, bitsAt_modify _ _ _ _ (by omega), if_neg hd]
  have high (d : Nat) (hd : i ≤ d) : bitsAt (b3.modify j (· - 1)) d = bitsAt b1 d := by
    rw [bitsAt_modify _ _ _ _ (by omega), if_neg (by omega), e3 d (by omega), e2 d (by omega)]
  have hj3 : bitsAt b3 j = bitsAt bits j := by rw [e3 j (by omega), e2 j (by omega), e1, if_neg (by omega)]
  refine ⟨by simp [l3], ?_, fun d hd => ?_, fun w => ?_⟩
  · rw [high i (Nat.le_refl i), e1, if_pos rfl]
  · rw [high d (by omega), e1, if_neg (by omega)]
  · have w1 := weigh_modify_sub w hl (k := i) (by omega) h2
    have w2 := weigh_modify_add w l1 (k := i - 1) (by omega) 1
    have w3 := weigh_modify_add w l2 (k := j + 1) (by omega) 2
    have w4 := weigh_modify_sub w l3 (k := j) (by omega) (show 1 ≤ bitsAt b3 j by omega)
    rw [← hb1] at w1
    rw [← hb2] at w2
    rw [← hb3] at w3
    omega

/-- A turn of the limit keeps the code full (R106). -/
theorem FullCode.limitOnce {n : Nat} {bits : List Nat} (h : FullCode n bits) {i : Nat} (hi : 2 ≤ i) (hi' : i ≤ 256)
    (h2 : 2 ≤ bitsAt bits i) (hj : 0 < bitsAt bits (greatestUsed (bitsAt bits) (i - 2))) :
    FullCode n (limitOnce i bits) := by
  obtain ⟨hlen, _, _, hw⟩ := limitOnce_spec h.length hi hi' h2 hj
  have hle := greatestUsed_le (bitsAt bits) (i - 2)
  refine ⟨hlen, ?_, ?_⟩
  · have := hw fun _ => 1
    have := h.leaves
    omega
  · have hs := hw share
    rw [share_eq_two_mul (by omega : i - 1 < 256), Nat.sub_add_cancel (by omega : 1 ≤ i),
      share_eq_two_mul (by omega : greatestUsed (bitsAt bits) (i - 2) < 256), h.full] at hs
    omega

/-- The turns at a level empty it (R106). -/
theorem limitLevel_spec {n : Nat} (hn : 2 ≤ n) (hn' : n ≤ 257) {i : Nat} (hi : 17 ≤ i) (hi' : i ≤ 256) {fuel : Nat}
    {bits : List Nat} (h : FullCode n bits) (hz : ∀ d, i < d → bitsAt bits d = 0) (hfuel : bitsAt bits i ≤ fuel) :
    FullCode n (limitLevel fuel i bits) ∧ ∀ d, i ≤ d → bitsAt (limitLevel fuel i bits) d = 0 := by
  induction fuel generalizing bits with
  | zero =>
    refine ⟨h, fun d hd => ?_⟩
    rcases Nat.eq_or_lt_of_le hd with rfl | hd
    · exact Nat.le_zero.1 hfuel
    · exact hz d hd
  | succ fuel ih =>
    rw [limitLevel]
    split
    · next hpos =>
      have h2 : 2 ≤ bitsAt bits i := Nat.le_of_dvd hpos (h.two_dvd_bitsAt (by omega) hi' hz)
      have hj := h.greatestUsed_pos hn hn' (m := i - 2) (by omega)
      obtain ⟨_, hsame, habove, _⟩ := limitOnce_spec h.length (by omega) hi' h2 hj
      exact ih (h.limitOnce (by omega) hi' h2 hj) (fun d hd => (habove d hd).trans (hz d hd)) (by omega)
    · next hpos =>
      refine ⟨h, fun d hd => ?_⟩
      rcases Nat.eq_or_lt_of_le hd with rfl | hd
      · omega
      · exact hz d hd

/-- The limit keeps the code full and leaves no length above 16 (R106). -/
theorem limitLengths_spec {n : Nat} (hn : 2 ≤ n) (hn' : n ≤ 257) {bits : List Nat} (h : FullCode n bits) :
    FullCode n (limitLengths bits) ∧ ∀ d, 17 ≤ d → bitsAt (limitLengths bits) d = 0 := by
  have turns : ∀ k, k ≤ 240 →
      let b := (List.range k).foldl (fun b t => limitLevel (bitsAt b (256 - t)) (256 - t) b) bits
      FullCode n b ∧ ∀ d, 257 - k ≤ d → bitsAt b d = 0 := by
    intro k hk
    induction k with
    | zero => exact ⟨h, fun d hd => bitsAt_of_length_le (bits := bits) (by rw [h.length]; exact hd)⟩
    | succ k ih =>
      obtain ⟨hfull, hz⟩ := ih (by omega)
      simp only [List.range_succ, List.foldl_append, List.foldl_cons, List.foldl_nil]
      obtain ⟨hfull', hz'⟩ := limitLevel_spec hn hn' (i := 256 - k) (by omega) (by omega) hfull
        (fun d hd => hz d (by omega)) (Nat.le_refl _)
      exact ⟨hfull', fun d hd => hz' d (by omega)⟩
  exact turns 240 (Nat.le_refl _)

/-! ### Steps 5 and 6: the lengths handed out (R107, R108) -/

/-- Sums over all leaves are sums over the lengths 1..16, when no leaf has another. -/
theorem weigh_eq_sum_lengthSequence (w : Nat → Nat) {bits : List Nat} (h0 : bitsAt bits 0 = 0)
    (hz : ∀ d, 17 ≤ d → bitsAt bits d = 0) : weigh w bits = ((lengthSequence bits).map w).sum := by
  rw [show lengthSequence bits = lengthsBy (bitsAt bits) from rfl, sum_lengthsBy, weigh]
  refine (Finset.sum_subset (fun d hd => ?_) fun d _ hd => ?_).symm
  · rw [Finset.mem_Icc] at hd
    exact Finset.mem_range.2 (by omega)
  · rw [Finset.mem_Icc] at hd
    have : bitsAt bits d = 0 := by
      rcases Nat.eq_zero_or_pos d with rfl | hpos
      · exact h0
      · exact hz d (by omega)
    rw [this, Nat.zero_mul]

/-- When one level has all the leaves, a sum over the leaves is that level's. -/
theorem weigh_of_one_level (w : Nat → Nat) {bits : List Nat} {L : Nat} (hL : L < 257)
    (h : weigh (fun _ => 1) bits ≤ bitsAt bits L) : weigh w bits = bitsAt bits L * w L := by
  have hmem : L ∈ Finset.range 257 := Finset.mem_range.2 hL
  rw [weigh, ← Finset.add_sum_erase _ _ hmem] at h
  have hrest : ∑ d ∈ (Finset.range 257).erase L, bitsAt bits d * 1 = 0 := by omega
  rw [weigh, ← Finset.add_sum_erase _ _ hmem, Finset.sum_eq_zero, Nat.add_zero]
  intro d hd
  have := Finset.sum_eq_zero_iff.1 hrest d hd
  rw [Nat.mul_one] at this
  rw [this, Nat.zero_mul]

/-- 256 codewords of one length and a withheld one as long or longer do not fill the code space: the first share is even, in
units of the withheld one, and so is the whole. -/
theorem share_ne_of_one_level {L m : Nat} (hLm : L ≤ m) (hm : 1 ≤ m) (hm' : m ≤ 256) :
    256 * share L + share m ≠ share 0 := by
  intro h
  rw [share_eq hLm hm', share_eq (Nat.zero_le m) hm', Nat.sub_zero] at h
  have hpow : 256 * 2 ^ (m - L) + 1 = 2 ^ m := by
    refine Nat.eq_of_mul_eq_mul_right (share_pos m) ?_
    rw [← h]
    ring
  have : 2 ∣ 2 ^ m := dvd_pow_self 2 (by omega)
  omega

/-- Step 5 takes one leaf of the deepest used level, `m`, which is in 1..16 (R107). -/
theorem withhold_spec {n : Nat} (hn : 1 ≤ n) (hn' : n ≤ 256) {bits : List Nat} (h : FullCode (n + 1) bits) :
    ∃ m, (1 ≤ m ∧ m ≤ 16) ∧ (∀ d, d ≤ 16 → 0 < bitsAt bits d → d ≤ m) ∧
      (∀ d, bitsAt (withhold bits) d ≤ bitsAt bits d) ∧ ∀ w, weigh w (withhold bits) + w m = weigh w bits := by
  have hpos := h.greatestUsed_pos (by omega) (by omega) (m := 16) (by omega)
  have hm := greatestUsed_le (bitsAt bits) 16
  refine ⟨greatestUsed (bitsAt bits) 16, ⟨Nat.pos_of_ne_zero fun h0 => ?_, hm⟩, fun d hd hp => ?_, fun d => ?_, fun w => ?_⟩
  · rw [h0, h.bitsAt_zero (by omega)] at hpos
    omega
  · refine Nat.le_of_not_lt fun hlt => ?_
    have := eq_zero_of_greatestUsed_lt hlt hd
    omega
  · rw [withhold, bitsAt_modify _ _ _ _ (by rw [h.length]; omega)]
    split <;> omega
  · simpa [withhold] using weigh_modify_sub w h.length (by omega) (show 1 ≤ _ from hpos)

/-- The lengths Build hands out: one for every present symbol, and they fit (R107 to R109). -/
theorem lengthSequence_withhold {n : Nat} (hn : 1 ≤ n) (hn' : n ≤ 256) {bits : List Nat} (h : FullCode (n + 1) bits)
    (hz : ∀ d, 17 ≤ d → bitsAt bits d = 0) :
    (lengthSequence (withhold bits)).length = n ∧ DepthsFit (lengthSequence (withhold bits)) := by
  obtain ⟨m, ⟨hm1, hm16⟩, hmax, hle, hw⟩ := withhold_spec hn hn' h
  have h0 : bitsAt (withhold bits) 0 = 0 := Nat.le_zero.1 ((hle 0).trans_eq (h.bitsAt_zero (by omega)))
  have hz' (d : Nat) (hd : 17 ≤ d) : bitsAt (withhold bits) d = 0 := Nat.le_zero.1 ((hle d).trans_eq (hz d hd))
  have hleaves : weigh (fun _ => 1) (withhold bits) + 1 = n + 1 := (hw _).trans h.leaves
  have hfull : weigh share (withhold bits) + share m = share 0 := (hw share).trans h.full
  refine ⟨?_, fun d hd => (mem_lengthsBy hd).1, ?_, fun L => (count_lengthsBy _ L).trans ?_⟩
  · have := weigh_eq_sum_lengthSequence (fun _ => 1) h0 hz'
    simp only [List.map_const', List.sum_replicate, smul_eq_mul, Nat.mul_one] at this
    omega
  · rw [← weigh_eq_sum_lengthSequence share h0 hz']
    have := share_pos m
    omega
  · by_contra hbig
    have hL : L ≤ 16 := Nat.le_of_not_lt fun hlt => by rw [hz' L hlt] at hbig; omega
    have hone (w : Nat → Nat) : weigh w (withhold bits) = bitsAt (withhold bits) L * w L :=
      weigh_of_one_level w (by omega) (by omega)
    have hcount := hone fun _ => 1
    rw [hone share, show bitsAt (withhold bits) L = 256 by omega] at hfull
    exact share_ne_of_one_level (hmax L hL (by have := hle L; omega)) hm1 (by omega) hfull

/-! ### Steps 6 to 8: the assignments (R108 to R110) -/

theorem canonicalBefore_iff (a b : Nat × Nat) :
    canonicalBefore a b = true ↔ a.2 < b.2 ∨ a.2 = b.2 ∧ a.1 ≤ b.1 := by
  simp [canonicalBefore]

/-- R110's recurrence gives codes that follow each other. -/
theorem followsFrom_codesAfter (d c : Nat) {q : List (Nat × Nat)} (hd : ∀ x ∈ q, d ≤ x.2)
    (hq : q.Pairwise fun a b => a.2 ≤ b.2) : followsFrom d (c + 1) (codesAfter d c q) := by
  induction q generalizing d c with
  | nil => trivial
  | cons x q ih =>
    obtain ⟨hx, hq⟩ := List.pairwise_cons.1 hq
    exact ⟨hd x (by simp), Nat.shiftLeft_eq _ _, ih _ _ hx hq⟩

/-- Symbols and depths of R110's assignments are those of its list in order. -/
theorem codesAfter_map (d c : Nat) (q : List (Nat × Nat)) :
    (codesAfter d c q).map (fun x => (x.sym, x.depth)) = q.map fun x => (BitVec.ofNat 8 x.1, x.2) := by
  induction q generalizing d c with
  | nil => rfl
  | cons x q ih => simp [codesAfter, ih]

/-- Step 8 assigns every symbol its depth (R110). -/
theorem canonicalCodes_perm (q : List (Nat × Nat)) :
    ((canonicalCodes q).map fun x => (x.sym, x.depth)).Perm (q.map fun x => (BitVec.ofNat 8 x.1, x.2)) := by
  refine List.Perm.trans (.of_eq ?_) ((List.perm_insertionSort (fun a b => canonicalBefore a b = true) q).map _)
  unfold canonicalCodes
  cases q.insertionSort fun a b => canonicalBefore a b = true with
  | nil => rfl
  | cons x q => simp [codesAfter_map]

/-- Step 8's codes follow each other (R110). -/
theorem followsFrom_canonicalCodes (q : List (Nat × Nat)) : followsFrom 0 0 (canonicalCodes q) := by
  have total : Std.Total fun a b : Nat × Nat => canonicalBefore a b = true :=
    ⟨fun a b => by simp only [canonicalBefore_iff]; omega⟩
  have trans : IsTrans (Nat × Nat) fun a b => canonicalBefore a b = true :=
    ⟨fun a b c => by simp only [canonicalBefore_iff]; omega⟩
  have sorted := List.pairwise_insertionSort (fun a b : Nat × Nat => canonicalBefore a b = true) q
  have depths := sorted.imp (S := fun a b => a.2 ≤ b.2) fun {a b} hab => by rw [canonicalBefore_iff] at hab; omega
  unfold canonicalCodes
  cases hq : q.insertionSort fun a b => canonicalBefore a b = true with
  | nil => trivial
  | cons x q' =>
    rw [hq] at depths
    obtain ⟨hx, hq'⟩ := List.pairwise_cons.1 depths
    exact ⟨Nat.zero_le _, (Nat.zero_mul _).symm, followsFrom_codesAfter _ _ hx hq'⟩

/-- The symbols of R108's order are the present ones. -/
theorem symbolOrder_perm (freq : Vector Word 256) (uds : List (Nat × Nat)) :
    (symbolOrder freq uds).Perm (present freq) :=
  List.perm_insertionSort _ _

theorem nodup_ofNat_present (freq : Vector Word 256) : ((present freq).map (BitVec.ofNat 8)).Nodup :=
  nodup_allSymbols.sublist (List.filter_sublist.map _)

/-- Lengths that fit, handed out to the present symbols, make a canonical code (R108 to R110). -/
theorem canonicalCode_canonicalCodes {freq : Vector Word 256} {uds : List (Nat × Nat)} {bits : List Nat}
    (hlen : (lengthSequence bits).length = (present freq).length) (hfit : DepthsFit (lengthSequence bits)) :
    CanonicalCode (canonicalCodes (assignDepths freq uds bits)) := by
  have hlen' : (symbolOrder freq uds).length = (lengthSequence bits).length :=
    (symbolOrder_perm freq uds).length_eq.trans hlen.symm
  have hp := canonicalCodes_perm (assignDepths freq uds bits)
  have hsym : ((canonicalCodes (assignDepths freq uds bits)).map Assignment.sym).Perm
      ((symbolOrder freq uds).map (BitVec.ofNat 8)) := by
    have := hp.map Prod.fst
    rw [List.map_map, List.map_map] at this
    refine this.trans (.of_eq ?_)
    rw [← List.map_fst_zip (l₁ := symbolOrder freq uds) hlen'.le, List.map_map]
    rfl
  have hdepth : ((canonicalCodes (assignDepths freq uds bits)).map Assignment.depth).Perm (lengthSequence bits) := by
    have := hp.map Prod.snd
    rw [List.map_map, List.map_map] at this
    refine this.trans (.of_eq ?_)
    exact List.map_snd_zip hlen'.ge
  exact {
    nodup := hsym.nodup_iff.2 ((((symbolOrder_perm freq uds).map _).nodup_iff).2 (nodup_ofNat_present freq))
    follows := followsFrom_canonicalCodes _
    depths := hfit.perm hdepth.symm }

/-- The code Build gives is canonical (R112). -/
theorem canonicalCode_of_build {freq : Vector Word 256} {e : Vector CodeEntry 256} (h : build freq = some e) :
    ∃ l, CanonicalCode l ∧ e = entriesOf l := by
  unfold build at h
  split at h
  · exact ⟨[], canonicalCode_nil, (Option.some.inj h).symm⟩
  · next hne =>
    have hpos : 1 ≤ (present freq).length := List.length_pos_iff.2 hne
    have hle := length_present_le freq
    obtain ⟨hfull, hz⟩ := limitLengths_spec (by omega) (by omega) (fullCode_histogram freq)
    obtain ⟨hlen, hfit⟩ := lengthSequence_withhold hpos hle hfull hz
    dsimp only at h
    split at h
    · cases h
    · exact ⟨_, canonicalCode_canonicalCodes hlen hfit, (Option.some.inj h).symm⟩

end Sys2Proof.Machine
end

section
/-! SUPPORT. E1 to E6 hold at reset and every step keeps them (spec/10_state.md R32). -/

namespace Sys2Proof.Machine

/-- The entry invariant is a property of ENTRY alone. -/
theorem EntryInvariant.of_entry_eq {s t : State} (h : EntryInvariant s) (he : t.entry = s.entry) : EntryInvariant t := by
  have hat : entryAt t = entryAt s := by funext a; simp only [entryAt, he]
  have hd : depthOf t = depthOf s := by funext a; rw [depthOf, hat, depthOf]
  have hc : codeOf t = codeOf s := by funext a; rw [codeOf, hat, codeOf]
  have hb : codeBefore t = codeBefore s := by funext a b; rw [codeBefore, hat, codeBefore]
  have hq : codedSequence t = codedSequence s := by rw [codedSequence, codedSequence, hat, hb]
  have hn : CanonicalNext t = CanonicalNext s := by funext a b; rw [CanonicalNext, CanonicalNext, hc, hd]
  have hk : depthCount t = depthCount s := by funext L; rw [depthCount, depthCount, hat]
  constructor
  · simpa only [Coded, hd, hc] using h.depthAndCodeFit
  · simpa only [Coded, hd, hc] using h.uncodedIsZero
  · simpa only [Coded, hd, hat] using h.prefixFree
  · simpa only [hq, hc] using h.firstCodeIsZero
  · simpa only [hq, hn] using h.canonical
  · simpa only [Coded, hd, hc] using h.noAllOnes
  · simpa only [hk] using h.countFits

/-- With no symbol coded E1 to E6 hold. -/
theorem entryInvariant_of_cleared {s : State} (h : s.entry = Vector.replicate 256 ⟨0, 0⟩) : EntryInvariant s :=
  canonicalCode_nil.entryInvariant h

/-- A command keeps E1 to E6: it leaves ENTRY alone, clears it, or writes the code of Build or of a valid table (R112, R124). -/
theorem entryInvariant_bodyOf (i : Instr) {s : State} (hs : EntryInvariant s) : EntryInvariant (bodyOf i s) := by
  have built {e : Vector CodeEntry 256} {t : State} (h : build s.freq = some e) (ht : t.entry = e) : EntryInvariant t := by
    obtain ⟨l, hl, rfl⟩ := canonicalCode_of_build h
    exact hl.entryInvariant ht
  cases i with
  | clear => exact entryInvariant_of_cleared rfl
  | buildFreq =>
    rcases buildFreqBody_cases s with ⟨e, he, h⟩ | h <;> rw [bodyOf, h]
    · exact built he rfl
    · exact hs.of_entry_eq rfl
  | tableDecode =>
    rcases tableDecodeBody_cases s with ⟨hv, h⟩ | h <;> rw [bodyOf, h]
    · exact (canonicalCode_tableAssignments hv).entryInvariant rfl
    · exact hs.of_entry_eq rfl
  | encInit mode =>
    rcases encInitBody_cases mode s with ⟨e, he | ⟨hv, rfl⟩, h⟩ | h | h | h <;> rw [bodyOf, h]
    · exact built he rfl
    · exact (canonicalCode_tableAssignments hv).entryInvariant rfl
    all_goals exact hs.of_entry_eq rfl
  | _ => exact hs.of_entry_eq (bodyOf_entry rfl s)

/-- Settles O27: a step leaves ENTRY alone, clears it, or runs a command. -/
theorem entryInvariantIsKept : Obligations.EntryInvariantIsKept := by
  intro s t hs ht
  cases step_effect ht with
  | iterates es => exact hs.of_entry_eq (iterate_entry s)
  | runs es w i => exact entryInvariant_bodyOf i (hs.of_entry_eq rfl)
  | resets es => exact entryInvariant_of_cleared rfl
  | answers | finishes | storesFreq | storesPacked => exact hs.of_entry_eq rfl

/-- Settles O28: at reset no symbol is coded and PACKED is the empty list. -/
theorem invariantsHoldAtReset : Obligations.InvariantsHoldAtReset :=
  ⟨entryInvariant_of_cleared rfl, rfl⟩

/-! ### DEC_BITS and ENC_LAST_BITS -/

theorem toNat_ofNat_le_sixteen {n : Nat} (h : n ≤ 16) : (BitVec.ofNat 5 n).toNat ≤ 16 := by
  rw [BitVec.toNat_ofNat]
  exact (Nat.mod_le _ _).trans h

/-- DecodeOne counts the bits of an attempt up to 16 (R25, R168). -/
theorem decodeFrom_decBits_le (fuel L cand : Nat) (h : L + fuel ≤ 17) (s : State) :
    (decodeFrom fuel L cand s).2.decBits.toNat ≤ 16 := by
  induction fuel generalizing L cand s with
  | zero => exact toNat_ofNat_le_sixteen (Nat.le_refl 16)
  | succ fuel ih =>
    cases hb : s.bitSource.avail.1 with
    | none =>
      rw [decodeFrom_dry hb]
      exact toNat_ofNat_le_sixteen (by omega)
    | some b =>
      rw [decodeFrom_bit hb]
      split
      · split
        · exact toNat_ofNat_le_sixteen (by omega)
        · exact toNat_ofNat_le_sixteen (by omega)
      · exact ih _ _ (by omega) _

theorem decodeOne_decBits_le (s : State) : (decodeOne s).2.decBits.toNat ≤ 16 :=
  decodeFrom_decBits_le _ _ _ (Nat.le_refl _) s

/-- EncodeOne sends no more bits than the codeword has (R26, R149). -/
theorem encodeOne_encLastBits_le (a : Symbol) {s : State} (hs : EntryInvariant s) :
    (encodeOne a s).2.encLastBits.toNat ≤ 16 := by
  unfold encodeOne
  split
  · exact Nat.zero_le 16
  · next hd =>
    have hc : Coded s a := Nat.pos_of_ne_zero fun h => hd (BitVec.eq_of_toNat_eq h)
    have hlen : (codeword (entryAt s a)).length = depthOf s a := by simp [codeword, depthOf]
    have hn := sendBits_n_le (codeword (entryAt s a)) s
    have hfit := (hs.depthAndCodeFit a hc).1
    exact toNat_ofNat_le_sixteen (by omega)

/-- N of DEC_BITS and of ENC_LAST_BITS is at most 16 (R25, R26). -/
def BitNumbersFit (s : State) : Prop := s.decBits.toNat ≤ 16 ∧ s.encLastBits.toNat ≤ 16

/-- A command keeps the two numbers in range (R41). -/
theorem bitNumbersFit_bodyOf (i : Instr) {s : State} (hs : EntryInvariant s) (hb : BitNumbersFit s) :
    BitNumbersFit (bodyOf i s) := by
  obtain ⟨hdec, henc⟩ := hb
  cases i with
  | clear => exact ⟨Nat.zero_le 16, Nat.zero_le 16⟩
  | encRun | decRun => exact ⟨hdec, henc⟩
  | decStep => exact ⟨decodeOne_decBits_le s, by rw [bodyOf_encLastBits rfl]; exact henc⟩
  | decInit =>
    refine ⟨?_, by rw [bodyOf_encLastBits rfl]; exact henc⟩
    rcases decInitBody_cases s with h | h <;> rw [bodyOf, h]
    · exact Nat.zero_le 16
    · exact hdec
  | encStep sym => exact ⟨by rw [bodyOf_decBits rfl]; exact hdec, encodeOne_encLastBits_le sym hs⟩
  | encInit mode =>
    rcases encInitBody_cases mode s with ⟨_, _, h⟩ | h | h | h <;> rw [bodyOf, h]
    · exact ⟨hdec, Nat.zero_le 16⟩
    all_goals exact ⟨hdec, henc⟩
  | _ => exact ⟨by rw [bodyOf_decBits rfl]; exact hdec, by rw [bodyOf_encLastBits rfl]; exact henc⟩

/-- An iteration keeps the two numbers in range (R158, R173). -/
theorem bitNumbersFit_iterate {s : State} (hs : EntryInvariant s) (hb : BitNumbersFit s) : BitNumbersFit (iterate s) := by
  obtain ⟨hdec, henc⟩ := hb
  unfold iterate
  split
  · exact ⟨hdec, henc⟩
  · rcases statIteration_cases s with h | ⟨_, _, _, h⟩ | ⟨_, _, _, h⟩ <;> rw [h] <;> exact ⟨hdec, henc⟩
  · rcases encIteration_cases s with h | ⟨a, _, h⟩ <;> rw [h]
    · exact ⟨hdec, henc⟩
    · have hn := encodeOne_encLastBits_le a (s := symPull (symAvail s).2) (hs.of_entry_eq rfl)
      have hd : (encodeOne a (symPull (symAvail s).2)).2.decBits = s.decBits := by rw [encodeOne_frame]; rfl
      split <;> exact ⟨hd ▸ hdec, hn⟩
  · rcases decIteration_cases s with h | h | h <;> rw [h]
    · exact ⟨hdec, henc⟩
    · exact ⟨hdec, henc⟩
    · have hn := decodeOne_decBits_le (symCanAccept (bitAvail s).2).2
      have he : (decodeOne (symCanAccept (bitAvail s).2).2).2.encLastBits = s.encLastBits := by
        rw [decodeOne_frame]; rfl
      split <;> exact ⟨hn, he ▸ henc⟩

/-- Settles O29: DecodeOne takes at most 16 bits, and EncodeOne sends no more than the codeword's depth, which E1 bounds. -/
theorem bitNumbersStayAtMostSixteen : Obligations.BitNumbersStayAtMostSixteen := by
  intro s t hs hdec henc ht
  have hb : BitNumbersFit s := ⟨hdec, henc⟩
  cases step_effect ht with
  | iterates es => exact bitNumbersFit_iterate hs hb
  | runs es w i => exact bitNumbersFit_bodyOf i (s := setLastOp w (setHost es s)) (hs.of_entry_eq rfl) hb
  | resets es => exact ⟨Nat.zero_le 16, Nat.zero_le 16⟩
  | answers | finishes | storesFreq | storesPacked => exact hb

end Sys2Proof.Machine
end

section
/-! SUPPORT. Who writes what: R41's table of writers, and CODE, LAST_OP and FAULT over a step (spec/10_state.md R20, R27, R41). -/

namespace Sys2Proof.Machine

/-! ### The table of writers (R41) -/

theorem iterate_fault (s : State) :
    (iterate s).fault = s.fault ∨ Overflows s ∧ (iterate s).fault = { s.fault with freqOverflow := true } := by
  rcases writesOnly_iterate s with hw | ⟨ho, hw⟩
  · exact .inl (Prod.mk.inj hw.background).1
  · exact .inr ⟨ho, (Prod.mk.inj hw.background).1⟩

/-- Settles O9: what is not written is the same data. -/
theorem commandsWriteOnlyTheirColumns : Obligations.CommandsWriteOnlyTheirColumns := by
  refine ⟨fun i s t c h hc => ?_, fun s c => ⟨?_, ?_, ?_⟩, fun i s t h => ?_, fun s => ⟨fun hk => ?_, iterate_background s⟩⟩
  · refine columnKept_of_sameColumn ((writesOnly_exec h).columns c ?_)
    rcases hc with hc | ⟨hc, hok⟩ | hc <;> simp [writesGiven, *]
  · exact fun hk hc => columnKept_of_sameColumn (sameColumn_iterate (by rw [hk]; exact hc))
  · exact fun hk hc => columnKept_of_sameColumn (sameColumn_iterate (by rw [hk]; exact hc))
  · exact fun hk hc => columnKept_of_sameColumn (sameColumn_iterate (by rw [hk]; exact hc))
  · simpa using (writesOnly_exec h).background
  · exact (iterate_fault s).resolve_right fun h => hk h.1.1

/-! ### CODE and LAST_OP -/

@[simp] theorem busy_finish (c : StatusCode) (s : State) : busy (finish c s) = false := rfl

/-- A step that leaves the block busy has finished nothing, so it keeps CODE (R95). -/
theorem step_code_of_busy {s t : State} (h : step s = .next t) (hb : busy t = true) : t.code = s.code := by
  have not_finished {c : StatusCode} {u v : State} (hv : v = finish c u) (hbv : busy v = true) : False := by
    rw [hv, busy_finish] at hbv; cases hbv
  cases step_effect h with
  | iterates es =>
    rcases iterate_goes_on_or_finishes s with hi | ⟨_, _, hi⟩
    · exact hi
    · exact (not_finished hi hb).elim
  | runs es w i =>
    rcases bodyOf_starts_or_finishes i (setLastOp w (setHost es s)) with ⟨k, hi⟩ | ⟨_, _, hi⟩
    · rw [hi]; rfl
    · exact (not_finished hi hb).elim
  | finishes => exact (not_finished rfl hb).elim
  | resets => cases hb
  | answers | storesFreq | storesPacked => rfl

/-- An issue writes LAST_OP and no command does (R89). -/
theorem issue_lastOp_fault {w : Word} {s t : State} (h : issue w s = .next t) : t.lastOp = wordOp w ∧ t.fault = s.fault := by
  rcases issue_cases h with ⟨i, _, he⟩ | ⟨_, rfl⟩
  · have hw := (writesOnly_exec he).background
    simp only [Prod.mk.injEq] at hw
    exact ⟨hw.2.1, hw.1⟩
  · exact ⟨rfl, rfl⟩

/-- LAST_OP is kept but for reset and the issue of a word (R89, R200). -/
theorem step_lastOp_cases {s t : State} (h : step s = .next t) :
    t.lastOp = s.lastOp ∨ s.host.head? = some .reset ∨
      (busy s = false ∧ ∃ w, s.host.head? = some (.write 4 0x000 w) ∧ t.lastOp = wordOp w) := by
  rcases step_serves h with ⟨_, rfl⟩ | ⟨es, width, off, _, rfl⟩ | ⟨_, _, rfl⟩ | ⟨es, width, off, v, hh, ht⟩ | ⟨_, hh, _⟩
  · exact .inl (iterate_background s).1
  · refine .inl ?_
    rcases busRead_state width off (setHost es s) with hr | hr <;> (rw [serveRead, hr]; rfl)
  · exact .inl rfl
  · rcases serveWrite_cases ht with ⟨_, rfl⟩ | ⟨_, rfl⟩ | ⟨hb, rfl, rfl, hi⟩ | ⟨_, _, _, rfl⟩ | ⟨_, _, _, _, rfl⟩
    · exact .inl rfl
    · exact .inl rfl
    · exact .inr (.inr ⟨hb, v, hh, (issue_lastOp_fault hi).1⟩)
    · exact .inl rfl
    · exact .inl rfl
  · exact .inr (.inl hh)

/-- Settles O14: only a finish writes CODE, and only an issue or reset LAST_OP. -/
theorem codeIsKeptWhileBusy : Obligations.CodeIsKeptWhileBusy :=
  fun _ _ h => ⟨step_code_of_busy h, (step_lastOp_cases h).resolve_left⟩

/-! ### Rejected accesses (R53, R54) -/

/-- The offsets R52's map leaves unmapped. -/
theorem unmapped_of_placeAt {off : Nat} (h : placeAt off = .unmapped) : unmappedOrMisaligned off := by
  unfold unmappedOrMisaligned
  by_contra hn
  unfold placeAt at h
  split at h
  · obtain rfl | rfl | rfl | rfl | rfl | rfl | rfl | rfl | rfl | rfl : off = 0x000 ∨ off = 0x004 ∨ off = 0x008 ∨
      off = 0x00C ∨ off = 0x010 ∨ off = 0x014 ∨ off = 0x018 ∨ off = 0x01C ∨ off = 0x020 ∨ off = 0x024 := by omega
    all_goals cases h
  · split at h
    · cases h
    · split at h
      · cases h
      · split at h
        · cases h
        · split at h
          · omega
          · split at h
            · cases h
            · split at h
              · cases h
              · omega

/-- A read that is not rejected changes nothing (R55). -/
theorem busRead_state_of_accepted {width : Nat} {off : Offset} (h : ¬ readIsRejected width off) (s : State) :
    (busRead width off s).2 = s := by
  unfold busRead
  split
  · split
    · next hp => exact absurd (.inr (unmapped_of_placeAt hp)) h
    · rfl
  · next hl =>
    simp only [legalAccess, Bool.and_eq_true, beq_iff_eq] at hl
    simp only [readIsRejected, unmappedOrMisaligned] at h
    omega

/-- The places of the offsets a write may go to (R52, R53). -/
theorem placeAt_of_accepted {width : Nat} {off : Offset} (h : ¬ writeIsRejected width off) :
    legalAccess width off = true ∧
      (placeAt off.toNat = .cmd ∨ (∃ a, placeAt off.toNat = .freq a) ∨ ∃ w, placeAt off.toNat = .packed w) := by
  simp only [writeIsRejected, readIsRejected, unmappedOrMisaligned] at h
  refine ⟨by simp only [legalAccess, Bool.and_eq_true, beq_iff_eq]; omega, ?_⟩
  generalize off.toNat = o at h ⊢
  obtain rfl | hfreq | hpacked : o = 0 ∨ (0x400 ≤ o ∧ o < 0x800) ∨ (0xC00 ≤ o ∧ o < 0xD10) := by omega
  · exact .inl rfl
  · refine .inr (.inl ⟨BitVec.ofNat 8 ((o - 0x400) / 4), ?_⟩)
    unfold placeAt
    rw [if_neg (by omega), if_pos hfreq.2]
  · refine .inr (.inr ⟨(o - 0xC00) / 4, ?_⟩)
    unfold placeAt
    rw [if_neg (by omega), if_neg (by omega), if_neg (by omega), if_pos hpacked.2]

/-- A write that is not rejected leaves FAULT alone, whatever command it issues (R53, R89). -/
theorem serveWrite_fault_of_accepted {width : Nat} {off : Offset} {v : Word} {s t : State} (hb : busy s = false)
    (h : ¬ writeIsRejected width off) (ht : serveWrite width off v s = .next t) : t.fault = s.fault := by
  obtain ⟨hl, hp⟩ := placeAt_of_accepted h
  simp only [serveWrite, hb, hl, Bool.false_eq_true, if_false, if_true] at ht
  rcases hp with hp | ⟨a, hp⟩ | ⟨w, hp⟩ <;> rw [hp] at ht
  · exact (issue_lastOp_fault ht).2
  · injection ht with ht; rw [← ht]; rfl
  · injection ht with ht; rw [← ht]; rfl

/-- A write while idle sets FAULT.BAD_ACCESS or leaves FAULT alone. -/
theorem serveWrite_fault_of_idle {width : Nat} {off : Offset} {v : Word} {s t : State} (hb : busy s = false)
    (ht : serveWrite width off v s = .next t) : t.fault = s.fault ∨ t.fault = { s.fault with badAccess := true } := by
  rcases serveWrite_cases ht with ⟨hb', _⟩ | ⟨_, rfl⟩ | ⟨_, _, _, hi⟩ | ⟨_, _, _, rfl⟩ | ⟨_, _, _, _, rfl⟩
  · rw [hb] at hb'; cases hb'
  · exact .inr rfl
  · exact .inl (issue_lastOp_fault hi).2
  · exact .inl rfl
  · exact .inl rfl

/-! ### FAULT -/

/-- What a step but reset does to FAULT: nothing, or it sets one bit, for that bit's cause (R27, R187). -/
theorem step_fault_cases {s t : State} (h : step s = .next t) (hr : s.host.head? ≠ some .reset) :
    t.fault = s.fault ∨
    (t.fault = { s.fault with busyWrite := true } ∧ busy s = true ∧
      ∃ width off v, s.host.head? = some (.write width off v)) ∨
    (t.fault = { s.fault with badAccess := true } ∧
      ((∃ width off, s.host.head? = some (.read width off) ∧ readIsRejected width off) ∨
        busy s = false ∧ ∃ width off v, s.host.head? = some (.write width off v) ∧ writeIsRejected width off)) ∨
    (t.fault = { s.fault with freqOverflow := true } ∧ t.code = (iterate s).code ∧ Overflows s) := by
  rcases step_serves h with ⟨_, rfl⟩ | ⟨es, width, off, hh, rfl⟩ | ⟨_, _, rfl⟩ | ⟨es, width, off, v, hh, ht⟩ | ⟨_, hh, _⟩
  · rcases iterate_fault s with hf | ⟨ho, hf⟩
    · exact .inl hf
    · exact .inr (.inr (.inr ⟨hf, rfl, ho⟩))
  · have hread : (serveRead width off (setHost es s)).fault = (busRead width off (setHost es s)).2.fault := rfl
    rw [hread]
    by_cases hrej : readIsRejected width off
    · rcases busRead_state width off (setHost es s) with hs | hs <;> rw [hs]
      · exact .inl rfl
      · exact .inr (.inr (.inl ⟨rfl, .inl ⟨width, off, hh, hrej⟩⟩))
    · rw [busRead_state_of_accepted hrej]
      exact .inl rfl
  · exact .inl rfl
  · cases hb : busy s with
    | true =>
      have he : serveWrite width off v (setHost es s) = .next (faultBusyWrite (setHost es s)) := if_pos hb
      rw [he] at ht
      injection ht with ht
      exact .inr (.inl ⟨by rw [← ht]; rfl, rfl, width, off, v, hh⟩)
    | false =>
      by_cases hrej : writeIsRejected width off
      · exact (serveWrite_fault_of_idle (s := setHost es s) hb ht).imp_right fun hf =>
          .inr (.inl ⟨hf, .inr ⟨rfl, width, off, v, hh, hrej⟩⟩)
      · exact .inl (serveWrite_fault_of_accepted (s := setHost es s) hb hrej ht)
  · exact absurd hh hr

/-- Settles O17: a step sets at most one bit, for its cause, and clears none. -/
theorem faultBitsAreSticky : Obligations.FaultBitsAreSticky := by
  intro s t h hr
  rcases step_fault_cases h hr with hf | ⟨hf, hc⟩ | ⟨hf, hc⟩ | ⟨hf, hcode, hk, hpre, a, ha, hfull⟩
  · simp [hf]
  · simpa [hf] using fun _ => hc
  · simpa [hf] using fun _ => hc
  · simpa [hf, hcode, hk, hpre] using fun _ => ⟨a, ha, by rw [hfull]; rfl⟩

end Sys2Proof.Machine
end

section
/-! SUPPORT. The reference tables, the register words and the values at reset (spec/10_state.md R20 to R27, R36, R40,
spec/42_table_codec.md R127, R128). -/

namespace Sys2Proof.Machine

/-! ### LOAD_REF and the reference ROM -/

/-- What LOAD_REF makes of PACKED: a table's counts and its sum(counts) values (R128). -/
def loadedTable (t : RefTable) : Memory := memoryOf (packedBytesOf t.counts.toList (t.values.toList.take t.size))

theorem exec_loadRef {s : State} {k : BitVec 8} (h : k.toNat < 4) :
    exec (.loadRef k) s = .next (finish .ok (setPacked (loadedTable s.refTables[k.toNat]) s)) := by
  have ht : refTableAt s k = s.refTables[k.toNat] := by simp [refTableAt, Nat.mod_eq_of_lt h]
  rw [exec_of_phaseOk rfl, bodyOf, loadRefBody, if_pos (show refNumberOk k = true from decide_eq_true h), ht]
  rfl

theorem readByte_loadedTable_count (t : RefTable) {i : Nat} (hi : i < 16) : readByte (loadedTable t) i = t.counts[i] := by
  rw [loadedTable, readByte_packedBytesOf_count (by simp) hi]
  simp [hi]

theorem tableSize_loadedTable (t : RefTable) : tableSize (loadedTable t) = t.size :=
  tableSize_packedBytesOf (by simp)

theorem readByte_loadedTable_value (t : RefTable) {i : Nat} (hi : i < 256) :
    readByte (loadedTable t) (16 + i) = if i < tableSize (loadedTable t) then t.values[i] else 0 := by
  rw [tableSize_loadedTable, loadedTable, readByte_packedBytesOf_value i (by simp)]
  by_cases h : i < t.size <;> simp [h, hi]

/-- The values of a table written whole are those written. -/
theorem tableSymbols_packedBytesOf {counts values : List Byte} (hc : counts.length = 16)
    (hv : (counts.map BitVec.toNat).sum = values.length) :
    tableSymbols (memoryOf (packedBytesOf counts values)) = values := by
  rw [tableSymbols, tableSize_packedBytesOf hc, hv]
  refine List.ext_getElem (by simp) fun i _ h2 => ?_
  simp [tableValue, readByte_packedBytesOf_value i hc, h2]

/-- LOAD_REF of a table written as its counts and its values writes those (R127, R128). -/
theorem loadedTable_ofLists {counts values : List Byte} (hc : counts.length = 16)
    (hv : (counts.map BitVec.toNat).sum = values.length) (h256 : values.length ≤ 256) :
    loadedTable (RefTable.ofLists counts values) = memoryOf (packedBytesOf counts values) := by
  have hcounts : (RefTable.ofLists counts values).counts.toList = counts :=
    List.ext_getElem (by simp [hc]) fun i _ h2 => by simp [RefTable.ofLists, h2]
  have hsize : (RefTable.ofLists counts values).size = values.length := by rw [RefTable.size, hcounts, hv]
  have hvalues : (RefTable.ofLists counts values).values.toList.take values.length = values :=
    List.ext_getElem (by simp [h256]) fun i _ h2 => by simp [RefTable.ofLists, h2]
  rw [loadedTable, hsize, hcounts, hvalues]

/-- A table written as its counts and its values is valid when the lists pass V1 to V4 (R122): the values are compared in the
list, as numbers, not byte by byte in PACKED. -/
theorem tableValid_ofLists {counts values : List Byte}
    (h : counts.length = 16 ∧ (counts.map BitVec.toNat).sum = values.length ∧ values.length ≤ 256 ∧
      (values.map BitVec.toNat).Nodup ∧
      let m := memoryOf (packedBytesOf counts values)
      (∀ L ∈ lengths, canonFirst m L + tableCount m L ≤ 2 ^ L) ∧
      canonFirst m (longestLength m) + tableCount m (longestLength m) < 2 ^ longestLength m) :
    tableValid (loadedTable (RefTable.ofLists counts values)) = true := by
  obtain ⟨hc, hv, h256, hnodup, hfit, hlast⟩ := h
  rw [loadedTable_ofLists hc hv h256]
  simp only [tableValid, Bool.and_eq_true, Bool.or_eq_true, decide_eq_true_eq, List.all_eq_true]
  rw [tableSymbols_packedBytesOf hc hv, tableSize_packedBytesOf hc, hv]
  exact ⟨h256, hnodup.of_map _, hfit, .inr hlast⟩

/-- R127's four tables are valid. -/
theorem tableValid_defaultRefTables (k : Fin 4) : tableValid (loadedTable defaultRefTables[k]) = true :=
  match k with
  | 0 => tableValid_ofLists (by decide +kernel)
  | 1 => tableValid_ofLists (by decide +kernel)
  | 2 => tableValid_ofLists (by decide +kernel)
  | 3 => tableValid_ofLists (by decide +kernel)

/-- No step changes the reference ROM (R36). -/
theorem step_refTables {s t : State} (h : step s = .next t) : t.refTables = s.refTables := by
  cases step_effect h with
  | iterates es => exact (iterate_background s).2.1
  | runs es w i =>
    obtain ⟨_, _, hrom, _⟩ := by
      simpa only [Prod.mk.injEq] using (writesOnly_bodyOf i (setLastOp w (setHost es s))).background
    exact hrom
  | answers | finishes | storesFreq | storesPacked | resets => rfl

/-- Settles O41: LOAD_REF's PACKED is written whole, and R127's default tables are checked one by one. -/
theorem loadRefCopiesTheTable : Obligations.LoadRefCopiesTheTable := by
  refine ⟨fun s t h => step_refTables h, fun s k => ⟨fun h => ?_, fun h => ?_⟩, fun s k hs hk => ?_⟩
  · exact ⟨_, exec_loadRef h, fun _ hi => readByte_loadedTable_count _ hi, fun _ hi => readByte_loadedTable_value _ hi⟩
  · rw [exec_of_phaseOk rfl, bodyOf, loadRefBody, if_neg (by simp [refNumberOk, h])]
    rfl
  · refine ⟨_, exec_loadRef hk, ?_⟩
    simp only [finish_packed, setPacked_packed, hs]
    exact tableValid_defaultRefTables ⟨k.toNat, hk⟩

/-! ### Register words -/

section
open BitVec

/-- A value below reserved bits: it is the low field, and the reserved bits are 0 (R21, R25, R26). -/
theorem fields_of_reserved (n : Nat) {m : Nat} (x : BitVec m) :
    (0#n ++ x).extractLsb' 0 m = x ∧ (0#n ++ x).extractLsb' m n = 0 :=
  ⟨extractLsb'_append_eq_right, extractLsb'_append_eq_left⟩

/-- The fields of STATUS (R20). -/
theorem statusWord_fields (s : State) :
    (statusWord s).extractLsb' 0 4 = statusNumber s.code ∧ (statusWord s).getLsbD 4 = busy s ∧
      (statusWord s).extractLsb' 5 3 = 0 ∧ (statusWord s).extractLsb' 8 8 = s.lastOp ∧
      (statusWord s).extractLsb' 16 16 = 0 := by
  unfold statusWord
  refine ⟨?_, ?_, ?_, ?_, extractLsb'_append_eq_left⟩
  · rw [extractLsb'_append_eq_of_add_le (by omega), extractLsb'_append_eq_of_add_le (by omega),
      extractLsb'_append_eq_of_add_le (by omega), extractLsb'_append_eq_right]
  · simp only [getLsbD_append]
    simp
  · rw [extractLsb'_append_eq_of_add_le (by omega), extractLsb'_append_eq_of_add_le (by omega)]
    exact extractLsb'_append_eq_left
  · rw [extractLsb'_append_eq_of_add_le (by omega)]
    exact extractLsb'_append_eq_left

/-- The fields of DEC_SYMBOL (R24). -/
theorem decSymbolWord_fields (s : State) :
    (decSymbolWord s).extractLsb' 0 8 = s.decSym ∧ (decSymbolWord s).getLsbD 8 = s.decValid ∧
      (decSymbolWord s).extractLsb' 9 23 = 0 := by
  unfold decSymbolWord
  refine ⟨?_, ?_, extractLsb'_append_eq_left⟩
  · rw [extractLsb'_append_eq_of_add_le (by omega), extractLsb'_append_eq_right]
  · simp only [getLsbD_append]
    simp

/-- The fields of FAULT (R27). -/
theorem faultWord_fields (s : State) :
    (faultWord s).getLsbD 0 = s.fault.busyWrite ∧ (faultWord s).getLsbD 1 = s.fault.badAccess ∧
      (faultWord s).getLsbD 2 = s.fault.freqOverflow ∧ (faultWord s).extractLsb' 3 29 = 0 := by
  unfold faultWord
  refine ⟨?_, ?_, ?_, extractLsb'_append_eq_left⟩
  all_goals
    simp only [getLsbD_append]
    simp

end

/-- Settles O22: every field is found at its offset in the appended word; the numbers are read off one by one. -/
theorem registerWordLayouts : Obligations.RegisterWordLayouts := by
  intro s
  have hcode : (statusNumber s.code).toNat ≤ 8 := by cases s.code <;> decide
  have hphase : (phaseNumber s.phase).toNat ≤ 4 := by cases s.phase <;> decide
  obtain ⟨hlow, hreserved⟩ := fields_of_reserved 29 (phaseNumber s.phase)
  exact ⟨statusWord_fields s, ⟨rfl, rfl, rfl, rfl, rfl, rfl, rfl, rfl, rfl, hcode⟩,
    ⟨hlow, hreserved, rfl, rfl, rfl, rfl, rfl, hphase⟩, decSymbolWord_fields s, fields_of_reserved 27 s.decBits,
    fields_of_reserved 27 s.encLastBits, faultWord_fields s⟩

/-! ### Reset -/

/-- R40's table of reset values. -/
def HasResetValues (t : State) : Prop :=
  statusWord t = 0 ∧ phaseWord t = 0 ∧ t.count = 0 ∧ t.bitCount = 0 ∧ decSymbolWord t = 0 ∧ decBitsWord t = 0 ∧
  encLastBitsWord t = 0 ∧ faultWord t = 0 ∧ placeWord t (placeAt 0x024) = 0x48554637 ∧ t.runKind = .none ∧
  (∀ a, freqAt t a = 0) ∧
  (∀ a, entryWord a (entryAt t a) = BitVec.ofNat 32 a.toNat) ∧ (∀ a, readByte t.packed a = 0) ∧
  ∀ L, 1 ≤ L → L ≤ 16 → firstAt t L = 0 ∧ indexAt t L = 0

/-- The word of an uncoded symbol's entry is the symbol (R31, R40). -/
theorem entryWord_zero (a : Symbol) : entryWord a ⟨0, 0⟩ = BitVec.ofNat 32 a.toNat := by
  apply BitVec.eq_of_toNat_eq
  rw [entryWord, BitVec.toNat_append, BitVec.toNat_append, BitVec.toNat_append]
  simpa using (Nat.mod_eq_of_lt (a.isLt.trans (by decide : 2 ^ 8 < 4294967296))).symm

/-- The register words at reset (R40). -/
theorem words_of_reset :
    statusWord State.reset = 0 ∧ phaseWord State.reset = 0 ∧ decSymbolWord State.reset = 0 ∧ decBitsWord State.reset = 0 ∧
      encLastBitsWord State.reset = 0 ∧ faultWord State.reset = 0 := by decide

/-- Reset gives R40's values, whatever the state before. -/
theorem hasResetValues_resetBlock (s : State) : HasResetValues (resetBlock s) := by
  obtain ⟨hstatus, hphase, hsym, hbits, hlast, hfault⟩ := words_of_reset
  refine ⟨hstatus, hphase, rfl, rfl, hsym, hbits, hlast, hfault, rfl, rfl, fun a => ?_, fun a => ?_, fun _ => rfl,
    fun L _ h => ?_⟩
  · simp [freqAt, resetBlock, State.reset]
  · rw [← entryWord_zero]
    simp [entryAt, resetBlock, State.reset]
  · have hL : L - 1 < 16 := by omega
    simp [firstAt, indexAt, resetBlock, State.reset, hL]

/-- Settles O24: the reset event is `resetBlock`, which the state the machine starts in is a case of. -/
theorem resetGivesTheResetValues : Obligations.ResetGivesTheResetValues :=
  ⟨hasResetValues_resetBlock State.reset, fun _ _ hh =>
    ⟨_, step_cons hh, hasResetValues_resetBlock _, rfl, rfl, rfl, rfl, rfl⟩⟩

end Sys2Proof.Machine
end

section
/-! SUPPORT. The ports each command and each iteration uses (spec/20_memory.md R62). -/

namespace Sys2Proof.Machine

/-- The four stream ports (R61). -/
inductive Port where
  | symSource | symSink | bitSource | bitSink

/-- The agent behind a port is the same in both states. -/
def samePort : Port → State → State → Prop
  | .symSource, s, t => t.symSource = s.symSource
  | .symSink, s, t => t.symSink = s.symSink
  | .bitSource, s, t => t.bitSource = s.bitSource
  | .bitSink, s, t => t.bitSink = s.bitSink

/-- The commands whose own rule uses a port (R62); the iterations of a running command are `iterationUses`. -/
def commandUses : Port → Instr → Prop
  | .symSource, _ | .symSink, _ => False
  | .bitSource, i => i = .decStep
  | .bitSink, i => (∃ a, i = .encStep a) ∨ i = .encDone

/-- The runs whose iterations use a port (R62). -/
def iterationUses : Port → RunKind → Prop
  | .symSource, k => k = .stat ∨ k = .enc
  | .symSink, k | .bitSource, k => k = .dec
  | .bitSink, k => k = .enc

/-- A command's rule leaves the ports it does not use as they were: EncodeOne and the pad bits name the bit sink, DecodeOne the
bit source, and no other rule names a port. -/
theorem samePort_bodyOf {i : Instr} {p : Port} (h : ¬ commandUses p i) (s : State) : samePort p s (bodyOf i s) := by
  cases i
  case encStep sym =>
    rw [bodyOf, encStepBody, encodeOne_frame]
    cases p with
    | bitSink => exact absurd (.inl ⟨sym, rfl⟩) h
    | symSource | symSink | bitSource => rfl
  case encDone =>
    obtain ⟨_, _, _, _, he⟩ := encDoneBody_cases s
    rw [bodyOf, he]
    cases p with
    | bitSink => exact absurd (.inr rfl) h
    | symSource | symSink | bitSource => rfl
  case decStep =>
    rw [bodyOf, decStepBody, decodeOne_frame]
    cases p with
    | bitSource => exact absurd rfl h
    | symSource | symSink | bitSink => rfl
  case buildAnchors =>
    rw [bodyOf, buildAnchorsBody]
    cases p <;> simp [samePort]
  case decInit => rcases decInitBody_cases s with he | he <;> rw [bodyOf, he] <;> cases p <;> simp [samePort]
  case' buildFreq => rcases buildFreqBody_cases s with ⟨_, _, he⟩ | he <;> rw [bodyOf, he]
  case' tableDecode => rcases tableDecodeBody_cases s with ⟨_, he⟩ | he <;> rw [bodyOf, he]
  case' tableEncode => rcases tableEncodeBody_cases s with ⟨_, _, _, _, he⟩ | he <;> rw [bodyOf, he]
  case' loadRef k => rcases loadRefBody_cases k s with ⟨_, _, _, _, he⟩ | he <;> rw [bodyOf, he]
  case' encInit mode => rcases encInitBody_cases mode s with ⟨_, _, he⟩ | he | he | he <;> rw [bodyOf, he]
  case' decDone => obtain ⟨_, he⟩ := decDoneBody_cases s; rw [bodyOf, he]
  all_goals cases p <;> rfl

/-- A command turned away by its phase uses no port at all (R91). -/
theorem samePort_exec {p : Port} {i : Instr} {s t : State} (he : exec i s = .next t) (h : ¬ commandUses p i) :
    samePort p s t := by
  rcases exec_cases he with ⟨_, rfl⟩ | ⟨_, rfl⟩
  · exact samePort_bodyOf h s
  · cases p <;> rfl

theorem statIteration_ports (s : State) :
    (statIteration s).symSink = s.symSink ∧ (statIteration s).bitSource = s.bitSource ∧
      (statIteration s).bitSink = s.bitSink := by
  rcases statIteration_cases s with h | ⟨_, _, _, h⟩ | ⟨_, _, _, h⟩ <;> rw [h] <;> exact ⟨rfl, rfl, rfl⟩

theorem encIteration_ports (s : State) :
    (encIteration s).symSink = s.symSink ∧ (encIteration s).bitSource = s.bitSource := by
  rcases encIteration_cases s with h | ⟨_, _, h⟩ <;> rw [h]
  · exact ⟨rfl, rfl⟩
  · split <;> rw [encodeOne_frame] <;> exact ⟨rfl, rfl⟩

theorem decIteration_ports (s : State) :
    (decIteration s).symSource = s.symSource ∧ (decIteration s).bitSink = s.bitSink := by
  rcases decIteration_cases s with h | h | h <;> rw [h]
  · exact ⟨rfl, rfl⟩
  · exact ⟨rfl, rfl⟩
  · split <;> rw [decodeOne_frame] <;> exact ⟨rfl, rfl⟩

/-- An iteration leaves the ports its command does not use as they were. -/
theorem samePort_iterate {p : Port} {s : State} (h : ¬ iterationUses p s.runKind) : samePort p s (iterate s) := by
  unfold iterate
  split
  · cases p <;> rfl
  · next hk =>
    obtain ⟨hsymSink, hbitSource, hbitSink⟩ := statIteration_ports s
    cases p with
    | symSource => exact absurd (.inl hk) h
    | symSink => exact hsymSink
    | bitSource => exact hbitSource
    | bitSink => exact hbitSink
  · next hk =>
    obtain ⟨hsymSink, hbitSource⟩ := encIteration_ports s
    cases p with
    | symSource => exact absurd (.inr hk) h
    | symSink => exact hsymSink
    | bitSource => exact hbitSource
    | bitSink => exact absurd hk h
  · next hk =>
    obtain ⟨hsymSource, hbitSink⟩ := decIteration_ports s
    cases p with
    | symSource => exact hsymSource
    | symSink | bitSource => exact absurd hk h
    | bitSink => exact hbitSink

/-- Settles O10: the statement's exceptions are, port by port, the commands and runs that use it. -/
theorem commandsUseOnlyTheirPorts : Obligations.CommandsUseOnlyTheirPorts :=
  ⟨fun _ _ _ h =>
    ⟨samePort_exec (p := .symSource) h id, samePort_exec (p := .symSink) h id, samePort_exec (p := .bitSource) h,
      fun hstep hdone => samePort_exec (p := .bitSink) h (not_or.2 ⟨not_exists.2 hstep, hdone⟩)⟩,
  fun _ =>
    ⟨fun hstat henc => samePort_iterate (p := .symSource) (not_or.2 ⟨hstat, henc⟩),
      fun hdec => ⟨samePort_iterate (p := .symSink) hdec, samePort_iterate (p := .bitSource) hdec⟩,
      samePort_iterate (p := .bitSink)⟩⟩

end Sys2Proof.Machine
end

section
/-! SUPPORT. The host bus: the place of every offset, and what a read and a write of it do (spec/20_memory.md R47 to R56). -/

namespace Sys2Proof.Machine

/-! ### The address map (R52) -/

theorem placeAt_freq (a : Symbol) : placeAt (0x400 + 4 * a.toNat) = .freq a := by
  have ha := a.isLt
  have hdiv : (0x400 + 4 * a.toNat - 0x400) / 4 = a.toNat := by omega
  unfold placeAt
  rw [if_neg (by omega), if_pos (by omega), hdiv, BitVec.ofNat_toNat, BitVec.setWidth_eq]

theorem placeAt_entry (a : Symbol) : placeAt (0x800 + 4 * a.toNat) = .entry a := by
  have ha := a.isLt
  have hdiv : (0x800 + 4 * a.toNat - 0x800) / 4 = a.toNat := by omega
  unfold placeAt
  rw [if_neg (by omega), if_neg (by omega), if_pos (by omega), hdiv, BitVec.ofNat_toNat, BitVec.setWidth_eq]

theorem placeAt_packed {w : Nat} (hw : w < 68) : placeAt (0xC00 + 4 * w) = .packed w := by
  have hdiv : (0xC00 + 4 * w - 0xC00) / 4 = w := by omega
  unfold placeAt
  rw [if_neg (by omega), if_neg (by omega), if_neg (by omega), if_pos (by omega), hdiv]

theorem placeAt_first {L : Nat} (h1 : 1 ≤ L) (h16 : L ≤ 16) : placeAt (0xE00 + 4 * (L - 1)) = .first L := by
  have hdiv : (0xE00 + 4 * (L - 1) - 0xE00) / 4 + 1 = L := by omega
  unfold placeAt
  rw [if_neg (by omega), if_neg (by omega), if_neg (by omega), if_neg (by omega), if_neg (by omega), if_pos (by omega), hdiv]

theorem placeAt_index {L : Nat} (h1 : 1 ≤ L) (h16 : L ≤ 16) : placeAt (0xE40 + 4 * (L - 1)) = .index L := by
  have hdiv : (0xE40 + 4 * (L - 1) - 0xE40) / 4 + 1 = L := by omega
  unfold placeAt
  rw [if_neg (by omega), if_neg (by omega), if_neg (by omega), if_neg (by omega), if_neg (by omega), if_neg (by omega),
    if_pos (by omega), hdiv]

/-- The gaps of R52's map, up to the last multiple of 4 in each. -/
theorem placeAt_unmapped {off : Nat}
    (h : (0x028 ≤ off ∧ off ≤ 0x3FC) ∨ (0xD10 ≤ off ∧ off ≤ 0xDFC) ∨ 0xE80 ≤ off) : placeAt off = .unmapped := by
  unfold placeAt
  rcases h with h | h | h
  · rw [if_pos (by omega)]
    split
    case h_11 => rfl
    all_goals omega
  · rw [if_neg (by omega), if_neg (by omega), if_neg (by omega), if_neg (by omega), if_pos (by omega)]
  · rw [if_neg (by omega), if_neg (by omega), if_neg (by omega), if_neg (by omega), if_neg (by omega), if_neg (by omega),
      if_neg (by omega)]

/-! ### Accesses of a wrong form (R54, R56) -/

theorem legalAccess_eq_false {width : Nat} {off : Offset} (h : width ≠ 4 ∨ off.toNat % 4 ≠ 0) :
    legalAccess width off = false := by
  simpa [legalAccess, ← not_and_or] using h

theorem legalAccess_word {o : Offset} (h : o.toNat % 4 = 0) : legalAccess 4 o = true := by simp [legalAccess, h]

/-- Settles O18: a write is served by asking BUSY first. -/
theorem writeWhileBusyIsDropped : Obligations.WriteWhileBusyIsDropped := by
  intro s width off v rest hb hh
  rw [step_cons hh]
  exact if_pos hb

/-- Settles O19: an access that is not legal is answered before the address map is read. -/
theorem misalignedOrNarrowAccessIsRejected : Obligations.MisalignedOrNarrowAccessIsRejected := by
  intro s width off rest h
  have hl : ¬ legalAccess width off = true := ne_true_of_eq_false (legalAccess_eq_false h)
  refine ⟨fun hh => ?_, fun v hb hh => ?_⟩ <;> rw [step_cons hh]
  · rw [serve, serveRead, busRead, if_neg hl]
    rfl
  · exact (if_neg (ne_true_of_eq_false hb)).trans (if_neg hl)

/-! ### Reads (R53) -/

/-- A read of a mapped offset returns its place's word and changes nothing. -/
theorem busRead_of_mapped {o : Offset} {p : Place} (hl : o.toNat % 4 = 0) (hp : placeAt o.toNat = p) (hne : p ≠ .unmapped)
    (s : State) : busRead 4 o s = (placeWord s p, s) := by
  subst hp
  rw [busRead, if_pos (legalAccess_word hl)]
  split
  · contradiction
  · rfl

theorem busRead_of_unmapped {o : Offset} (hl : o.toNat % 4 = 0) (hp : placeAt o.toNat = .unmapped) (s : State) :
    busRead 4 o s = (0, faultBadAccess s) := by
  rw [busRead, if_pos (legalAccess_word hl), hp]

theorem readsAs_of_placeAt (s : State) {off : Nat} (p : Place) (hl : off % 4 = 0) (hp : placeAt off = p)
    (hne : p ≠ .unmapped) : ReadsAs s off (placeWord s p) := by
  rintro o rest rfl
  rw [step_cons rfl, serve, serveRead, busRead_of_mapped hl hp hne]
  cases p <;> rfl

theorem readRejected_of_unmapped (s : State) {off : Nat} (hl : off % 4 = 0) (hp : placeAt off = .unmapped) :
    ReadRejected s off := by
  rintro o rest rfl
  rw [step_cons rfl, serve, serveRead, busRead_of_unmapped hl hp]
  rfl

/-- The ten registers and their words (R52). -/
theorem readsAs_registers (s : State) :
    ReadsAs s 0x000 0 ∧ ReadsAs s 0x004 (statusWord s) ∧ ReadsAs s 0x008 (phaseWord s) ∧ ReadsAs s 0x00C s.count ∧
      ReadsAs s 0x010 s.bitCount ∧ ReadsAs s 0x014 (decSymbolWord s) ∧ ReadsAs s 0x018 (decBitsWord s) ∧
      ReadsAs s 0x01C (encLastBitsWord s) ∧ ReadsAs s 0x020 (faultWord s) ∧ ReadsAs s 0x024 0x48554637 := by
  have h {off : Nat} := readsAs_of_placeAt s (off := off)
  exact ⟨h .cmd rfl rfl nofun, h .status rfl rfl nofun, h .phase rfl rfl nofun, h .count rfl rfl nofun,
    h .bitCount rfl rfl nofun, h .decSymbol rfl rfl nofun, h .decBits rfl rfl nofun, h .encLastBits rfl rfl nofun,
    h .fault rfl rfl nofun, h .id rfl rfl nofun⟩

/-- Settles O20: each offset's place, and what a read of a place returns. -/
theorem readsOfTheWindow : Obligations.ReadsOfTheWindow := by
  intro s
  refine ⟨readsAs_registers s, fun a => ⟨?_, ?_⟩, fun w hw => ?_, fun L h1 h16 => ⟨?_, ?_⟩, fun off hl h => ?_⟩
  · exact readsAs_of_placeAt s _ (by omega) (placeAt_freq a) nofun
  · exact readsAs_of_placeAt s _ (by omega) (placeAt_entry a) nofun
  · exact readsAs_of_placeAt s _ (by omega) (placeAt_packed hw) nofun
  · exact readsAs_of_placeAt s _ (by omega) (placeAt_first h1 h16) nofun
  · exact readsAs_of_placeAt s _ (by omega) (placeAt_index h1 h16) nofun
  · exact readRejected_of_unmapped s hl (placeAt_unmapped (by omega))

/-! ### Writes while not busy (R53) -/

/-- A write to a place other than CMD does what `writePlace` does there. -/
theorem step_write_idle {s : State} {o : Offset} {p : Place} (v : Word) (rest : List Event) (hb : busy s = false)
    (hl : o.toNat % 4 = 0) (hp : placeAt o.toNat = p) (hne : p ≠ .cmd) :
    step { s with host := .write 4 o v :: rest } = .next (writePlace v { s with host := rest } p) := by
  subst hp
  rw [step_cons rfl]
  exact (if_neg (ne_true_of_eq_false hb)).trans ((if_pos (legalAccess_word hl)).trans (if_neg hne))

/-- The places a host write of which is rejected: all but CMD, FREQ and PACKED. -/
def Place.rejectsWrites : Place → Prop
  | .cmd | .freq _ | .packed _ => False
  | .status | .phase | .count | .bitCount | .decSymbol | .decBits | .encLastBits | .fault | .id => True
  | .entry _ | .first _ | .index _ | .unmapped => True

theorem writePlace_of_rejectsWrites {p : Place} (h : p.rejectsWrites) (v : Word) (s : State) :
    writePlace v s p = faultBadAccess s := by
  cases p with
  | cmd | freq | packed => exact h.elim
  | _ => rfl

theorem placeAt_rejectsWrites {off : Nat}
    (h : (0x004 ≤ off ∧ off ≤ 0x3FC) ∨ (0x800 ≤ off ∧ off ≤ 0xBFC) ∨ 0xD10 ≤ off) : (placeAt off).rejectsWrites := by
  unfold placeAt
  rcases h with h | h | h
  · rw [if_pos (by omega)]
    split
    case h_1 => omega
    all_goals trivial
  · rw [if_neg (by omega), if_neg (by omega), if_pos (by omega)]
    trivial
  · rw [if_neg (by omega), if_neg (by omega), if_neg (by omega), if_neg (by omega)]
    split_ifs <;> trivial

theorem writeRejected_of_rejectsWrites {s : State} {off : Nat} (hb : busy s = false) (hl : off % 4 = 0)
    (h : (placeAt off).rejectsWrites) : WriteRejected s off := by
  rintro o v rest rfl
  have hne : placeAt o.toNat ≠ .cmd := fun hc => by rw [hc] at h; exact h
  rw [step_write_idle v rest hb hl rfl hne, writePlace_of_rejectsWrites h]
  rfl

theorem readByte_writePackedWord_same (m : Memory) (w : Nat) (v : Word) {j : Nat} (hj : j < 4) :
    readByte (writePackedWord m w v) (4 * w + j) = v.extractLsb' (8 * j) 8 := by
  obtain rfl | rfl | rfl | rfl : j = 0 ∨ j = 1 ∨ j = 2 ∨ j = 3 := by omega
  all_goals simp [readByte_writePackedWord]

theorem readByte_writePackedWord_other (m : Memory) {w : Nat} (v : Word) {x : Nat} (hx : x < 4 * w ∨ 4 * w + 4 ≤ x) :
    readByte (writePackedWord m w v) x = readByte m x := by
  rw [readByte_writePackedWord, if_neg (by omega), if_neg (by omega), if_neg (by omega), if_neg (by omega)]

/-- Settles O21: each offset's place, and what a write stores there; every other place rejects it. -/
theorem writesOfTheWindow : Obligations.WritesOfTheWindow := by
  intro s v rest hb
  refine ⟨fun o a ho => ?_, fun o w hw ho => ?_, fun off hl h => ?_⟩
  · exact ⟨_, step_write_idle (p := .freq a) v rest hb (by omega) (ho ▸ placeAt_freq a) nofun,
      fun b => freqAt_setFreq a b v s⟩
  · exact ⟨_, step_write_idle (p := .packed w) v rest hb (by omega) (ho ▸ placeAt_packed hw) nofun,
      fun _ hj => readByte_writePackedWord_same s.packed w v hj,
      fun _ hx => readByte_writePackedWord_other s.packed v hx⟩
  · exact writeRejected_of_rejectsWrites hb hl (placeAt_rejectsWrites (by omega))

end Sys2Proof.Machine
end

section
/-! SUPPORT. The command word: its three fields, what the decoder answers at an opcode and at any other byte, the rows of
spec/opcode_table.json, and the words of the array windows (spec/30_encoding.md R70 to R80, spec/20_memory.md R48). -/

namespace Sys2Proof

/-! ### The fields of a word (R70) -/

section
open BitVec

/-- The word of the three fields RSV, ARG and OP. -/
def wordOf (r : BitVec 16) (a o : BitVec 8) : Word := r ++ (a ++ o)

@[simp] theorem wordRsv_wordOf (r : BitVec 16) (a o : BitVec 8) : wordRsv (wordOf r a o) = r := extractLsb'_append_eq_left

@[simp] theorem wordArg_wordOf (r : BitVec 16) (a o : BitVec 8) : wordArg (wordOf r a o) = a := by
  rw [wordArg, wordOf, extractLsb'_append_eq_of_add_le (by omega), extractLsb'_append_eq_left]

@[simp] theorem wordOp_wordOf (r : BitVec 16) (a o : BitVec 8) : wordOp (wordOf r a o) = o := by
  rw [wordOp, wordOf, extractLsb'_append_eq_of_add_le (by omega), extractLsb'_append_eq_right]

@[simp] theorem wordRsv_and (w v : Word) : wordRsv (w &&& v) = wordRsv w &&& wordRsv v := extractLsb'_and

@[simp] theorem wordArg_and (w v : Word) : wordArg (w &&& v) = wordArg w &&& wordArg v := extractLsb'_and

@[simp] theorem wordOp_and (w v : Word) : wordOp (w &&& v) = wordOp w &&& wordOp v := extractLsb'_and

theorem wordOf_fields (w : Word) : wordOf (wordRsv w) (wordArg w) (wordOp w) = w := by
  have hlow : wordArg w ++ wordOp w = w.extractLsb' 0 16 := extractLsb'_append_extractLsb'_eq_extractLsb' rfl
  rw [wordOf, hlow]
  exact extractLsb'_append_extractLsb' (w := 16) (len := 16)

theorem word_ext_iff {w v : Word} : w = v ↔ wordRsv w = wordRsv v ∧ wordArg w = wordArg v ∧ wordOp w = wordOp v := by
  refine ⟨by rintro rfl; exact ⟨rfl, rfl, rfl⟩, fun ⟨hrsv, harg, hop⟩ => ?_⟩
  rw [← wordOf_fields w, hrsv, harg, hop, wordOf_fields]

end

theorem encode_eq_iff {i : Instr} {w : Word} :
    encode i = w ↔ wordRsv w = 0 ∧ wordArg w = argument i ∧ wordOp w = opcode i := by
  obtain ⟨hop, harg, hrsv⟩ := encode_fields i
  rw [eq_comm, word_ext_iff, hop, harg, hrsv]

/-! ### A command of a given operand (R71) -/

/-- The command of the same opcode with ARG `arg`, where the opcode has an operand. -/
def Instr.withArgument (arg : BitVec 8) : Instr → Instr
  | .loadRef _ => .loadRef arg
  | .encInit _ => .encInit arg
  | .encStep _ => .encStep arg
  | i => i

/-- Whether ARG `arg` is legal at the opcode of a command. -/
def Instr.takes : Instr → BitVec 8 → Bool
  | .loadRef _, arg => decide (arg.toNat < 4)
  | .encInit _, arg => decide (arg.toNat < 2)
  | .encStep _, _ => true
  | _, arg => decide (arg.toNat = 0)

@[simp] theorem opcode_withArgument (arg : BitVec 8) (i : Instr) : opcode (i.withArgument arg) = opcode i := by
  cases i <;> rfl

@[simp] theorem mnemonic_withArgument (arg : BitVec 8) (i : Instr) : mnemonic (i.withArgument arg) = mnemonic i := by
  cases i <;> rfl

@[simp] theorem withArgument_argument (i : Instr) : i.withArgument (argument i) = i := by
  cases i <;> rfl

@[simp] theorem takes_argument (i : Instr) : i.takes (argument i) = i.wellFormed := by
  cases i <;> rfl

/-- A legal ARG is an operand of the command, or 0 where it has none. -/
theorem argument_withArgument {i : Instr} {arg : BitVec 8} (h : i.takes arg = true) :
    argument (i.withArgument arg) = arg := by
  cases i with
  | loadRef | encInit | encStep => rfl
  | _ => exact BitVec.eq_of_toNat_eq (of_decide_eq_true h).symm

theorem wellFormed_withArgument {i : Instr} {arg : BitVec 8} (h : i.takes arg = true) :
    (i.withArgument arg).wellFormed = true := by
  cases i with
  | loadRef | encInit => exact h
  | _ => rfl

/-! ### The decoder (R72 to R74) -/

theorem opcode_of_plainCommand {op : BitVec 8} {i : Instr} (h : plainCommand op = some i) : opcode i = op := by
  unfold plainCommand at h
  split at h <;> cases h <;> exact BitVec.eq_of_toNat_eq (Eq.symm ‹_›)

/-- At a command's opcode the operand decides. -/
theorem decodeFields_opcode (i : Instr) (arg : BitVec 8) :
    decodeFields (opcode i) arg = if i.takes arg then .ok (i.withArgument arg) else .error .argumentOutOfRange := by
  cases i with
  | encStep => rfl
  | _ => simp [decodeFields, plainCommand, opcode, Instr.takes, Instr.withArgument]

theorem decodeFields_of_unknown {op : BitVec 8} (h : ∀ i, opcode i ≠ op) (arg : BitVec 8) :
    decodeFields op arg = .error .unknownOpcode := by
  have hne (i : Instr) (hi : (opcode i).toNat = op.toNat) : False := h i (BitVec.eq_of_toNat_eq hi)
  unfold decodeFields
  split
  · next hop => exact (hne (.encStep arg) hop.symm).elim
  · next hop => exact (hne (.encInit arg) hop.symm).elim
  · next hop => exact (hne (.loadRef arg) hop.symm).elim
  · split
    · next i hi => exact absurd (opcode_of_plainCommand hi) (h i)
    · rfl

theorem decode_of_reserved {w : Word} (h : wordRsv w ≠ 0) : decode w = .error .reservedBits := if_neg h

theorem decode_of_unknown {w : Word} (hrsv : wordRsv w = 0) (hop : ∀ i, opcode i ≠ wordOp w) :
    decode w = .error .unknownOpcode :=
  (if_pos hrsv).trans (decodeFields_of_unknown hop _)

theorem decode_of_opcode {w : Word} {i : Instr} (hrsv : wordRsv w = 0) (hop : opcode i = wordOp w) :
    decode w = if i.takes (wordArg w) then .ok (i.withArgument (wordArg w)) else .error .argumentOutOfRange := by
  rw [decode, if_pos hrsv, ← hop, decodeFields_opcode]

theorem decode_encode {i : Instr} (h : i.wellFormed = true) : decode (encode i) = .ok i := by
  obtain ⟨hop, harg, hrsv⟩ := encode_fields i
  rw [decode_of_opcode hrsv hop.symm, harg, takes_argument, if_pos h, withArgument_argument]

/-- A word decodes to a command exactly when it is the word of that command and the command has one. -/
theorem decode_eq_ok_iff {w : Word} {i : Instr} : decode w = .ok i ↔ i.wellFormed = true ∧ encode i = w := by
  refine ⟨fun h => ?_, by rintro ⟨hi, rfl⟩; exact decode_encode hi⟩
  by_cases hrsv : wordRsv w = 0
  · by_cases hop : ∃ j, opcode j = wordOp w
    · obtain ⟨j, hj⟩ := hop
      rw [decode_of_opcode hrsv hj] at h
      split at h
      · next ht =>
        cases h
        exact ⟨wellFormed_withArgument ht,
          encode_eq_iff.2 ⟨hrsv, (argument_withArgument ht).symm, by rw [opcode_withArgument, hj]⟩⟩
      · cases h
    · rw [decode_of_unknown hrsv (not_exists.1 hop)] at h
      cases h
  · rw [decode_of_reserved hrsv] at h
    cases h

/-- Settles O1: at a command's own opcode and operand the decoder gives the command back. -/
theorem decodeOfEncodeIsTheCommand : Obligations.DecodeOfEncodeIsTheCommand := fun _ => decode_encode

/-- Settles O2: the three fields of a word that decodes are those of its command's word. -/
theorem encodeOfDecodeIsTheWord : Obligations.EncodeOfDecodeIsTheWord := fun _ _ => decode_eq_ok_iff.1

/-- Settles O5: each word is the word of its command. -/
theorem wordsOfEachFamilyDecode : Obligations.WordsOfEachFamilyDecode := by
  simp only [Obligations.WordsOfEachFamilyDecode, decode_eq_ok_iff]
  decide

/-! ### The opcode map (R72) -/

/-- One command of each opcode, in the order of the opcode map; an operand is 0. -/
def commands : List Instr :=
  [.clear, .statFreq, .buildFreq, .tableDecode, .tableEncode, .loadRef 0, .buildAnchors, .encInit 0, .encStep 0, .encRun,
    .encDone, .decInit, .decStep, .decRun, .decDone]

theorem withArgument_zero_mem_commands (i : Instr) : i.withArgument 0 ∈ commands := by
  cases i <;> simp [commands, Instr.withArgument]

/-- The opcodes of the opcode map. -/
def knownOpcodes : List (BitVec 8) := commands.map opcode

theorem mem_knownOpcodes {op : BitVec 8} : op ∈ knownOpcodes ↔ ∃ i, opcode i = op := by
  refine ⟨fun h => ?_, fun ⟨i, hi⟩ => ?_⟩
  · obtain ⟨i, _, hi⟩ := List.mem_map.1 h
    exact ⟨i, hi⟩
  · exact List.mem_map.2 ⟨_, withArgument_zero_mem_commands i, (opcode_withArgument 0 i).trans hi⟩

/-! ### The rows of spec/opcode_table.json -/

/-- The bits of ARG that a command's row fixes at 0: those no legal operand has. -/
def argumentMask : Instr → BitVec 8
  | .loadRef _ => 0xFC
  | .encInit _ => 0xFE
  | .encStep _ => 0x00
  | _ => 0xFF

/-- The row of a command. -/
def opcodeRow (i : Instr) : OpcodeRow :=
  ⟨mnemonic i, wordOf 0 0 (opcode i), wordOf (.allOnes 16) (argumentMask i) (.allOnes 8)⟩

@[simp] theorem opcodeRow_withArgument (arg : BitVec 8) (i : Instr) : opcodeRow (i.withArgument arg) = opcodeRow i := by
  cases i <;> rfl

theorem opcodeRows_eq : opcodeRows = commands.map opcodeRow := by decide

theorem mem_opcodeRows {r : OpcodeRow} : r ∈ opcodeRows ↔ ∃ i, opcodeRow i = r := by
  rw [opcodeRows_eq]
  refine ⟨fun h => ?_, fun ⟨i, hi⟩ => ?_⟩
  · obtain ⟨i, _, hi⟩ := List.mem_map.1 h
    exact ⟨i, hi⟩
  · exact List.mem_map.2 ⟨_, withArgument_zero_mem_commands i, (opcodeRow_withArgument 0 i).trans hi⟩

theorem and_argumentMask_eq_zero_iff (i : Instr) (arg : BitVec 8) : arg &&& argumentMask i = 0 ↔ i.takes arg = true := by
  cases i with
  | loadRef => exact (by decide : ∀ a : BitVec 8, a &&& 0xFC = 0 ↔ decide (a.toNat < 4) = true) arg
  | encInit => exact (by decide : ∀ a : BitVec 8, a &&& 0xFE = 0 ↔ decide (a.toNat < 2) = true) arg
  | encStep => simp [argumentMask, Instr.takes]
  | _ => exact (by decide : ∀ a : BitVec 8, a &&& 0xFF = 0 ↔ decide (a.toNat = 0) = true) arg

theorem rowMatches_opcodeRow {i : Instr} {w : Word} :
    rowMatches (opcodeRow i) w = true ↔ wordRsv w = 0 ∧ i.takes (wordArg w) = true ∧ wordOp w = opcode i := by
  rw [rowMatches, beq_iff_eq, word_ext_iff, ← and_argumentMask_eq_zero_iff]
  simp only [opcodeRow, wordRsv_and, wordArg_and, wordOp_and, wordRsv_wordOf, wordArg_wordOf, wordOp_wordOf,
    BitVec.and_allOnes]

/-- Settles O3: a row fixes RSV, OP and the bits of ARG that no legal operand has. -/
theorem legalWordsAreTheOpcodeRows : Obligations.LegalWordsAreTheOpcodeRows := by
  refine fun w => ⟨fun i hd => ?_, fun r hr hm => ?_⟩
  · obtain ⟨hi, hw⟩ := decode_eq_ok_iff.1 hd
    obtain ⟨hrsv, harg, hop⟩ := encode_eq_iff.1 hw
    exact ⟨opcodeRow i, mem_opcodeRows.2 ⟨i, rfl⟩, rfl, rowMatches_opcodeRow.2 ⟨hrsv, by rwa [harg, takes_argument], hop⟩⟩
  · obtain ⟨i, rfl⟩ := mem_opcodeRows.1 hr
    obtain ⟨hrsv, harg, hop⟩ := rowMatches_opcodeRow.1 hm
    exact ⟨_, (decode_of_opcode hrsv hop.symm).trans (if_pos harg), mnemonic_withArgument _ i⟩

/-! ### Illegal words (R73) -/

/-- ARG is outside the legal set of its OP (R71, R73). -/
def badArgument (op arg : BitVec 8) : Prop :=
  (op = 0x06 ∧ 4 ≤ arg.toNat) ∨ (op = 0x10 ∧ 2 ≤ arg.toNat) ∨ (op ≠ 0x06 ∧ op ≠ 0x10 ∧ op ≠ 0x11 ∧ arg ≠ 0)

theorem badArgument_opcode_iff (i : Instr) (arg : BitVec 8) : badArgument (opcode i) arg ↔ ¬ i.takes arg = true := by
  cases i with
  | loadRef | encInit | encStep => simp [badArgument, opcode, Instr.takes, Nat.succ_le_iff]
  | _ => simp [badArgument, opcode, Instr.takes, BitVec.toNat_eq]

/-- Settles O4: RSV is checked first, then OP, then ARG at a known OP. -/
theorem illegalWordsAndTheirReasons : Obligations.IllegalWordsAndTheirReasons := by
  refine fun w => ⟨decode_of_reserved, fun hrsv hop => ?_, fun hrsv hop harg => ?_, fun hrsv hop harg => ?_⟩
  · exact decode_of_unknown hrsv fun i hi => hop (mem_knownOpcodes.2 ⟨i, hi⟩)
  · obtain ⟨i, hi⟩ := mem_knownOpcodes.1 hop
    have hbad : badArgument (opcode i) (wordArg w) := hi ▸ harg
    exact (decode_of_opcode hrsv hi).trans (if_neg ((badArgument_opcode_iff i _).1 hbad))
  · obtain ⟨i, hi⟩ := mem_knownOpcodes.1 hop
    have hgood : ¬ badArgument (opcode i) (wordArg w) := hi ▸ harg
    exact ⟨_, (decode_of_opcode hrsv hi).trans (if_pos (not_not.1 (mt (badArgument_opcode_iff i _).2 hgood)))⟩

/-- A word that R73 calls illegal is one the decoder rejects. -/
theorem decode_of_illegal {w : Word}
    (h : wordRsv w ≠ 0 ∨ wordOp w ∉ knownOpcodes ∨ badArgument (wordOp w) (wordArg w)) : ∃ e, decode w = .error e := by
  obtain ⟨hreserved, hunknown, hargument, _⟩ := illegalWordsAndTheirReasons w
  by_cases hrsv : wordRsv w = 0
  · by_cases hop : wordOp w ∈ knownOpcodes
    · exact ⟨_, hargument hrsv hop ((h.resolve_left (not_not.2 hrsv)).resolve_left (not_not.2 hop))⟩
    · exact ⟨_, hunknown hrsv hop⟩
  · exact ⟨_, hreserved hrsv⟩

end Sys2Proof

namespace Sys2Proof.Machine

theorem issue_of_illegal {w : Word} {e : Illegal} (h : decode w = .error e) (s : State) :
    issue w s = .next (finish .illegalCommand (setLastOp w s)) := by
  rw [issue, h]

/-- A write to CMD while not busy issues its word (R89). -/
theorem step_write_cmd {s : State} {w : Word} {rest : List Event} (hb : busy s = false)
    (hh : s.host = .write 4 0x000 w :: rest) : step s = issue w (setHost rest s) := by
  rw [step_cons hh]
  exact (if_neg (ne_true_of_eq_false hb)).trans ((if_pos (legalAccess_word rfl)).trans (if_pos rfl))

/-- Settles O7: the issue of a word the decoder rejects is LAST_OP and a finish. -/
theorem illegalWordChangesStatusAlone : Obligations.IllegalWordChangesStatusAlone := by
  intro s w rest hb hh hw
  obtain ⟨e, he⟩ := decode_of_illegal hw
  rw [step_write_cmd hb hh, issue_of_illegal he]
  rfl

/-! ### The words of the array windows (R48, R80) -/

section
open BitVec

/-- The fields of an ENTRY word (R80). -/
theorem entryWord_fields (a : Symbol) (e : CodeEntry) :
    (entryWord a e).extractLsb' 0 8 = a ∧ (entryWord a e).extractLsb' 8 5 = e.depth ∧
      (entryWord a e).extractLsb' 13 3 = 0 ∧ (entryWord a e).extractLsb' 16 16 = e.code := by
  unfold entryWord
  refine ⟨?_, ?_, ?_, extractLsb'_append_eq_left⟩
  · rw [extractLsb'_append_eq_of_add_le (by omega), extractLsb'_append_eq_of_add_le (by omega), extractLsb'_append_eq_right]
  · rw [extractLsb'_append_eq_of_add_le (by omega), extractLsb'_append_eq_of_add_le (by omega), extractLsb'_append_eq_left]
  · rw [extractLsb'_append_eq_of_add_le (by omega)]
    exact extractLsb'_append_eq_left

/-- The bytes of a PACKED word are in rising order of address (R48). -/
theorem packedWord_bytes (m : Memory) (w : Nat) :
    (packedWord m w).extractLsb' 0 8 = readByte m (4 * w) ∧ (packedWord m w).extractLsb' 8 8 = readByte m (4 * w + 1) ∧
      (packedWord m w).extractLsb' 16 8 = readByte m (4 * w + 2) ∧
      (packedWord m w).extractLsb' 24 8 = readByte m (4 * w + 3) := by
  unfold packedWord
  refine ⟨?_, ?_, ?_, extractLsb'_append_eq_left⟩
  · rw [extractLsb'_append_eq_of_add_le (by omega), extractLsb'_append_eq_of_add_le (by omega),
      extractLsb'_append_eq_of_add_le (by omega), extractLsb'_eq_self]
  · rw [extractLsb'_append_eq_of_add_le (by omega), extractLsb'_append_eq_of_add_le (by omega), extractLsb'_append_eq_left]
  · rw [extractLsb'_append_eq_of_add_le (by omega), extractLsb'_append_eq_left]

end

/-- Settles O23: every field is found at its offset in the appended word. -/
theorem entryAndPackedWordLayouts : Obligations.EntryAndPackedWordLayouts := by
  refine ⟨entryWord_fields, rfl, fun m w j hj => ?_⟩
  obtain ⟨h0, h1, h2, h3⟩ := packedWord_bytes m w
  obtain rfl | rfl | rfl | rfl : j = 0 ∨ j = 1 ∨ j = 2 ∨ j = 3 := by omega
  · exact h0
  · exact h1
  · exact h2
  · exact h3

end Sys2Proof.Machine
end

section
/-! SUPPORT. The issue of a command and its phases: the phase each command leaves, the start of an iterating command, and
CLEAR (spec/40_session.md R89 to R96). -/

namespace Sys2Proof.Machine

/-! ### The issue of a legal word (R89) -/

theorem issue_of_legal {w : Word} {i : Instr} (h : decode w = .ok i) (s : State) :
    issue w s = exec i (setLastOp w s) := by
  rw [issue, h]

/-- A 32-bit word is placed as it is. -/
theorem withFetchWord_toNat (s : State) (w : Word) : s.withFetchWord 32 w.toNat = placeCommand w s := by
  rw [State.withFetchWord, Nat.mod_eq_of_lt w.isLt, BitVec.ofNat_toNat, BitVec.setWidth_eq]

/-- Settles O6: a word at CMD is issued, and a placed word is the next event of a block that is not busy. -/
theorem commandWriteRunsTheDecodedCommand : Obligations.CommandWriteRunsTheDecodedCommand := by
  refine fun s w i hd => ⟨fun rest hb hh => ?_, ?_⟩
  · rw [step_write_cmd hb hh, issue_of_legal hd]
    rfl
  · have hstep : step (placeCommand w s) = issue w (setHost s.host (placeCommand w s)) := step_write_cmd rfl rfl
    rw [withFetchWord_toNat, hstep, issue_of_legal hd]
    rfl

/-! ### The phase a command leaves (R92) -/

/-- R92's table: the phase a command leaves, by the phase before it and the code it ends with. -/
def phaseLeft : Instr → Phase → StatusCode → Phase
  | .clear, _, _ => .idle
  | .encInit _, _, c => if c = .ok then .encActive else .idle
  | .decInit, _, c => if c = .ok then .decActive else .idle
  | .encDone, p, c => if p = .encActive ∧ c = .ok then .encDone else p
  | .decDone, p, _ => if p = .decActive then .decDone else p
  | _, p, _ => p

/-- ENC_INIT's legal operands are its two modes (R71, R146). -/
theorem encMode_of_wellFormed {mode : BitVec 8} (h : (Instr.encInit mode).wellFormed = true) :
    ∃ m, encMode mode = some m := by
  have hlt : mode.toNat < 2 := by simpa [Instr.wellFormed] using h
  obtain h0 | h1 : mode.toNat = 0 ∨ mode.toNat = 1 := by omega
  · exact ⟨.fromFrequency, by simp [encMode, h0]⟩
  · exact ⟨.fromTable, by simp [encMode, h1]⟩

/-- ENC_INIT in either mode leaves a pass active or no pass at all (R146). -/
theorem encInitBody_phase {mode : BitVec 8} (h : (Instr.encInit mode).wellFormed = true) (s : State) :
    (encInitBody mode s).phase = if (encInitBody mode s).code = .ok then .encActive else .idle := by
  obtain ⟨m, hm⟩ := encMode_of_wellFormed h
  rw [encInitBody, hm]
  cases m <;> dsimp only <;> split <;> rfl

theorem decInitBody_phase (s : State) :
    (decInitBody s).phase = if (decInitBody s).code = .ok then .decActive else .idle := by
  rcases decInitBody_cases s with h | h <;> rw [h] <;> rfl

theorem sendBits_phase (bs : List Bool) (s : State) : (sendBits bs s).state.phase = s.phase := by
  rw [sendBits_frame]

/-- ENC_DONE ends the pass when every pad bit is taken (R160). -/
theorem encDoneBody_phase (s : State) :
    (encDoneBody s).phase = if (encDoneBody s).code = .ok then .encDone else s.phase := by
  unfold encDoneBody
  split
  · next h => exact h
  · dsimp only
    split
    · rfl
    · exact sendBits_phase _ s

theorem decDoneBody_phase (s : State) : (decDoneBody s).phase = .decDone := by
  unfold decDoneBody
  split
  · next h => exact h
  · rfl

/-- A command in a phase that allows it leaves R92's phase. -/
theorem bodyOf_phase {i : Instr} {s : State} (hw : i.wellFormed = true) (hp : phaseOk i s.phase = true) :
    (bodyOf i s).phase = phaseLeft i s.phase (bodyOf i s).code := by
  cases i with
  | clear => rfl
  | encInit mode => exact encInitBody_phase hw s
  | decInit => exact decInitBody_phase s
  | encDone =>
    refine (encDoneBody_phase s).trans ?_
    have hp' : s.phase = .encActive ∨ s.phase = .encDone := by simpa [phaseOk] using hp
    rcases hp' with h | h <;> simp [phaseLeft, bodyOf, h]
  | decDone =>
    refine (decDoneBody_phase s).trans ?_
    have hp' : s.phase = .decActive ∨ s.phase = .decDone := by simpa [phaseOk] using hp
    rcases hp' with h | h <;> simp [phaseLeft, h]
  | _ => exact sameColumn_bodyOf (c := .phase) rfl s

/-- R92's table keeps the phase that turns a command away. -/
theorem phaseLeft_illegalState {i : Instr} {p : Phase} (h : phaseOk i p = false) : phaseLeft i p .illegalState = p := by
  cases i with
  | clear | encInit | decInit => cases h
  | decDone =>
    have hp : p ≠ .decActive := by rintro rfl; cases h
    exact if_neg hp
  | encDone => exact if_neg (by simp)
  | _ => rfl

theorem exec_phase {i : Instr} {s t : State} (hw : i.wellFormed = true) (h : exec i s = .next t) :
    t.phase = phaseLeft i s.phase t.code := by
  rcases exec_cases h with ⟨hp, rfl⟩ | ⟨hp, rfl⟩
  · exact bodyOf_phase hw hp
  · exact (phaseLeft_illegalState hp).symm

/-- No iteration writes PHASE (R41, R92). -/
@[simp] theorem iterate_phase (s : State) : (iterate s).phase = s.phase :=
  sameColumn_iterate (c := .phase) (by cases s.runKind <;> rfl)

/-- Settles O8: the phase check turns a command away, and each command's rule leaves R92's phase. -/
theorem phaseRules : Obligations.PhaseRules := by
  refine ⟨fun s => ⟨fun henc => ?_, fun henc hdone => ?_, fun hdec => ?_, fun hdec hdone => ?_⟩, fun i s t hw h => ?_,
    iterate_phase⟩
  · have hp : (s.phase == .encActive) = false := beq_false_of_ne henc
    exact ⟨fun a => exec_of_not_phaseOk (i := .encStep a) hp, exec_of_not_phaseOk (i := .encRun) hp⟩
  · exact exec_of_not_phaseOk (i := .encDone) (by simp [phaseOk, henc, hdone])
  · have hp : (s.phase == .decActive) = false := beq_false_of_ne hdec
    exact ⟨exec_of_not_phaseOk (i := .decStep) hp, exec_of_not_phaseOk (i := .decRun) hp⟩
  · exact exec_of_not_phaseOk (i := .decDone) (by simp [phaseOk, hdec, hdone])
  · refine (exec_phase hw h).trans ?_
    cases i <;> rfl

/-! ### The start of a run, and CLEAR (R94, R96) -/

theorem busy_iff (t : State) : busy t = true ↔ t.runKind ≠ .none := bne_iff_ne

/-- Settles O11: in a phase that allows it, an iterating command is `startRun`. -/
theorem iteratingCommandsStart : Obligations.IteratingCommandsStart := fun _ =>
  ⟨exec_of_phaseOk (i := .statFreq) rfl, fun h => exec_of_phaseOk (i := .encRun) (beq_of_eq h),
    fun h => exec_of_phaseOk (i := .decRun) (beq_of_eq h), busy_iff⟩

/-- Settles O25: CLEAR is allowed in any phase, and its rule writes the reset values. -/
theorem clearIsResetButForFaultAndStatus : Obligations.ClearIsResetButForFaultAndStatus := fun s =>
  ⟨clearBody s, exec_of_phaseOk (i := .clear) rfl, rfl, rfl, ⟨rfl, rfl, rfl, rfl⟩, fun _ => rfl,
    ⟨rfl, rfl, rfl, rfl, rfl, rfl, rfl⟩, ⟨rfl, rfl, rfl, rfl, rfl⟩, rfl, rfl, rfl, rfl⟩

end Sys2Proof.Machine
end

section
/-! SUPPORT. The frequency analyzer: the three cases of a STAT_FREQ iteration, and a whole run over a finite source
(spec/41_builder.md R100, R101). -/

namespace Sys2Proof.Machine

/-! ### One iteration (R101) -/

theorem step_of_stat {s : State} (hk : s.runKind = .stat) (hh : s.host = []) : step s = .next (statIteration s) := by
  rw [step_nil hh, iterate, hk]

/-- With the source exhausted the iteration ends the run. -/
theorem statIteration_of_none {s : State} (h : s.symSource.avail.1 = none) :
    statIteration s = finish .ok (symAvail s).2 := by
  simp [statIteration, symAvail, h]

/-- With a symbol available the iteration consumes it, and counts it when its counter has room. -/
theorem statIteration_of_some {s : State} {a : Symbol} (h : s.symSource.avail.1 = some a) :
    statIteration s =
      if freqAt s a = 0xFFFFFFFF then finish .preconditionViolated (faultFreqOverflow (symPull (symAvail s).2))
      else countSymbol (setFreq a (freqAt s a + 1) (symPull (symAvail s).2)) := by
  simp only [statIteration, symAvail, h]
  rfl

theorem counter_full_iff (v : Word) : v = 0xFFFFFFFF ↔ v.toNat = 2 ^ 32 - 1 := BitVec.toNat_inj.symm

/-- A counter with room goes up by one; every other one stays. -/
theorem freqAt_counted {s : State} {a : Symbol} (hroom : (freqAt s a).toNat ≠ 2 ^ 32 - 1) (b : Symbol) :
    (freqAt (setFreq a (freqAt s a + 1) s) b).toNat = (freqAt s b).toNat + if b = a then 1 else 0 := by
  rw [freqAt_setFreq]
  split
  · next hb =>
    have := (freqAt s a).isLt
    rw [hb, BitVec.toNat_add, show (1 : Word).toNat = 1 from rfl, Nat.mod_eq_of_lt (by omega)]
  · rfl

/-- Settles O31: the source answers no, or shows a symbol whose counter is full or has room. -/
theorem statFreqIteration : Obligations.StatFreqIteration := by
  intro s hk hh
  have hstep := step_of_stat hk hh
  refine ⟨fun h => ?_, fun a h hfull => ?_, fun a h hroom => ?_⟩
  · rw [hstep, statIteration_of_none h]
    rfl
  · rw [hstep, statIteration_of_some h, if_pos ((counter_full_iff _).2 hfull)]
    rfl
  · refine ⟨(setFreq a (freqAt s a + 1) s).freq, ?_, ?_, fun b hb => ?_⟩
    · rw [hstep, statIteration_of_some h, if_neg fun he => hroom ((counter_full_iff _).1 he)]
      rfl
    · exact (freqAt_counted hroom a).trans (by rw [if_pos rfl])
    · exact (freqAt_setFreq a b _ s).trans (if_neg hb)

/-! ### A whole run (R100) -/

/-- A run is its first step and the run from there. -/
theorem run_of_step {M : Host.Core} {s u : M.State} (n : Nat) (h : M.step s = .next u) : M.run (n + 1) s = M.run n u := by
  simp [Host.Core.run, h]

/-- The block after a run over a finite source of `n` symbols has left the counters at `f` (R100). -/
def statDone (f : Vector Word 256) (n : Nat) (s : State) : State :=
  { s with
    freq := f, symSource := ⟨[], none, []⟩, count := s.count + BitVec.ofNat 32 n, code := .ok, runKind := .none }

/-- The source found exhausted at once. -/
theorem statDone_exhausted {s : State} (h : s.symSource = ⟨[], none, []⟩) :
    finish .ok (symAvail s).2 = statDone s.freq 0 s := by
  simp [finish, symAvail, statDone, h, Source.avail]

/-- A symbol counted before the rest of the source. -/
theorem statDone_countSymbol (f : Vector Word 256) (n : Nat) (a : Symbol) (v : Word) (s : State) :
    statDone f n (countSymbol (setFreq a v (symPull (symAvail s).2))) = statDone f (n + 1) s := by
  have hcount : s.count + 1 + BitVec.ofNat 32 n = s.count + BitVec.ofNat 32 (n + 1) := by
    rw [BitVec.add_assoc, Nat.add_comm, BitVec.ofNat_add]
    rfl
  simp only [statDone, ← hcount]
  rfl

/-- A run over a finite source, from any state of it with room for the symbols left. -/
theorem run_statIterations (xs : List Symbol) {s : State} (hk : s.runKind = .stat) (hh : s.host = [])
    (hsrc : s.symSource = ⟨xs, none, []⟩) (hroom : ∀ a, (freqAt s a).toNat + xs.count a < 2 ^ 32) :
    ∃ f, core.run (xs.length + 1) s = .next (statDone f xs.length s) ∧
      ∀ a, (freqAt (statDone f xs.length s) a).toNat = (freqAt s a).toNat + xs.count a := by
  have hstep := step_of_stat hk hh
  induction xs generalizing s with
  | nil =>
    rw [statIteration_of_none (by rw [hsrc]; rfl)] at hstep
    rw [statDone_exhausted hsrc] at hstep
    exact ⟨s.freq, run_of_step (M := core) 0 hstep, fun a => rfl⟩
  | cons x xs ih =>
    have hx : (freqAt s x).toNat ≠ 2 ^ 32 - 1 := by
      have := hroom x
      rw [List.count_cons_self] at this
      omega
    rw [statIteration_of_some (a := x) (by rw [hsrc]; rfl), if_neg fun he => hx ((counter_full_iff _).1 he)] at hstep
    have hcounted (a : Symbol) : (freqAt (setFreq x (freqAt s x + 1) s) a).toNat + xs.count a =
        (freqAt s a).toNat + (x :: xs).count a := by
      rw [freqAt_counted hx, List.count_cons]
      simp only [beq_iff_eq, eq_comm (a := x)]
      omega
    obtain ⟨f, hrun, hf⟩ := ih (s := countSymbol (setFreq x (freqAt s x + 1) (symPull (symAvail s).2))) hk hh
      (by simp [hsrc, Source.avail, Source.pull]) (fun a => (hcounted a).trans_lt (hroom a))
      (step_of_stat hk hh)
    rw [statDone_countSymbol] at hrun hf
    exact ⟨f, (run_of_step (M := core) _ hstep).trans hrun, fun a => (hf a).trans (hcounted a)⟩

/-- Settles O32: STAT_FREQ starts at COUNT 0, and its run counts the source's symbols. -/
theorem statFreqCountsEverySymbol : Obligations.StatFreqCountsEverySymbol := by
  intro s xs hh hsrc hroom
  obtain ⟨f, hrun, hf⟩ := run_statIterations xs (s := startRun .stat s) rfl hh hsrc hroom
  have hcount : (startRun .stat s).count + BitVec.ofNat 32 xs.length = BitVec.ofNat 32 xs.length := BitVec.zero_add _
  rw [statDone, hcount] at hrun
  exact ⟨startRun .stat s, f, exec_of_phaseOk (i := .statFreq) rfl, hrun, hf⟩

end Sys2Proof.Machine
end

section
/-! SUPPORT. The code Build gives, for every FREQ: one codeword of 1 to 16 bits for each present symbol, and no longer one for a
greater frequency (spec/41_builder.md R102 to R112). -/

namespace Sys2Proof.Machine

/-! ### Steps 3 to 8 together (R105 to R110) -/

/-- The lengths step 6 hands out, shortest first. -/
def builtLengths (freq : Vector Word 256) : List Nat :=
  lengthSequence (withhold (limitLengths (histogram (unconstrainedDepths freq))))

/-- The present symbols in step 6's order, with their depths. -/
def builtDepths (freq : Vector Word 256) : List (Nat × Nat) :=
  (symbolOrder freq (unconstrainedDepths freq)).zip (builtLengths freq)

/-- The assignments of step 8. -/
def builtCodes (freq : Vector Word 256) : List Assignment := canonicalCodes (builtDepths freq)

section
variable {freq : Vector Word 256}

theorem builtLengths_fit (h : present freq ≠ []) :
    (builtLengths freq).length = (present freq).length ∧ DepthsFit (builtLengths freq) := by
  have hpos : 1 ≤ (present freq).length := List.length_pos_iff.2 h
  have hle := length_present_le freq
  obtain ⟨hfull, hz⟩ := limitLengths_spec (by omega) (by omega) (fullCode_histogram freq)
  exact lengthSequence_withhold hpos hle hfull hz

theorem builtDepths_of_none_present (h : present freq = []) : builtDepths freq = [] := by
  simp [builtDepths, symbolOrder, h]

theorem depth_inRange_of_mem_builtDepths {q : Nat × Nat} (h : q ∈ builtDepths freq) : 1 ≤ q.2 ∧ q.2 ≤ 16 :=
  (mem_lengthsBy (List.of_mem_zip h).2).1

/-- Every present symbol gets one depth (R108). -/
theorem builtDepths_symbols (freq : Vector Word 256) :
    (builtDepths freq).map Prod.fst = symbolOrder freq (unconstrainedDepths freq) := by
  by_cases h : present freq = []
  · simp [builtDepths, symbolOrder, h]
  · exact List.map_fst_zip ((symbolOrder_perm _ _).length_eq.trans (builtLengths_fit h).1.symm).le

theorem exists_mem_builtDepths_iff {a : Nat} : (∃ d, (a, d) ∈ builtDepths freq) ↔ a ∈ present freq := by
  rw [← (symbolOrder_perm freq (unconstrainedDepths freq)).mem_iff, ← builtDepths_symbols]
  simp

/-- Build gives the codes of step 8, whatever FREQ holds: the overflow check of step 7 never fires (R102, R109). -/
theorem build_eq (freq : Vector Word 256) : build freq = some (entriesOf (builtCodes freq)) := by
  by_cases h : present freq = []
  · rw [build, if_pos h, builtCodes, builtDepths_of_none_present h]
    rfl
  · have hfit : ¬ (builtDepths freq).any (fun q => decide (Config.maxlen < q.2)) = true := by
      simp only [List.any_eq_true, decide_eq_true_eq, not_exists, not_and]
      exact fun q hq => Nat.not_lt.2 (depth_inRange_of_mem_builtDepths hq).2
    rw [build, if_neg h]
    exact if_neg hfit

theorem canonicalCode_builtCodes (freq : Vector Word 256) : CanonicalCode (builtCodes freq) := by
  by_cases h : present freq = []
  · rw [builtCodes, builtDepths_of_none_present h]
    exact canonicalCode_nil
  · obtain ⟨hlen, hfit⟩ := builtLengths_fit h
    exact canonicalCode_canonicalCodes hlen hfit

end

/-! ### The entries BUILD_FREQ writes (R102) -/

/-- BUILD_FREQ always finishes OK, and writes ENTRY alone. -/
theorem exec_buildFreq (s : State) :
    exec .buildFreq s = .next (finish .ok (setEntries (entriesOf (builtCodes s.freq)) s)) := by
  rw [exec_of_phaseOk rfl, bodyOf, buildFreqBody, build_eq]

theorem weightOf_freqAt (s : State) (a : Symbol) : weightOf s.freq a.toNat = (freqAt s a).toNat := by
  have h : s.freq[a.toNat]? = some (freqAt s a) := Vector.getElem?_eq_getElem a.isLt
  rw [weightOf, h]
  rfl

theorem mem_present_iff (s : State) (a : Symbol) : a.toNat ∈ present s.freq ↔ 0 < (freqAt s a).toNat := by
  simp [present, weightOf_freqAt, a.isLt]

theorem lt_of_mem_present {freq : Vector Word 256} {a : Nat} (h : a ∈ present freq) : a < 256 :=
  List.mem_range.1 (List.mem_filter.1 h).1

section
variable {freq : Vector Word 256} {t : State} (ht : t.entry = entriesOf (builtCodes freq))
include ht

/-- The depth step 6 gives a symbol is the one in its entry. -/
theorem depthOf_of_mem_builtDepths {a : Symbol} {d : Nat} (h : (a.toNat, d) ∈ builtDepths freq) : depthOf t a = d := by
  have hmem : (a, d) ∈ (builtDepths freq).map fun x => (BitVec.ofNat 8 x.1, x.2) :=
    List.mem_map.2 ⟨_, h, by simp⟩
  obtain ⟨x, hx, hxa⟩ := List.mem_map.1 ((canonicalCodes_perm _).mem_iff.2 hmem)
  obtain ⟨rfl, rfl⟩ := Prod.mk.inj hxa
  exact ((canonicalCode_builtCodes freq).entry_of_mem ht hx).1

/-- A coded symbol's depth is one that step 6 gives. -/
theorem mem_builtDepths_of_coded {a : Symbol} (h : Coded t a) : (a.toNat, depthOf t a) ∈ builtDepths freq := by
  obtain ⟨x, hx, rfl⟩ := ((canonicalCode_builtCodes freq).coded_iff ht a).1 h
  obtain ⟨⟨b, d⟩, hq, hqx⟩ := List.mem_map.1 ((canonicalCodes_perm _).mem_iff.1 (List.mem_map_of_mem hx))
  obtain ⟨hb, hd⟩ := Prod.mk.inj hqx
  have hlt : b < 256 := lt_of_mem_present (exists_mem_builtDepths_iff.1 ⟨d, hq⟩)
  have hb' : x.sym.toNat = b := by rw [← hb, BitVec.toNat_ofNat, Nat.mod_eq_of_lt hlt]
  rw [((canonicalCode_builtCodes freq).entry_of_mem ht hx).1, ← hd, hb']
  exact hq

/-- Exactly the present symbols are coded (R112 G1). -/
theorem coded_iff_present (a : Symbol) : Coded t a ↔ a.toNat ∈ present freq := by
  rw [← exists_mem_builtDepths_iff]
  refine ⟨fun h => ⟨_, mem_builtDepths_of_coded ht h⟩, fun ⟨d, h⟩ => ?_⟩
  rw [Coded, depthOf_of_mem_builtDepths ht h]
  exact (depth_inRange_of_mem_builtDepths h).1

/-- No depth is above 16 (R112 G2). -/
theorem depthOf_built_le (a : Symbol) : depthOf t a ≤ 16 := by
  by_cases h : Coded t a
  · exact (depth_inRange_of_mem_builtDepths (mem_builtDepths_of_coded ht h)).2
  · have : depthOf t a = 0 := Nat.eq_zero_of_not_pos h
    omega

end

/-- Settles O33: Build never overflows, and step 6 gives every present symbol a depth in 1..16 and no other symbol one. -/
theorem buildFreqCodesThePresentSymbols : Obligations.BuildFreqCodesThePresentSymbols := fun s =>
  ⟨entriesOf (builtCodes s.freq), exec_buildFreq s, fun a =>
    ⟨(coded_iff_present rfl a).trans (mem_present_iff s a), depthOf_built_le rfl a⟩⟩

/-! ### The merges: a heavier node is not deeper (R104, R112) -/

theorem nodeBefore_iff (a b : Node) :
    nodeBefore a b = true ↔ a.weight < b.weight ∨ a.weight = b.weight ∧ a.id < b.id := by
  simp [nodeBefore]

theorem takeLeast_weight_le (x : Node) (l : List Node) : ∀ n ∈ x :: l, (takeLeast x l).1.weight ≤ n.weight := by
  induction l generalizing x with
  | nil => simp [takeLeast]
  | cons y l ih =>
    rw [List.forall_mem_cons, List.forall_mem_cons, takeLeast]
    split <;> dsimp only
    · next h =>
      obtain ⟨hy, hl⟩ := List.forall_mem_cons.1 (ih y)
      rw [nodeBefore_iff] at h
      exact ⟨by omega, hy, hl⟩
    · next h =>
      obtain ⟨hx, hl⟩ := List.forall_mem_cons.1 (ih x)
      rw [nodeBefore_iff] at h
      exact ⟨hx, by omega, hl⟩

/-- The merge of two nodes (R104). -/
def merged (id : Nat) (n1 n2 : Node) : Node := ⟨n1.weight + n2.weight, id, .node n1.tree n2.tree⟩

/-- One turn of step 2's loop (R104). -/
theorem mergeNodes_turn {fuel id : Nat} {x y n1 n2 : Node} {l l' R : List Node} (h1 : takeLeast x l = (n1, y :: l'))
    (h2 : takeLeast y l' = (n2, R)) : mergeNodes (fuel + 1) id (x :: l) = mergeNodes fuel (id + 1) (merged id n1 n2 :: R) := by
  rw [mergeNodes, h1]
  dsimp only
  rw [h2, merged]

/-- The loop ends with one root (R104). -/
theorem mergeNodes_root_left {fuel id : Nat} {x n : Node} {l : List Node} (h : takeLeast x l = (n, [])) :
    mergeNodes (fuel + 1) id (x :: l) = [n] := by
  rw [mergeNodes, h]

/-- Nodes with depths in one tree over all of them, as the merges place them. A node that outweighs another, with `k` least
weights added to it, is at most `k` levels deeper; one that outweighs it by itself is not deeper. -/
structure Placement (A : List Node) (P : List (Node × Nat)) : Prop where
  nodes : (P.map Prod.fst).Perm A
  gap : ∀ c, (∀ n ∈ A, c ≤ n.weight) → ∀ k, ∀ x ∈ P, ∀ y ∈ P, y.1.weight < x.1.weight + k * c → x.2 ≤ y.2 + k

/-- The leaves below placed nodes, with their depths. -/
def placedLeaves (P : List (Node × Nat)) : List (Nat × Nat) := P.flatMap fun x => leafDepths x.2 x.1.tree

theorem Placement.perm {A B : List Node} {P Q : List (Node × Nat)} (h : Placement A P) (hA : A.Perm B) (hP : P.Perm Q) :
    Placement B Q where
  nodes := ((hP.map _).symm.trans h.nodes).trans hA
  gap c hc k x hx y hy := h.gap c (fun n hn => hc n (hA.mem_iff.1 hn)) k x (hP.mem_iff.2 hx) y (hP.mem_iff.2 hy)

/-- Below a merged node stand the two least ones, one level deeper. -/
theorem Placement.unmerge {m n1 n2 : Node} {A : List Node} {P : List (Node × Nat)} {d : Nat}
    (h : Placement (m :: A) ((m, d) :: P)) (hm : m.weight = n1.weight + n2.weight)
    (h12 : n1.weight ≤ n2.weight) (hA : ∀ n ∈ A, n2.weight ≤ n.weight) :
    Placement (n1 :: n2 :: A) ((n1, d + 1) :: (n2, d + 1) :: P) := by
  have hnodes : (P.map Prod.fst).Perm A := h.nodes.cons_inv
  refine ⟨(hnodes.cons n2).cons n1, fun c hc k x hx y hy hlt => ?_⟩
  have hc1 : c ≤ n1.weight := hc n1 (by simp)
  have hgap := h.gap n2.weight (List.forall_mem_cons.2 ⟨by omega, hA⟩)
  have old {x : Node × Nat} (hx : x ∈ P) : n2.weight ≤ x.1.weight :=
    hA _ (hnodes.mem_iff.1 (List.mem_map_of_mem hx))
  have split {x : Node × Nat} (hx : x ∈ (n1, d + 1) :: (n2, d + 1) :: P) :
      x ∈ P ∨ x.2 = d + 1 ∧ n1.weight ≤ x.1.weight ∧ x.1.weight ≤ n2.weight := by
    simp only [List.mem_cons] at hx
    rcases hx with rfl | rfl | hx
    · exact .inr ⟨rfl, Nat.le_refl _, h12⟩
    · exact .inr ⟨rfl, h12, Nat.le_refl _⟩
    · exact .inl hx
  rcases split hx with hxP | ⟨hxd, hx1, hx2⟩ <;> rcases split hy with hyP | ⟨hyd, hy1, hy2⟩
  · have hkc : k * c ≤ k * n2.weight := Nat.mul_le_mul_left k (by omega)
    exact hgap k x (by simp [hxP]) y (by simp [hyP]) (by omega)
  · -- `y` is one level below the merged node, which outweighs it by the other one, at most `n2`
    have hkc : k * c ≤ k * n2.weight := Nat.mul_le_mul_left k (by omega)
    have hxm : m.weight < x.1.weight + (k + 1) * n2.weight → x.2 ≤ d + (k + 1) :=
      hgap (k + 1) x (by simp [hxP]) (m, d) (by simp)
    rw [Nat.succ_mul] at hxm
    omega
  · -- `x` is one level below the merged node, which outweighs it by the other one, at least `c`
    have hxy := old hyP
    cases k with
    | zero => omega
    | succ j =>
      have hjc : j * c ≤ j * n2.weight := Nat.mul_le_mul_left j (by omega)
      have hmy : y.1.weight < m.weight + j * n2.weight → d ≤ y.2 + j := hgap j (m, d) (by simp) y (by simp [hyP])
      rw [Nat.succ_mul] at hlt
      omega
  · omega

/-- The merges place the nodes under one root (R104). -/
theorem exists_placement (fuel id : Nat) {A : List Node} (hne : A ≠ []) (hf : A.length ≤ fuel + 1) :
    ∃ P, Placement A P ∧ ((mergeNodes fuel id A).flatMap fun n => leafDepths 0 n.tree).Perm (placedLeaves P) := by
  have root (n : Node) : Placement [n] [(n, 0)] := ⟨.refl _, fun _ _ k x hx y _ _ => by
    rw [List.mem_singleton.1 hx]
    exact Nat.zero_le _⟩
  induction fuel generalizing id A with
  | zero =>
    obtain ⟨n, rfl⟩ := List.length_eq_one_iff.1 (show A.length = 1 by have := List.length_pos_iff.2 hne; omega)
    exact ⟨_, root n, .of_eq rfl⟩
  | succ fuel ih =>
    obtain ⟨x, l, rfl⟩ := List.exists_cons_of_ne_nil hne
    have hp := takeLeast_perm x l
    have hleast := takeLeast_weight_le x l
    rcases h1 : takeLeast x l with ⟨n1, _ | ⟨y, l'⟩⟩ <;> rw [h1] at hp hleast
    · rw [mergeNodes_root_left h1]
      exact ⟨_, (root n1).perm hp (.refl _), .of_eq rfl⟩
    · have hp' := takeLeast_perm y l'
      have hleast' := takeLeast_weight_le y l'
      rcases h2 : takeLeast y l' with ⟨n2, R⟩
      rw [h2] at hp' hleast'
      rw [mergeNodes_turn h1 h2]
      have hA : (n1 :: n2 :: R).Perm (x :: l) := (hp'.cons n1).trans hp
      obtain ⟨P, hP, hleaves⟩ := ih (id + 1) (A := merged id n1 n2 :: R) (by simp)
        (by have := hA.length_eq; simp at this hf ⊢; omega)
      obtain ⟨⟨m, d⟩, hmem, rfl⟩ := List.mem_map.1 (hP.nodes.mem_iff.2 List.mem_cons_self)
      have hsplit := List.perm_cons_erase hmem
      refine ⟨_, ((hP.perm (.refl _) hsplit).unmerge rfl ?_ ?_).perm hA (.refl _), hleaves.trans ?_⟩
      · exact hleast n2 (hA.mem_iff.1 (by simp))
      · exact fun n hn => hleast' n (hp'.mem_iff.1 (by simp [hn]))
      · refine (hsplit.flatMap_right _).trans (.of_eq ?_)
        simp [placedLeaves, leafDepths, merged]

/-! ### Step 6: a greater frequency is not deeper (R108, R112) -/

theorem depthIn_of_mem {uds : List (Nat × Nat)} (hnd : (uds.map Prod.fst).Nodup) {x d : Nat} (h : (x, d) ∈ uds) :
    depthIn uds x = d := by
  induction uds with
  | nil => cases h
  | cons y uds ih =>
    obtain ⟨hy, hnd⟩ := List.nodup_cons.1 hnd
    rcases List.mem_cons.1 h with rfl | h
    · simp [depthIn]
    · have hne : (x == y.1) = false := beq_false_of_ne fun he => hy (he ▸ List.mem_map_of_mem h)
      rw [depthIn, List.lookup_cons, hne]
      exact ih hnd h

theorem tree_of_mem_leavesOf {freq : Vector Word 256} {n : Node} (h : n ∈ leavesOf freq) : n.tree = .leaf n.id := by
  rcases List.mem_append.1 h with h | h
  · obtain ⟨a, _, rfl⟩ := List.mem_map.1 h
    rfl
  · rw [List.mem_singleton.1 h]

theorem nodup_leavesOf_id (freq : Vector Word 256) : ((leavesOf freq).map Node.id).Nodup := by
  have h : (leavesOf freq).map Node.id = present freq ++ [256] := by simp [leavesOf, Function.comp_def]
  rw [h, List.nodup_append]
  refine ⟨List.nodup_range.filter _, by simp, fun a ha b hb => ?_⟩
  have := lt_of_mem_present ha
  rw [List.mem_singleton.1 hb]
  omega

/-- In step 2's tree a present symbol is not deeper than one of smaller frequency: a Huffman code is monotone (R112). -/
theorem unconstrainedDepths_antitone {freq : Vector Word 256} {a b : Nat} (ha : a ∈ present freq) (hb : b ∈ present freq)
    (hab : weightOf freq b < weightOf freq a) :
    depthIn (unconstrainedDepths freq) a ≤ depthIn (unconstrainedDepths freq) b := by
  obtain ⟨P, hP, hperm⟩ := exists_placement (leavesOf freq).length 257 (A := leavesOf freq) (by simp [leavesOf]) (by omega)
  have hleaves : placedLeaves P = P.map fun x => (x.1.id, x.2) := by
    have h : ∀ x ∈ P, leafDepths x.2 x.1.tree = [(x.1.id, x.2)] := fun x hx => by
      rw [tree_of_mem_leavesOf (hP.nodes.mem_iff.1 (List.mem_map_of_mem hx)), leafDepths]
    rw [placedLeaves, List.flatMap_congr h, List.map_eq_flatMap]
  rw [hleaves] at hperm
  have hnd : ((unconstrainedDepths freq).map Prod.fst).Nodup := by
    have hids : ((unconstrainedDepths freq).map Prod.fst).Perm ((leavesOf freq).map Node.id) := by
      refine (hperm.map Prod.fst).trans (.trans (.of_eq ?_) (hP.nodes.map Node.id))
      simp [Function.comp_def]
    exact hids.nodup_iff.2 (nodup_leavesOf_id freq)
  have placed {a : Nat} (ha : a ∈ present freq) :
      ∃ x ∈ P, x.1.weight = weightOf freq a ∧ depthIn (unconstrainedDepths freq) a = x.2 := by
    have hmem : (⟨weightOf freq a, a, .leaf a⟩ : Node) ∈ leavesOf freq :=
      List.mem_append_left _ (List.mem_map_of_mem ha)
    obtain ⟨x, hx, hxa⟩ := List.mem_map.1 (hP.nodes.mem_iff.2 hmem)
    refine ⟨x, hx, by rw [hxa], depthIn_of_mem hnd (hperm.mem_iff.2 (List.mem_map.2 ⟨x, hx, ?_⟩))⟩
    rw [hxa]
  obtain ⟨x, hx, hxw, hxd⟩ := placed ha
  obtain ⟨y, hy, hyw, hyd⟩ := placed hb
  rw [hxd, hyd]
  exact hP.gap 0 (fun _ _ => Nat.zero_le _) 0 x hx y hy (by omega)

theorem keyBefore_iff (freq : Vector Word 256) (uds : List (Nat × Nat)) (a b : Nat) : keyBefore freq uds a b = true ↔
    depthIn uds a < depthIn uds b ∨ depthIn uds a = depthIn uds b ∧
      (weightOf freq b < weightOf freq a ∨ weightOf freq a = weightOf freq b ∧ a ≤ b) := by
  simp [keyBefore]

theorem pairwise_symbolOrder (freq : Vector Word 256) (uds : List (Nat × Nat)) :
    (symbolOrder freq uds).Pairwise fun a b => keyBefore freq uds a b = true := by
  have total : Std.Total fun a b => keyBefore freq uds a b = true := ⟨fun a b => by simp only [keyBefore_iff]; omega⟩
  have trans : IsTrans Nat fun a b => keyBefore freq uds a b = true :=
    ⟨fun a b c => by simp only [keyBefore_iff]; omega⟩
  exact List.pairwise_insertionSort _ _

theorem pairwise_lengthSequence (bits : List Nat) : (lengthSequence bits).Pairwise (· ≤ ·) := by
  have h : lengths.Pairwise (· < ·) := by decide
  refine List.pairwise_flatMap.2 ⟨fun L _ => List.pairwise_replicate.2 (.inr (Nat.le_refl L)), h.imp ?_⟩
  intro L M hLM x hx y hy
  rw [List.eq_of_mem_replicate hx, List.eq_of_mem_replicate hy]
  exact hLM.le

theorem pairwise_zip {α β : Type} {R : α → α → Prop} {S : β → β → Prop} {l : List α} {m : List β} (hl : l.Pairwise R)
    (hm : m.Pairwise S) : (l.zip m).Pairwise fun x y => R x.1 y.1 ∧ S x.2 y.2 := by
  induction hl generalizing m with
  | nil => simp
  | cons ha _ ih =>
    cases hm with
    | nil => simp
    | cons hb hm => exact .cons (fun x hx => ⟨ha _ (List.of_mem_zip hx).1, hb _ (List.of_mem_zip hx).2⟩) (ih hm)

/-- Of two symbols that step 6 orders strictly, the first is not deeper (R108). -/
theorem builtDepths_le {freq : Vector Word 256} {a b d e : Nat} (ha : (a, d) ∈ builtDepths freq)
    (hb : (b, e) ∈ builtDepths freq) (hab : ¬ keyBefore freq (unconstrainedDepths freq) b a = true) : d ≤ e := by
  have hP : (builtDepths freq).Pairwise _ :=
    pairwise_zip (pairwise_symbolOrder freq (unconstrainedDepths freq)) (pairwise_lengthSequence _)
  have either : ∀ x ∈ builtDepths freq, ∀ y ∈ builtDepths freq,
      x.2 ≤ y.2 ∨ keyBefore freq (unconstrainedDepths freq) y.1 x.1 = true :=
    List.Pairwise.forall_of_forall_of_flip (fun _ _ => .inl (Nat.le_refl _)) (hP.imp fun h => .inl h.2)
      (hP.imp fun h => .inr h.1)
  exact (either _ ha _ hb).resolve_right hab

/-- Settles O34: the merges place the symbol of greater frequency no deeper, so step 6 serves it first. -/
theorem greaterFrequencyIsNotDeeper : Obligations.GreaterFrequencyIsNotDeeper := by
  intro s t hst a b ha hb hlt
  rw [exec_buildFreq] at hst
  injection hst with hst
  subst hst
  have hma := mem_builtDepths_of_coded (freq := s.freq) rfl ha
  have hmb := mem_builtDepths_of_coded (freq := s.freq) rfl hb
  refine builtDepths_le hma hmb ?_
  rw [← weightOf_freqAt, ← weightOf_freqAt] at hlt
  have hud := unconstrainedDepths_antitone (exists_mem_builtDepths_iff.1 ⟨_, hma⟩) (exists_mem_builtDepths_iff.1 ⟨_, hmb⟩) hlt
  rw [keyBefore_iff]
  omega

end Sys2Proof.Machine
end

section
/-! SUPPORT. The built codes of no symbol, of one, and of two of equal frequency (spec/41_builder.md R103 to R110, R113). -/

namespace Sys2Proof.Machine

/-! ### The present symbols -/

theorem mem_present_iff_exists (s : State) (x : Nat) :
    x ∈ present s.freq ↔ ∃ a : Symbol, a.toNat = x ∧ freqAt s a ≠ 0 := by
  have hpos (a : Symbol) : a.toNat ∈ present s.freq ↔ freqAt s a ≠ 0 := by
    rw [mem_present_iff, ← BitVec.toNat_ne_iff_ne]
    exact Nat.pos_iff_ne_zero
  refine ⟨fun h => ?_, ?_⟩
  · have hx : (BitVec.ofNat 8 x).toNat = x := by rw [BitVec.toNat_ofNat, Nat.mod_eq_of_lt (lt_of_mem_present h)]
    exact ⟨_, hx, (hpos _).1 (hx.symm ▸ h)⟩
  · rintro ⟨a, rfl, ha⟩
    exact (hpos a).2 ha

/-- The present symbols are known by their members, since they stand in rising order (R103). -/
theorem present_eq {s : State} {l : List Symbol} (hl : (l.map BitVec.toNat).Pairwise (· < ·))
    (hin : ∀ a ∈ l, freqAt s a ≠ 0) (hout : ∀ a, a ∉ l → freqAt s a = 0) : present s.freq = l.map BitVec.toNat := by
  have hmem (a : Symbol) : a ∈ l ↔ freqAt s a ≠ 0 := ⟨hin a, fun h => by_contra fun hn => h (hout a hn)⟩
  have hp : (present s.freq).Pairwise (· < ·) := List.pairwise_lt_range.filter _
  refine hp.eq_of_mem_iff hl fun x => ?_
  simp only [mem_present_iff_exists, List.mem_map, hmem, and_comm]

/-! ### Two and three leaves -/

/-- BITS counts the depths alone (R105). -/
theorem histogram_eq {uds : List (Nat × Nat)} {ds : List Nat} (h : uds.map Prod.snd = ds) :
    histogram uds = (List.range 257).map fun d => ds.count d := by
  subst h
  refine List.map_congr_left fun d _ => ?_
  rw [List.count, List.countP_map]
  rfl

theorem takeLeast_pair (x y : Node) : takeLeast x [y] = if nodeBefore y x = true then (y, [x]) else (x, [y]) := rfl

/-- The last turn (R104). -/
theorem mergeNodes_pair (fuel id : Nat) (x y : Node) :
    mergeNodes (fuel + 2) id [x, y] = [if nodeBefore y x = true then merged id y x else merged id x y] := by
  split
  · next h => rw [mergeNodes_turn ((takeLeast_pair x y).trans (if_pos h)) rfl, mergeNodes_root_left rfl]
  · next h => rw [mergeNodes_turn ((takeLeast_pair x y).trans (if_neg h)) rfl, mergeNodes_root_left rfl]

section
variable {freq : Vector Word 256} {a b : Nat}

/-- One symbol and the pseudo-leaf are the two leaves of depth 1, and the length left is 1. -/
theorem builtDepths_of_one (h : present freq = [a]) : builtDepths freq = [(a, 1)] := by
  have hleaves : leavesOf freq = [⟨weightOf freq a, a, .leaf a⟩, ⟨1, 256, .leaf 256⟩] := by rw [leavesOf, h]; rfl
  have hds : (unconstrainedDepths freq).map Prod.snd = [1, 1] := by
    rw [unconstrainedDepths, hleaves]
    change (List.flatMap _ (mergeNodes (0 + 2) 257 _)).map Prod.snd = _
    rw [mergeNodes_pair]
    split <;> rfl
  have hlen : builtLengths freq = [1] := by
    rw [builtLengths, histogram_eq hds]
    decide +kernel
  rw [builtDepths, hlen, symbolOrder, h]
  rfl

/-- Two symbols of one frequency: the turns of step 2's loop over their leaves, by its first turn (R103, R104). -/
theorem unconstrainedDepths_of_two {x n1 n2 y z : Node} {l l' : List Node} (hx : leavesOf freq = x :: l)
    (hl : l.length = 2) (h1 : takeLeast x l = (n1, y :: l')) (h2 : takeLeast y l' = (n2, [z])) :
    unconstrainedDepths freq = leafDepths 0
      (if nodeBefore z (merged 257 n1 n2) = true then merged 258 z (merged 257 n1 n2)
        else merged 258 (merged 257 n1 n2) z).tree := by
  rw [unconstrainedDepths, hx]
  simp only [List.length_cons, hl]
  rw [mergeNodes_turn h1 h2, mergeNodes_pair]
  simp

/-- The leaves of two symbols of one frequency (R103). -/
theorem leavesOf_two (h : present freq = [a, b]) (heq : weightOf freq b = weightOf freq a) :
    leavesOf freq = [⟨weightOf freq a, a, .leaf a⟩, ⟨weightOf freq a, b, .leaf b⟩, ⟨1, 256, .leaf 256⟩] := by
  rw [leavesOf, h, ← heq]
  simp [heq]

/-- Of three leaves the lengths left are 1 and 2 (R106, R107). -/
theorem builtDepths_of_three_leaves {uds : List (Nat × Nat)} {P : List Nat} (hud : unconstrainedDepths freq = uds)
    (hds : uds.map Prod.snd = [1, 2, 2]) (hP : symbolOrder freq uds = P) : builtDepths freq = P.zip [1, 2] := by
  rw [builtDepths, builtLengths, hud, hP, histogram_eq hds]
  have hlen : lengthSequence (withhold (limitLengths ((List.range 257).map fun d => [1, 2, 2].count d))) = [1, 2] := by
    decide +kernel
  rw [hlen]

/-- Step 6's order of two symbols (R108). -/
theorem symbolOrder_pair (h : present freq = [a, b]) (uds : List (Nat × Nat)) :
    symbolOrder freq uds = if keyBefore freq uds a b = true then [a, b] else [b, a] := by
  rw [symbolOrder, h]
  rfl

variable (h : present freq = [a, b]) (hab : a < b) (hb : b < 256) (heq : weightOf freq b = weightOf freq a)
include h hab hb heq

/-- Two symbols of frequency 1 are merged first, the pseudo-leaf last, and the lower symbol is first in step 6. -/
theorem builtDepths_of_two_ones (ha : weightOf freq a = 1) : builtDepths freq = [(a, 1), (b, 2)] := by
  have hba : ¬ b < a := by omega
  have ha' : ¬ 256 < a := by omega
  have hb' : ¬ 256 < b := by omega
  have hud : unconstrainedDepths freq = [(256, 1), (a, 2), (b, 2)] := by
    rw [unconstrainedDepths_of_two (leavesOf_two h heq) rfl (n1 := ⟨1, a, .leaf a⟩) (y := ⟨1, b, .leaf b⟩)
      (l' := [⟨1, 256, .leaf 256⟩]) (n2 := ⟨1, b, .leaf b⟩) (z := ⟨1, 256, .leaf 256⟩)
      (by simp [takeLeast, nodeBefore, ha, hba, ha']) (by simp [takeLeast, nodeBefore, hb'])]
    rfl
  have hnd : ([(256, 1), (a, 2), (b, 2)].map Prod.fst).Nodup := by simp; omega
  have hkey : keyBefore freq [(256, 1), (a, 2), (b, 2)] a b = true := by
    rw [keyBefore_iff, depthIn_of_mem hnd (x := a) (d := 2) (by simp), depthIn_of_mem hnd (x := b) (d := 2) (by simp)]
    omega
  exact builtDepths_of_three_leaves hud rfl ((symbolOrder_pair h _).trans (if_pos hkey))

/-- Of two symbols of one frequency above 1 the lower is merged with the pseudo-leaf, and the higher is first in step 6. -/
theorem builtDepths_of_two_equals (ha : 1 < weightOf freq a) : builtDepths freq = [(b, 1), (a, 2)] := by
  have hba : ¬ b < a := by omega
  have hud : unconstrainedDepths freq = [(b, 1), (256, 2), (a, 2)] := by
    rw [unconstrainedDepths_of_two (leavesOf_two h heq) rfl (n1 := ⟨1, 256, .leaf 256⟩)
      (y := ⟨weightOf freq a, b, .leaf b⟩) (l' := [⟨weightOf freq a, a, .leaf a⟩])
      (n2 := ⟨weightOf freq a, a, .leaf a⟩) (z := ⟨weightOf freq a, b, .leaf b⟩)
      (by simp [takeLeast, nodeBefore, ha, hba]) (by simp [takeLeast, nodeBefore, hab]),
      if_pos ((nodeBefore_iff _ _).2 (.inl (by rw [merged]; dsimp only; omega)))]
    rfl
  have hnd : ([(b, 1), (256, 2), (a, 2)].map Prod.fst).Nodup := by simp; omega
  have hkey : ¬ keyBefore freq [(b, 1), (256, 2), (a, 2)] a b = true := by
    rw [keyBefore_iff, depthIn_of_mem hnd (x := a) (d := 2) (by simp), depthIn_of_mem hnd (x := b) (d := 1) (by simp)]
    omega
  exact builtDepths_of_three_leaves hud rfl ((symbolOrder_pair h _).trans (if_neg hkey))

end

/-! ### The entries (R110) -/

section
variable {l : List Assignment} {t : State} (ht : t.entry = entriesOf l)
include ht

theorem entryAt_assigned (hl : (l.map Assignment.sym).Nodup) {x : Assignment} (hx : x ∈ l) :
    entryAt t x.sym = assignedEntry x := by
  simp only [entryAt, ht]
  exact entriesOf_get_of_mem hl hx

theorem entryAt_unassigned {a : Symbol} (h : ∀ x ∈ l, x.sym ≠ a) : entryAt t a = ⟨0, 0⟩ := by
  simp only [entryAt, ht]
  exact entriesOf_get_of_not_mem h

end

section
variable {freq : Vector Word 256} {t : State} (ht : t.entry = entriesOf (builtCodes freq))
include ht

theorem entries_of_none (h : builtDepths freq = []) (c : Symbol) : entryAt t c = ⟨0, 0⟩ := by
  rw [builtCodes, h] at ht
  exact entryAt_unassigned ht (by simp [canonicalCodes])

/-- One symbol of depth 1 has the code 0. -/
theorem entries_of_one {a : Symbol} (h : builtDepths freq = [(a.toNat, 1)]) :
    entryAt t a = ⟨1, 0⟩ ∧ ∀ c, c ≠ a → entryAt t c = ⟨0, 0⟩ := by
  have hcodes : builtCodes freq = [⟨a, 1, 0⟩] := by
    rw [builtCodes, h]
    simp [canonicalCodes, codesAfter]
  rw [hcodes] at ht
  exact ⟨entryAt_assigned ht (List.nodup_singleton a) (x := ⟨a, 1, 0⟩) (by simp), fun c hc =>
    entryAt_unassigned ht (by simpa using hc.symm)⟩

/-- Two symbols of depths 1 and 2 have the codes 0 and 0b10. -/
theorem entries_of_two {a b : Symbol} (hab : a ≠ b) (h : builtDepths freq = [(a.toNat, 1), (b.toNat, 2)]) :
    entryAt t a = ⟨1, 0⟩ ∧ entryAt t b = ⟨2, 2⟩ ∧ ∀ c, c ≠ a → c ≠ b → entryAt t c = ⟨0, 0⟩ := by
  have hsort : ([(a.toNat, 1), (b.toNat, 2)].insertionSort fun p q => canonicalBefore p q = true) =
      [(a.toNat, 1), (b.toNat, 2)] := List.Pairwise.insertionSort_eq (by simp [canonicalBefore])
  have hcodes : builtCodes freq = [⟨a, 1, 0⟩, ⟨b, 2, 2⟩] := by
    rw [builtCodes, h, canonicalCodes, hsort]
    simp [codesAfter]
  rw [hcodes] at ht
  have hnd : ([⟨a, 1, 0⟩, ⟨b, 2, 2⟩].map Assignment.sym).Nodup := by simpa using hab
  exact ⟨entryAt_assigned ht hnd (x := ⟨a, 1, 0⟩) (by simp), entryAt_assigned ht hnd (x := ⟨b, 2, 2⟩) (by simp),
    fun c ha hb => entryAt_unassigned ht (by simp [ha.symm, hb.symm])⟩

end

/-- Settles O35: the present symbols are none, one or two, and with so few leaves each merge of step 2 is known. -/
theorem smallBuiltCodes : Obligations.SmallBuiltCodes := by
  intro s
  refine ⟨_, exec_buildFreq s, fun h0 c => ?_, fun a ha hc => ?_, fun a b hab ha heq hc => ?_⟩
  · have hp : present s.freq = [] := present_eq (l := []) .nil (by simp) fun c _ => h0 c
    exact entries_of_none rfl (builtDepths_of_none_present hp) c
  · have hp : present s.freq = [a.toNat] := present_eq (l := [a]) (List.pairwise_singleton _ _)
      (List.forall_mem_singleton.2 ha) fun c h => hc c (by simpa using h)
    exact entries_of_one rfl (builtDepths_of_one hp)
  · have hp : present s.freq = [a.toNat, b.toNat] := present_eq (l := [a, b]) (by simpa using hab)
      (List.forall_mem_cons.2 ⟨ha, List.forall_mem_singleton.2 (heq ▸ ha)⟩) fun c h => by
        rw [List.mem_cons, List.mem_singleton, not_or] at h
        exact hc c h.1 h.2
    have hw : weightOf s.freq b.toNat = weightOf s.freq a.toNat := by rw [weightOf_freqAt, weightOf_freqAt, heq]
    have hne : a ≠ b := fun h => by rw [h] at hab; omega
    by_cases h1 : freqAt s a = 1
    · have hw1 : weightOf s.freq a.toNat = 1 := by rw [weightOf_freqAt, h1]; rfl
      obtain ⟨hea, heb, hec⟩ := entries_of_two rfl hne (builtDepths_of_two_ones hp hab b.isLt hw hw1)
        (t := finish .ok (setEntries (entriesOf (builtCodes s.freq)) s))
      exact ⟨fun _ => ⟨hea, heb⟩, fun h => absurd h1 h, hec⟩
    · have hw1 : 1 < weightOf s.freq a.toNat := by
        have h0 : (freqAt s a).toNat ≠ 0 := fun h => ha (BitVec.eq_of_toNat_eq h)
        have h1' : (freqAt s a).toNat ≠ 1 := fun h => h1 (BitVec.eq_of_toNat_eq h)
        rw [weightOf_freqAt]
        omega
      obtain ⟨heb, hea, hec⟩ := entries_of_two rfl hne.symm (builtDepths_of_two_equals hp hab b.isLt hw hw1)
        (t := finish .ok (setEntries (entriesOf (builtCodes s.freq)) s))
      exact ⟨fun h => absurd h h1, fun _ => ⟨heb, hea⟩, fun c h h' => hec c h' h⟩

end Sys2Proof.Machine
end

section
/-! SUPPORT. The packed table: its recurrence and its validity, and what TABLE_DECODE and TABLE_ENCODE write
(spec/42_table_codec.md R121 to R125). -/

namespace Sys2Proof.Machine

/-! ### The recurrence (R121) -/

theorem canonFirst_succ (m : Memory) (L : Nat) : canonFirst m (L + 1) = 2 * (canonFirst m L + tableCount m L) := by
  rw [canonFirst, Nat.shiftLeft_eq, Nat.pow_one, Nat.mul_comm]

theorem canonIndex_succ (m : Memory) (L : Nat) : canonIndex m (L + 1) = canonIndex m L + tableCount m L := rfl

/-- With counts of at most 255 the codes stay below 255 · (2^L − 2). -/
theorem canonFirst_bound (m : Memory) (n : Nat) : canonFirst m (n + 1) + 510 ≤ 255 * 2 ^ (n + 1) := by
  induction n with
  | zero => simp [canonFirst]
  | succ n ih =>
    have hc := tableCount_le m (n + 1)
    rw [canonFirst_succ, Nat.pow_succ]
    omega

theorem canonIndex_bound (m : Memory) (n : Nat) : canonIndex m (n + 1) ≤ 255 * n := by
  induction n with
  | zero => simp [canonIndex]
  | succ n ih =>
    have hc := tableCount_le m (n + 1)
    rw [canonIndex_succ]
    omega

/-- Settles O36: the recurrences are the model's own, and the bounds follow them with counts of at most 255. -/
theorem canonicalRecurrence : Obligations.CanonicalRecurrence := by
  refine fun m => ⟨rfl, rfl, fun L h1 h16 => ?_⟩
  rw [canonFirst_succ, canonIndex_succ, tableCount_of_pos h1]
  obtain ⟨n, rfl⟩ := Nat.exists_eq_add_of_le' h1
  have hpow : 2 ^ (n + 1) ≤ 2 ^ 16 := Nat.pow_le_pow_right (by omega) h16
  have hf := canonFirst_bound m n
  have hi := canonIndex_bound m n
  exact ⟨rfl, rfl, by omega, by omega⟩

/-! ### Validity (R122) -/

/-- V2: the values are distinct when no two places hold the same one. -/
theorem nodup_tableSymbols_iff (m : Memory) : (tableSymbols m).Nodup ↔
    ∀ j k, j < tableSize m → k < tableSize m → tableValue m j = tableValue m k → j = k := by
  rw [tableSymbols, List.nodup_map_iff_inj_on List.nodup_range]
  simp only [List.mem_range]
  exact ⟨fun h j k hj hk => h j hj k hk, fun h j hj k hk => h j k hj hk⟩

/-- A table has no codes when every count is 0. -/
theorem tableSize_eq_zero_iff (m : Memory) : tableSize m = 0 ↔ ∀ L, 1 ≤ L → L ≤ 16 → tableCount m L = 0 := by
  rw [tableSize, sum_map_lengths, Finset.sum_eq_zero_iff]
  simp only [Finset.mem_Icc, and_imp]

/-- Above the largest length in use every count is 0. -/
theorem tableCount_eq_zero_of_longestLength_lt {m : Memory} {L : Nat} (h : longestLength m < L) (hL : L ≤ 16) :
    tableCount m L = 0 :=
  eq_zero_of_greatestUsed_lt (n := 16) h hL

theorem longestLength_le (m : Memory) : longestLength m ≤ 16 := greatestUsed_le _ _

/-- A table with codes has a largest length in use. -/
theorem longestLength_used {m : Memory} (h : tableSize m ≠ 0) :
    1 ≤ longestLength m ∧ 0 < tableCount m (longestLength m) := by
  obtain ⟨d, h1, h16, hd⟩ : ∃ d, 1 ≤ d ∧ d ≤ 16 ∧ tableCount m d ≠ 0 := by
    simpa [tableSize_eq_zero_iff] using h
  obtain ⟨hle, hpos⟩ := greatestUsed_pos (n := 16) h1 h16 (Nat.pos_of_ne_zero hd)
  exact ⟨h1.trans hle, hpos⟩

/-- The largest length in use is the one that is used with none used above it. -/
theorem eq_longestLength {m : Memory} {M : Nat} (h1 : 1 ≤ M) (h16 : M ≤ 16) (hM : 0 < tableCount m M)
    (habove : ∀ L, M < L → L ≤ 16 → tableCount m L = 0) : longestLength m = M := by
  obtain ⟨hle, hpos⟩ := greatestUsed_pos (f := tableCount m) h1 h16 hM
  refine Nat.le_antisymm (Nat.not_lt.1 fun hlt => ?_) hle
  exact absurd (habove _ hlt (longestLength_le m)) hpos.ne'

/-- Validity, V1 to V4 as propositions. -/
theorem tableValid_iff (m : Memory) : tableValid m = true ↔
    tableSize m ≤ 256 ∧ (tableSymbols m).Nodup ∧
    (∀ L, 1 ≤ L → L ≤ 16 → canonFirst m L + tableCount m L ≤ 2 ^ L) ∧
    (tableSize m = 0 ∨ canonFirst m (longestLength m) + tableCount m (longestLength m) < 2 ^ longestLength m) := by
  simp only [tableValid, Bool.and_eq_true, Bool.or_eq_true, decide_eq_true_eq, List.all_eq_true, mem_lengths, and_imp]

/-- Settles O37: V2 is about places instead of the list, and V4 about the one largest length in use. -/
theorem tableValidIsV1ToV4 : Obligations.TableValidIsV1ToV4 := by
  intro m
  rw [tableValid_iff, nodup_tableSymbols_iff]
  refine and_congr_right fun _ => and_congr_right fun _ => and_congr_right fun _ =>
    ⟨fun h M h1 h16 hM habove => ?_, fun h => ?_⟩
  · rcases h with h0 | h
    · rw [(tableSize_eq_zero_iff m).1 h0 M h1 h16] at hM
      exact absurd hM (Nat.lt_irrefl 0)
    · rwa [eq_longestLength h1 h16 hM habove] at h
  · refine or_iff_not_imp_left.2 fun h0 => ?_
    obtain ⟨h1, hpos⟩ := longestLength_used h0
    exact h _ h1 (longestLength_le m) hpos fun L hL => tableCount_eq_zero_of_longestLength_lt hL

/-! ### TABLE_DECODE (R123) -/

theorem exec_tableDecode {s : State} (h : tableValid s.packed = true) :
    exec .tableDecode s = .next (finish .ok (setEntries (entriesOf (tableAssignments s.packed)) s)) := by
  rw [exec_of_phaseOk rfl, bodyOf, tableDecodeBody, if_pos h]

theorem exec_tableDecode_of_invalid {s : State} (h : tableValid s.packed = false) :
    exec .tableDecode s = .next (finish .preconditionViolated s) := by
  rw [exec_of_phaseOk rfl, bodyOf, tableDecodeBody, if_neg (by simp [h])]

/-- The assignment of the k-th value of length L. -/
theorem mem_tableAssignments {m : Memory} {L k : Nat} (h1 : 1 ≤ L) (h16 : L ≤ 16) (hk : k < tableCount m L) :
    ⟨tableValue m (canonIndex m L + k), L, canonFirst m L + k⟩ ∈ tableAssignments m :=
  List.mem_flatMap.2 ⟨L, mem_lengths.2 ⟨h1, h16⟩, List.mem_map.2 ⟨k, List.mem_range.2 hk, rfl⟩⟩

/-- An assigned symbol is a value of the table. -/
theorem exists_tableValue_of_mem {m : Memory} {x : Assignment} (hx : x ∈ tableAssignments m) :
    ∃ j, j < tableSize m ∧ tableValue m j = x.sym := by
  have h : x.sym ∈ tableSymbols m := tableAssignments_sym m ▸ List.mem_map_of_mem hx
  simpa [tableSymbols] using h

theorem length_tableAssignments (m : Memory) : (tableAssignments m).length = tableSize m := by
  simpa [tableSymbols] using congrArg List.length (tableAssignments_sym m)

/-- Settles O38: the code of a valid table is canonical, so the entries hold its assignments. -/
theorem tableDecodeAssignsTheTablesCodes : Obligations.TableDecodeAssignsTheTablesCodes := by
  refine fun s => ⟨fun hv => ⟨_, exec_tableDecode hv, fun L k h1 h16 hk => ?_, fun a ha => ?_⟩,
    exec_tableDecode_of_invalid⟩
  · exact (canonicalCode_tableAssignments hv).entry_of_mem rfl (mem_tableAssignments h1 h16 hk)
  · have hne : ∀ x ∈ tableAssignments s.packed, x.sym ≠ a := fun x hx hxa => by
      obtain ⟨j, hj, hjx⟩ := exists_tableValue_of_mem hx
      exact ha j hj (hjx.trans hxa)
    have he := entryAt_unassigned (t := { s with entry := entriesOf (tableAssignments s.packed) }) rfl hne
    simp [depthOf, codeOf, he]

/-! ### The coded symbols in order (R125) -/

theorem codedSequence_perm (s : State) :
    (codedSequence s).Perm (allSymbols.filter fun a => decide ((entryAt s a).depth ≠ 0)) :=
  List.perm_insertionSort _ _

theorem nodup_codedSequence (s : State) : (codedSequence s).Nodup :=
  (codedSequence_perm s).nodup_iff.2 (nodup_allSymbols.filter _)

theorem mem_codedSequence {s : State} {a : Symbol} : a ∈ codedSequence s ↔ Coded s a := by
  have hc : (entryAt s a).depth ≠ 0 ↔ Coded s a := by
    rw [Coded, depthOf, ← BitVec.toNat_ne_iff_ne]; exact Nat.pos_iff_ne_zero.symm
  simp only [(codedSequence_perm s).mem_iff, List.mem_filter, mem_allSymbols, true_and, decide_eq_true_eq, hc]

theorem pairwise_codedSequence (s : State) : (codedSequence s).Pairwise fun a b =>
    depthOf s a < depthOf s b ∨ depthOf s a = depthOf s b ∧ codeOf s a ≤ codeOf s b := by
  have total : Std.Total fun a b => codeBefore s a b = true := ⟨fun a b => by simp only [codeBefore_iff]; omega⟩
  have trans : IsTrans Symbol fun a b => codeBefore s a b = true :=
    ⟨fun a b c => by simp only [codeBefore_iff]; omega⟩
  exact (List.pairwise_insertionSort (fun a b => codeBefore s a b = true) _).imp (codeBefore_iff _ _).1

theorem count_codedSequence_le (s : State) (L : Nat) : ((codedSequence s).map (depthOf s)).count L ≤ depthCount s L := by
  rw [List.count, List.countP_map, (codedSequence_perm s).countP_eq]
  exact List.filter_sublist.countP_le

/-! ### TABLE_ENCODE (R125) -/

/-- What TABLE_ENCODE makes of PACKED: the counts of the depths and the coded symbols in order. -/
def encodedTable (s : State) : Memory :=
  memoryOf (packedBytesOf (lengths.map fun L => BitVec.ofNat 8 (depthCount s L)) (codedSequence s))

theorem exec_tableEncode {s : State} (h : ∀ L, 1 ≤ L → L ≤ 16 → depthCount s L ≤ 255) :
    exec .tableEncode s = .next (finish .ok (setPacked (encodedTable s) s)) := by
  have hany : ¬ lengths.any (fun L => decide (255 < depthCount s L)) = true := by
    simp only [List.any_eq_true, decide_eq_true_eq, mem_lengths, not_exists, not_and, Nat.not_lt, and_imp]
    exact h
  rw [exec_of_phaseOk rfl, bodyOf, tableEncodeBody, if_neg hany]
  rfl

theorem exec_tableEncode_of_full {s : State} (h : ∃ L, 1 ≤ L ∧ L ≤ 16 ∧ 255 < depthCount s L) :
    exec .tableEncode s = .next (finish .preconditionViolated s) := by
  obtain ⟨L, h1, h16, hL⟩ := h
  have hany : lengths.any (fun L => decide (255 < depthCount s L)) = true :=
    List.any_eq_true.2 ⟨L, mem_lengths.2 ⟨h1, h16⟩, decide_eq_true hL⟩
  rw [exec_of_phaseOk rfl, bodyOf, tableEncodeBody, if_pos hany]

theorem tableCount_encodedTable {s : State} {L : Nat} (h1 : 1 ≤ L) (h16 : L ≤ 16) (h : depthCount s L ≤ 255) :
    tableCount (encodedTable s) L = depthCount s L := by
  have hi : L - 1 < 16 := by omega
  have hL : 1 + (L - 1) = L := by omega
  rw [tableCount_of_pos h1, encodedTable, readByte_packedBytesOf_count (by simp [lengths]) hi]
  simp [lengths, hi, hL, Nat.mod_eq_of_lt (Nat.lt_succ_of_le h)]

theorem readByte_encodedTable_value (s : State) (t : Nat) :
    readByte (encodedTable s) (16 + t) = (codedSequence s).getD t 0 :=
  readByte_packedBytesOf_value t (by simp [lengths])

/-- Settles O39: the counts and the sorted coded symbols are what TABLE_ENCODE writes. -/
theorem tableEncodeWritesTheSortedTable : Obligations.TableEncodeWritesTheSortedTable := by
  refine fun s => ⟨fun hfit _ => ⟨encodedTable s, codedSequence s, exec_tableEncode hfit, fun a => mem_codedSequence,
    nodup_codedSequence s, pairwise_codedSequence s, fun L h1 h16 => ?_, fun t a ha => ?_, fun t ht => ?_⟩,
    exec_tableEncode_of_full⟩
  · rw [← tableCount_of_pos h1, tableCount_encodedTable h1 h16 (hfit L h1 h16), depthCount, List.countP_eq_length_filter]
    rfl
  · rw [readByte_encodedTable_value, List.getD_eq_getElem?_getD, ha]
    rfl
  · rw [readByte_encodedTable_value, List.getD_eq_default _ _ ht]

end Sys2Proof.Machine
end

section
/-! SUPPORT. The round trip between code entries and packed tables: entries that satisfy E1 to E6 are those of a canonical
code, and a canonical code is known by its symbols in order and the counts of its depths (spec/42_table_codec.md R126,
spec/10_state.md R32). -/

namespace Sys2Proof.Machine

/-! ### Entries that satisfy E1 to E6 are a canonical code (R32) -/

/-- The assignment a symbol's entry holds. -/
def entryAssignment (s : State) (a : Symbol) : Assignment := ⟨a, depthOf s a, codeOf s a⟩

/-- The assignments the entries hold, in the canonical order. -/
def entryAssignments (s : State) : List Assignment := (codedSequence s).map (entryAssignment s)

theorem entryAssignments_sym (s : State) : (entryAssignments s).map Assignment.sym = codedSequence s := by
  simp [entryAssignments, entryAssignment, Function.comp_def]

theorem entryAssignments_depth (s : State) :
    (entryAssignments s).map Assignment.depth = (codedSequence s).map (depthOf s) := by
  simp [entryAssignments, entryAssignment, Function.comp_def]

/-- Writing the assignments of a state's entries gives the entries back, when uncoded symbols have code 0 (E2). -/
theorem entriesOf_entryAssignments {s : State} (h : ∀ a, ¬ Coded s a → codeOf s a = 0) :
    entriesOf (entryAssignments s) = s.entry := by
  refine entry_ext (s := setEntries (entriesOf (entryAssignments s)) s) fun a => ?_
  by_cases ha : Coded s a
  · have hmem : entryAssignment s a ∈ entryAssignments s := List.mem_map_of_mem (mem_codedSequence.2 ha)
    have hnodup : ((entryAssignments s).map Assignment.sym).Nodup := entryAssignments_sym s ▸ nodup_codedSequence s
    rw [show a = (entryAssignment s a).sym from rfl, entryAt_assigned rfl hnodup hmem]
    simp [assignedEntry, entryAssignment, depthOf, codeOf]
  · have hd : (entryAt s a).depth = 0 := BitVec.eq_of_toNat_eq (Nat.eq_zero_of_not_pos ha)
    have hc : (entryAt s a).code = 0 := BitVec.eq_of_toNat_eq (h a ha)
    rw [entryAt_unassigned rfl fun x hx hxa => ?_, ← hd, ← hc]
    obtain ⟨b, hb, rfl⟩ := List.mem_map.1 hx
    exact ha (hxa ▸ mem_codedSequence.1 hb)

/-- E4's chain is the canonical order. -/
theorem followsFrom_of_isChain {s : State} {a : Symbol} {q : List Symbol} (hc : (a :: q).IsChain (CanonicalNext s))
    (hd : (a :: q).Pairwise fun a b => depthOf s a ≤ depthOf s b) :
    followsFrom (depthOf s a) (codeOf s a) ((a :: q).map (entryAssignment s)) := by
  induction q generalizing a with
  | nil => exact ⟨Nat.le_refl _, by simp [entryAssignment], trivial⟩
  | cons b q ih =>
    obtain ⟨hab, hc⟩ := List.isChain_cons_cons.1 hc
    obtain ⟨hle, hd⟩ := List.pairwise_cons.1 hd
    refine ⟨Nat.le_refl _, by simp [entryAssignment], followsFrom_of_le (hle b (by simp)) ?_⟩
    have hb : (codeOf s a + 1) * 2 ^ (depthOf s b - depthOf s a) = codeOf s b := hab.symm
    simpa only [entryAssignment, hb] using ih hc hd

theorem EntryInvariant.assignments_follow {s : State} (h : EntryInvariant s) : followsFrom 0 0 (entryAssignments s) := by
  have hd : (codedSequence s).Pairwise fun a b => depthOf s a ≤ depthOf s b :=
    (pairwise_codedSequence s).imp fun hab => by omega
  have hfirst := h.firstCodeIsZero
  have hchain := h.canonical
  rw [entryAssignments]
  cases hq : codedSequence s with
  | nil => trivial
  | cons a q =>
    rw [hq] at hd hfirst hchain
    have hf := followsFrom_of_isChain hchain hd
    rw [hfirst a rfl] at hf
    exact followsFrom_of_le (Nat.zero_le _) (by simpa using hf)

/-- The code space up to the last codeword's end is all that was taken. -/
theorem followsFrom_end {d c : Nat} {l : List Assignment} {y : Assignment} (h : followsFrom d c (l ++ [y]))
    (hmax : ∀ x ∈ l ++ [y], x.depth ≤ 256) :
    c * share d + (((l ++ [y]).map Assignment.depth).map share).sum = (y.code + 1) * share y.depth := by
  induction l generalizing d c with
  | nil =>
    obtain ⟨hd, hc, _⟩ := h
    have hy : y.code * share y.depth = c * share d := by
      rw [hc, Nat.mul_assoc, ← share_eq hd (hmax y (by simp))]
    simp [Nat.add_mul, hy]
  | cons x l ih =>
    obtain ⟨hd, hc, hl⟩ := h
    have hx : x.code * share x.depth = c * share d := by
      rw [hc, Nat.mul_assoc, ← share_eq hd (hmax x (by simp))]
    have := ih hl fun z hz => hmax z (List.mem_cons_of_mem x hz)
    rw [← this, List.cons_append, List.map_cons, List.map_cons, List.sum_cons, Nat.add_mul, hx]
    omega

/-- E5 leaves code space over: the last codeword is of the largest depth, and not all ones. -/
theorem EntryInvariant.spaceLeft {s : State} (h : EntryInvariant s) :
    (((entryAssignments s).map Assignment.depth).map share).sum < share 0 := by
  rcases List.eq_nil_or_concat' (codedSequence s) with hq | ⟨q, a, hq⟩
  · simp [entryAssignments, hq, share_pos]
  · have hcoded (b : Symbol) (hb : b ∈ codedSequence s) : Coded s b := mem_codedSequence.1 hb
    have ha : Coded s a := hcoded a (by simp [hq])
    obtain ⟨hd, hc⟩ := h.depthAndCodeFit a ha
    have hdeepest (b : Symbol) : depthOf s b ≤ depthOf s a := by
      by_cases hb : Coded s b
      · have hmem := mem_codedSequence.2 hb
        have hp := pairwise_codedSequence s
        rw [hq] at hmem hp
        rcases List.mem_append.1 hmem with hbq | hba
        · have := (List.pairwise_append.1 hp).2.2 b hbq a (by simp)
          omega
        · rw [List.mem_singleton.1 hba]
      · have : depthOf s b = 0 := Nat.eq_zero_of_not_pos hb
        omega
    have hones := h.noAllOnes a ha hdeepest
    have hl : entryAssignments s = q.map (entryAssignment s) ++ [entryAssignment s a] := by
      simp [entryAssignments, hq]
    have hmax (x : Assignment) (hx : x ∈ entryAssignments s) : x.depth ≤ 256 := by
      obtain ⟨b, hb, rfl⟩ := List.mem_map.1 hx
      exact (h.depthAndCodeFit b (hcoded b hb)).1.trans (by omega)
    have hend := followsFrom_end (hl ▸ h.assignments_follow) (hl ▸ hmax)
    rw [← hl, Nat.zero_mul, Nat.zero_add] at hend
    calc (((entryAssignments s).map Assignment.depth).map share).sum = (codeOf s a + 1) * share (depthOf s a) := hend
      _ < 2 ^ depthOf s a * share (depthOf s a) := Nat.mul_lt_mul_of_pos_right (by omega) (share_pos _)
      _ = share 0 := by simpa using (share_eq (Nat.zero_le (depthOf s a)) (by omega)).symm

/-- Entries that satisfy E1 to E6 are those of a canonical code, the one their own assignments make. -/
theorem EntryInvariant.canonicalCode {s : State} (h : EntryInvariant s) : CanonicalCode (entryAssignments s) where
  nodup := entryAssignments_sym s ▸ nodup_codedSequence s
  follows := h.assignments_follow
  depths :=
    { inRange := by
        intro d hd
        rw [entryAssignments_depth] at hd
        obtain ⟨a, ha, rfl⟩ := List.mem_map.1 hd
        have hc := mem_codedSequence.1 ha
        exact ⟨hc, (h.depthAndCodeFit a hc).1⟩
      spaceLeft := h.spaceLeft
      countFits := by
        intro L
        rw [entryAssignments_depth]
        by_cases hL : L = 0
        · have : 0 ∉ (codedSequence s).map (depthOf s) := fun h0 => by
            obtain ⟨a, ha, h0⟩ := List.mem_map.1 h0
            exact absurd (mem_codedSequence.1 ha) (by simp [h0])
          rw [hL, List.count_eq_zero_of_not_mem this]
          omega
        · exact (count_codedSequence_le s L).trans (h.countFits L (by omega)) }

/-! ### A canonical code is known by its symbols and the counts of its depths -/

/-- In the canonical order the depths give the codes. -/
theorem followsFrom_ext {d c : Nat} {l l' : List Assignment} (h : followsFrom d c l) (h' : followsFrom d c l')
    (hsym : l.map Assignment.sym = l'.map Assignment.sym) (hdepth : l.map Assignment.depth = l'.map Assignment.depth) :
    l = l' := by
  induction l generalizing d c l' with
  | nil => exact (List.map_eq_nil_iff.1 hsym.symm).symm
  | cons x l ih =>
    cases l' with
    | nil => simp at hsym
    | cons x' l' =>
      obtain ⟨_, hc, hl⟩ := h
      obtain ⟨_, hc', hl'⟩ := h'
      simp only [List.map_cons, List.cons.injEq] at hsym hdepth
      have hcode : x.code = x'.code := by rw [hc, hc', hdepth.1]
      have hx : x = x' := by
        calc x = ⟨x.sym, x.depth, x.code⟩ := rfl
          _ = x' := by rw [hsym.1, hdepth.1, hcode]
      subst hx
      rw [ih hl hl' hsym.2 hdepth.2]

/-- In the canonical order the counts of the depths give the depths. -/
theorem depths_eq_of_count {l l' : List Assignment} (h : followsFrom 0 0 l) (h' : followsFrom 0 0 l')
    (hcount : ∀ L, (l.map Assignment.depth).count L = (l'.map Assignment.depth).count L) :
    l.map Assignment.depth = l'.map Assignment.depth := by
  have sorted {k : List Assignment} (hk : followsFrom 0 0 k) : (k.map Assignment.depth).Pairwise (· ≤ ·) :=
    List.pairwise_map.2 ((followsFrom_pairwise hk).imp And.left)
  exact (List.perm_iff_count.2 hcount).eq_of_pairwise (fun _ _ _ _ => Nat.le_antisymm) (sorted h) (sorted h')

/-- The table assigns a length as often as its count says. -/
theorem count_tableAssignments_depth (m : Memory) {L : Nat} (h1 : 1 ≤ L) (h16 : L ≤ 16) :
    ((tableAssignments m).map Assignment.depth).count L = tableCount m L := by
  have hc : ((tableAssignments m).map Assignment.depth).count L =
      ∑ M ∈ Finset.Icc 1 16, if M = L then tableCount m M else 0 := by
    rw [tableAssignments_depth, lengthsBy, List.count_flatMap, ← sum_map_lengths]
    simp [Function.comp_def, List.count_replicate]
  rw [hc, Finset.sum_ite_eq', if_pos (Finset.mem_Icc.2 ⟨h1, h16⟩)]

/-- A table whose code is canonical is valid (R122): the code space left over bounds the end of every length. -/
theorem tableValid_of_canonicalCode {m : Memory} (h : CanonicalCode (tableAssignments m)) : tableValid m = true := by
  have hnodup : (tableSymbols m).Nodup := tableAssignments_sym m ▸ h.nodup
  have hsize : tableSize m ≤ 256 := by
    calc tableSize m = (tableSymbols m).length := by simp [tableSymbols]
      _ ≤ allSymbols.length := (hnodup.subperm fun a _ => mem_allSymbols a).length_le
      _ = 256 := by simp [allSymbols]
  have hend {L : Nat} (h16 : L ≤ 16) : canonFirst m L + tableCount m L < 2 ^ L := by
    refine Nat.lt_of_mul_lt_mul_right (a := share L) ?_
    calc (canonFirst m L + tableCount m L) * share L = ∑ M ∈ Finset.Icc 1 L, tableCount m M * share M :=
          (sum_share_tableCount m (by omega)).symm
      _ ≤ ∑ M ∈ Finset.Icc 1 16, tableCount m M * share M :=
          Finset.sum_le_sum_of_subset (Finset.Icc_subset_Icc_right h16)
      _ = (((tableAssignments m).map Assignment.depth).map share).sum := by rw [tableAssignments_depth, sum_lengthsBy]
      _ < share 0 := h.depths.spaceLeft
      _ = 2 ^ L * share L := by simpa using share_eq (Nat.zero_le L) (by omega)
  exact (tableValid_iff m).2 ⟨hsize, hnodup, fun L _ h16 => (hend h16).le, .inr (hend (longestLength_le m))⟩

/-! ### The round trip (R126) -/

section
variable {l : List Assignment} {s : State} (hl : CanonicalCode l) (hs : s.entry = entriesOf l)
include hl hs

/-- The counts TABLE_ENCODE writes for a canonical code. -/
theorem CanonicalCode.tableCount_encoded {L : Nat} (h1 : 1 ≤ L) (h16 : L ≤ 16) :
    tableCount (encodedTable s) L = (l.map Assignment.depth).count L := by
  have hc := hl.depthCount_eq hs h1
  rw [tableCount_encodedTable h1 h16 (hc ▸ hl.depths.countFits L), hc]

theorem CanonicalCode.tableEncode_ok :
    exec .tableEncode s = .next (finish .ok (setPacked (encodedTable s) s)) :=
  exec_tableEncode fun L h1 _ => hl.depthCount_eq hs h1 ▸ hl.depths.countFits L

/-- The lengths the encoded table assigns are the code's. -/
theorem CanonicalCode.encoded_depth : (tableAssignments (encodedTable s)).map Assignment.depth = l.map Assignment.depth := by
  refine depths_eq_of_count (followsFrom_tableAssignments _) hl.follows fun L => ?_
  by_cases hL : 1 ≤ L ∧ L ≤ 16
  · rw [count_tableAssignments_depth _ hL.1 hL.2, hl.tableCount_encoded hs hL.1 hL.2]
  · rw [tableAssignments_depth, List.count_eq_zero_of_not_mem fun h => hL (mem_lengthsBy h).1,
      List.count_eq_zero_of_not_mem fun h => hL (hl.depths.inRange L h)]

/-- The encoded table's symbols are the code's, in its order. -/
theorem CanonicalCode.encoded_symbols : tableSymbols (encodedTable s) = l.map Assignment.sym := by
  have hsize : tableSize (encodedTable s) = l.length := by
    calc tableSize (encodedTable s) = (tableAssignments (encodedTable s)).length := (length_tableAssignments _).symm
      _ = l.length := by simpa using congrArg List.length (hl.encoded_depth hs)
  have hseq : (codedSequence s).length = l.length := by simp [hl.codedSequence_eq hs]
  rw [← hl.codedSequence_eq hs, tableSymbols, hsize]
  refine List.ext_getElem (by simp [hseq]) fun i _ h => ?_
  simp [tableValue, readByte_encodedTable_value, h]

/-- The encoded table assigns what the entries hold. -/
theorem CanonicalCode.tableAssignments_encoded : tableAssignments (encodedTable s) = l :=
  followsFrom_ext (followsFrom_tableAssignments _) hl.follows
    ((tableAssignments_sym _).trans (hl.encoded_symbols hs)) (hl.encoded_depth hs)

end

/-- TABLE_ENCODE and then TABLE_DECODE give the entries back (R126, first sentence). -/
theorem decode_encoded_entries {s : State} (h : EntryInvariant s) :
    ∃ t u, exec .tableEncode s = .next t ∧ t.code = .ok ∧ exec .tableDecode t = .next u ∧ u.code = .ok ∧
      ∀ a, entryAt u a = entryAt s a := by
  have hs : s.entry = entriesOf (entryAssignments s) := (entriesOf_entryAssignments h.uncodedIsZero).symm
  have hcode := h.canonicalCode.tableAssignments_encoded hs
  have hvalid : tableValid (encodedTable s) = true := tableValid_of_canonicalCode (hcode ▸ h.canonicalCode)
  refine ⟨_, _, h.canonicalCode.tableEncode_ok hs, rfl, exec_tableDecode hvalid, rfl, fun a => ?_⟩
  simp only [entryAt_finish, entryAt_setEntries, finish_packed, setPacked_packed, hcode, ← hs]
  rfl

/-- The bytes of a zero-filled table are those TABLE_ENCODE writes from its code (R126, second sentence). -/
theorem readByte_encodedTable_of_decoded {m : Memory} {t : State} (hv : tableValid m = true)
    (ht : t.entry = entriesOf (tableAssignments m))
    (hzero : ∀ k, tableSize m ≤ k → k < 256 → readByte m (16 + k) = 0) {a : Nat} (ha : a < 272) :
    readByte (encodedTable t) a = readByte m a := by
  have hl := canonicalCode_tableAssignments hv
  by_cases h16 : a < 16
  · have hcount := hl.tableCount_encoded ht (L := a + 1) (by omega) (by omega)
    rw [count_tableAssignments_depth m (by omega) (by omega), tableCount_of_pos (by omega), tableCount_of_pos (by omega),
      Nat.add_sub_cancel] at hcount
    exact BitVec.eq_of_toNat_eq hcount
  · obtain ⟨k, rfl⟩ := Nat.exists_eq_add_of_le (Nat.not_lt.1 h16)
    rw [readByte_encodedTable_value, hl.codedSequence_eq ht, tableAssignments_sym]
    by_cases hk : k < tableSize m
    · simp [tableSymbols, hk, tableValue]
    · rw [hzero k (by omega) (by omega), List.getD_eq_default _ _ (by simpa [tableSymbols] using hk)]

/-- Settles O40: entries that satisfy E1 to E6, and the entries of a valid table, are those of a canonical code, which the
counts and the sorted symbols that TABLE_ENCODE writes determine. -/
theorem tableRoundTrip : Obligations.TableRoundTrip :=
  ⟨fun _ h => decode_encoded_entries h, fun _ hv hzero =>
    ⟨_, _, exec_tableDecode hv, rfl, (canonicalCode_tableAssignments hv).tableEncode_ok rfl, rfl, fun _ ha =>
      readByte_encodedTable_of_decoded hv rfl hzero ha⟩⟩

end Sys2Proof.Machine
end

section
/-! SUPPORT. The decode index: the anchors BUILD_ANCHORS writes, and which steps change them (spec/43_decode_index.md R140 to
R144). -/

namespace Sys2Proof.Machine

/-! ### The anchors of a table (R140, R144) -/

/-- The anchors are written as two fields, whose values a proof about the others need not see. -/
theorem setAnchors_frame (s : State) : ∃ f x, setAnchors s = { s with first := f, index := x } := ⟨_, _, rfl⟩

theorem exec_buildAnchors (s : State) : exec .buildAnchors s = .next (finish .ok (setAnchors s)) := exec_of_phaseOk rfl

/-- The anchors written are the recurrence's values: whatever the counts, they fit 32 bits (R121). -/
theorem anchorsMatch_setAnchors (s : State) : AnchorsMatch (setAnchors s) := by
  intro L h1 h16
  obtain ⟨n, rfl⟩ := Nat.exists_eq_add_of_le' h1
  have hpow : 2 ^ (n + 1) ≤ 2 ^ 16 := Nat.pow_le_pow_right (by omega) h16
  have hfirst := canonFirst_bound s.packed n
  have hindex := canonIndex_bound s.packed n
  rw [firstAt_setAnchors s h1 h16, indexAt_setAnchors s h1 h16, setAnchors_packed, BitVec.toNat_ofNat, BitVec.toNat_ofNat]
  exact ⟨Nat.mod_eq_of_lt (by omega), Nat.mod_eq_of_lt (by omega)⟩

theorem anchorsMatch_finish (c : StatusCode) {s : State} (h : AnchorsMatch s) : AnchorsMatch (finish c s) := h

theorem canonIndex_mono (m : Memory) : Monotone (canonIndex m) :=
  monotone_nat_of_le_succ fun L => Nat.le_add_right (canonIndex m L) (tableCount m L)

/-- The values of the lengths up to L are among the table's (R144). -/
theorem canonIndex_add_tableCount_le (m : Memory) {L : Nat} (h16 : L ≤ 16) :
    canonIndex m L + tableCount m L ≤ tableSize m := by
  rw [← canonIndex_succ, tableSize, lengths, ← canonIndex_eq_sum]
  exact canonIndex_mono m (by omega)

section
variable {t : State} (h : AnchorsMatch t)
include h

theorem AnchorsMatch.first_one : firstAt t 1 = 0 := BitVec.eq_of_toNat_eq (h 1 le_rfl (by omega)).1

theorem AnchorsMatch.index_one : indexAt t 1 = 0 := BitVec.eq_of_toNat_eq (h 1 le_rfl (by omega)).2

/-- Matching anchors follow the recurrence as numbers (R140). -/
theorem AnchorsMatch.recurrence {L : Nat} (h1 : 1 ≤ L) (h16 : L < 16) :
    (indexAt t (L + 1)).toNat = (indexAt t L).toNat + tableCount t.packed L ∧
      (firstAt t (L + 1)).toNat = 2 * ((firstAt t L).toNat + tableCount t.packed L) := by
  obtain ⟨hfirst, hindex⟩ := h L h1 h16.le
  obtain ⟨hfirst', hindex'⟩ := h (L + 1) (by omega) h16
  exact ⟨by rw [hindex', hindex, canonIndex_succ], by rw [hfirst', hfirst, canonFirst_succ]⟩

/-- The matching anchors of a valid table stay in the code space and in the value section (R144; V1 and V3 of R122). -/
theorem AnchorsMatch.bounds (hv : tableValid t.packed = true) {L : Nat} (h1 : 1 ≤ L) (h16 : L ≤ 16) :
    (firstAt t L).toNat + tableCount t.packed L ≤ 2 ^ L ∧
      (indexAt t L).toNat + tableCount t.packed L ≤ tableSize t.packed ∧ tableSize t.packed ≤ 256 := by
  obtain ⟨hsize, -, hspace, -⟩ := (tableValid_iff t.packed).1 hv
  obtain ⟨hfirst, hindex⟩ := h L h1 h16
  rw [hfirst, hindex]
  exact ⟨hspace L h1 h16, canonIndex_add_tableCount_le t.packed h16, hsize⟩

end

/-- Settles O42: the anchors written match the table, whatever its counts, and V1 and V3 bound those of a valid one. -/
theorem buildAnchorsFollowsTheRecurrence : Obligations.BuildAnchorsFollowsTheRecurrence := by
  intro s
  have hexec := exec_buildAnchors s
  have hmatch := anchorsMatch_finish .ok (anchorsMatch_setAnchors s)
  obtain ⟨f, x, hframe⟩ := setAnchors_frame s
  rw [hframe] at hexec hmatch
  exact ⟨f, x, hexec, hmatch.first_one, hmatch.index_one, fun _ => hmatch.recurrence, fun hv _ => hmatch.bounds hv⟩

/-! ### The steps that change them (R143) -/

/-- Only reset and, in an idle block, a command of whose row the anchors are a column change the anchors (R41). -/
theorem step_anchors_cases {s t : State} (h : step s = .next t) :
    sameColumn .anchors s t ∨ s.host.head? = some .reset ∨
      (busy s = false ∧ ∃ w i, s.host.head? = some (.write 4 0x000 w) ∧ decode w = .ok i ∧ mayWrite i .anchors = true) := by
  rcases step_serves h with ⟨_, rfl⟩ | ⟨es, width, off, _, rfl⟩ | ⟨_, _, rfl⟩ | ⟨es, width, off, v, hh, ht⟩ | ⟨_, hh, _⟩
  · exact .inl (sameColumn_iterate (c := .anchors) (s := s) (by cases s.runKind <;> rfl))
  · refine .inl ?_
    rcases busRead_state width off (setHost es s) with hr | hr <;> (rw [serveRead, hr]; rfl)
  · exact .inl rfl
  · rcases serveWrite_cases ht with ⟨_, rfl⟩ | ⟨_, rfl⟩ | ⟨hb, rfl, rfl, hi⟩ | ⟨_, _, _, rfl⟩ | ⟨_, _, _, _, rfl⟩
    · exact .inl rfl
    · exact .inl rfl
    · rcases issue_cases hi with ⟨i, hd, he⟩ | ⟨_, rfl⟩
      · cases hw : mayWrite i .anchors with
        | true => exact .inr (.inr ⟨hb, v, i, hh, hd, hw⟩)
        | false => exact .inl ((writesOnly_exec he).columns .anchors (by simp [writesGiven, hw]))
      · exact .inl rfl
    · exact .inl rfl
    · exact .inl rfl
  · exact .inr (.inl hh)

/-- The commands of R41's column of the anchors, by their words. -/
theorem encode_of_mayWrite_anchors {i : Instr} (h : mayWrite i .anchors = true) :
    encode i ∈ [0x00000001#32, 0x00000007#32, 0x00000020#32] := by
  cases i with
  | clear | buildAnchors | decInit => decide
  | _ => cases h

/-- Settles O30: a command that writes the anchors is CLEAR, BUILD_ANCHORS or DEC_INIT, and it was decoded from its word. -/
theorem anchorsAreASnapshot : Obligations.AnchorsAreASnapshot := by
  intro s t ht hne
  rcases step_anchors_cases ht with hsame | hreset | ⟨hb, w, i, hh, hd, hw⟩
  · obtain ⟨hfirst, hindex⟩ := Prod.mk.inj hsame
    exact hne.elim (absurd hfirst) (absurd hindex)
  · exact .inl hreset
  · obtain ⟨_, rfl⟩ := decode_eq_ok_iff.1 hd
    exact .inr ⟨hb, _, hh, encode_of_mayWrite_anchors hw⟩

end Sys2Proof.Machine
end

section
/-! SUPPORT. The encoder: the four ways ENC_INIT ends, EncodeOne over a sink that takes a codeword or refuses a bit of it, the
iterations of ENC_RUN and a whole run over a finite source, and the pad bits of ENC_DONE (spec/44_encoder.md R146 to R161). -/

namespace Sys2Proof.Machine

/-! ### ENC_INIT (R146, R147) -/

theorem encInitBody_fromFrequency (s : State) : encInitBody 0 s = startEncode (entriesOf (builtCodes s.freq)) s := by
  simp [encInitBody, encMode, build_eq]

theorem encInitBody_fromTable (s : State) :
    encInitBody 1 s =
      if tableValid s.packed then startEncode (entriesOf (tableAssignments s.packed)) s
      else finish .preconditionViolated (setPhase .idle s) := rfl

/-- The operands past the two modes are illegal (R71). -/
theorem encMode_of_two_le {mode : BitVec 8} (h : 2 ≤ mode.toNat) : encMode mode = none := by
  unfold encMode
  split
  · omega
  · omega
  · rfl

theorem encInitBody_of_two_le {mode : BitVec 8} (h : 2 ≤ mode.toNat) (s : State) :
    encInitBody mode s = finish .illegalCommand s := by
  rw [encInitBody, encMode_of_two_le h]

/-- Settles O43: both modes start the pass over the entries that BUILD_FREQ or TABLE_DECODE writes. -/
theorem encInitBuildsAndStartsThePass : Obligations.EncInitBuildsAndStartsThePass := by
  intro s
  have hexec (mode : BitVec 8) : exec (.encInit mode) s = .next (encInitBody mode s) := exec_of_phaseOk rfl
  refine ⟨⟨_, exec_buildFreq s, rfl, ?_⟩, fun hv => ⟨_, exec_tableDecode hv, ?_⟩, fun hv => ?_, fun mode hmode => ?_⟩
  · rw [hexec, encInitBody_fromFrequency]
    rfl
  · rw [hexec, encInitBody_fromTable, if_pos hv]
    rfl
  · rw [hexec, encInitBody_fromTable, if_neg (ne_true_of_eq_false hv)]
    rfl
  · rw [hexec, encInitBody_of_two_le hmode]
    rfl

/-! ### EncodeOne and ENC_STEP (R149 to R152) -/

/-- The block after the sink took the whole codeword of `a` (R149, R152). -/
def codewordSent (a : Symbol) (s : State) : State :=
  { s with
    bitSink := ⟨s.bitSink.taken ++ msbFirst (depthOf s a) (codeOf s a), s.bitSink.answers.drop (depthOf s a), s.bitSink.rest⟩
    bitCount := s.bitCount + BitVec.ofNat 32 (depthOf s a)
    encLastBits := (entryAt s a).depth }

theorem coded_iff_depth_ne_zero (s : State) (a : Symbol) : Coded s a ↔ (entryAt s a).depth ≠ 0 := by
  rw [Coded, depthOf, Nat.pos_iff_ne_zero, Ne, Ne, ← BitVec.toNat_inj]
  rfl

theorem encodeOne_of_not_coded {s : State} {a : Symbol} (h : ¬ Coded s a) :
    encodeOne a s = (.symbolNotCoded, setLastBits 0 s) := by
  rw [encodeOne, if_pos (not_ne_iff.1 (mt (coded_iff_depth_ne_zero s a).2 h))]

/-- EncodeOne of a coded symbol offers its codeword to the sink (R149, R152). -/
theorem encodeOne_of_coded {s : State} {a : Symbol} (h : Coded s a) :
    encodeOne a s =
      let r := sendBits (msbFirst (depthOf s a) (codeOf s a)) s
      (if r.all then .ok else .outputFull, setLastBits r.n r.state) := by
  rw [encodeOne, if_neg ((coded_iff_depth_ne_zero s a).1 h), codeword_entryAt]

theorem encodeOne_of_taken {s : State} {a : Symbol} (hc : Coded s a)
    (h : ∀ n, n < depthOf s a → s.bitSink.answerAt n = true) : encodeOne a s = (.ok, codewordSent a s) := by
  rw [encodeOne_of_coded hc, sendBits_all_taken (by simpa using h)]
  simp [setLastBits, codewordSent, depthOf]

theorem encodeOne_of_refused {s : State} {a : Symbol} {n : Nat} (hn : n < depthOf s a)
    (h : ∀ j, j < n → s.bitSink.answerAt j = true) (hr : s.bitSink.answerAt n = false) :
    encodeOne a s =
      (.outputFull, { s with
        bitSink := ⟨s.bitSink.taken ++ (msbFirst (depthOf s a) (codeOf s a)).take n, s.bitSink.answers.drop (n + 1),
          s.bitSink.rest⟩
        bitCount := s.bitCount + BitVec.ofNat 32 n
        encLastBits := BitVec.ofNat 5 n }) := by
  rw [encodeOne_of_coded (Nat.zero_lt_of_lt hn), sendBits_refused (by simpa using hn) h hr]
  rfl

/-- In an encode pass ENC_STEP is EncodeOne, finished with its status (R150). -/
theorem exec_encStep {s : State} (hp : s.phase = .encActive) (a : Symbol) :
    exec (.encStep a) s = .next (finish (encodeOne a s).1 (encodeOne a s).2) := exec_of_phaseOk (beq_of_eq hp)

/-- Settles O44: EncodeOne sends a codeword the sink takes whole, and nothing for an uncoded symbol. -/
theorem encStepPushesTheCodeword : Obligations.EncStepPushesTheCodeword := by
  refine fun s a hp => ⟨fun hc h => ?_, fun hc => ?_⟩
  · rw [exec_encStep hp, encodeOne_of_taken hc h]
    rfl
  · rw [exec_encStep hp, encodeOne_of_not_coded hc]
    rfl

/-- Settles O45: EncodeOne stops at the refused bit, those before it sent. -/
theorem encStepStopsAtARefusedBit : Obligations.EncStepStopsAtARefusedBit := by
  intro s a n hp hn h hr
  rw [exec_encStep hp, encodeOne_of_refused hn h hr]
  rfl

/-! ### One ENC_RUN iteration (R158) -/

theorem step_of_enc {s : State} (hk : s.runKind = .enc) (hh : s.host = []) : step s = .next (encIteration s) := by
  rw [step_nil hh, iterate, hk]

/-- With the source exhausted the iteration ends the run. -/
theorem encIteration_of_none {s : State} (h : s.symSource.avail.1 = none) :
    encIteration s = finish .ok (symAvail s).2 := by
  simp [encIteration, symAvail, h]

/-- With a symbol available the iteration pulls it and encodes it. -/
theorem encIteration_of_some {s : State} {a : Symbol} (h : s.symSource.avail.1 = some a) :
    encIteration s =
      if (encodeOne a (symPull (symAvail s).2)).1 = .ok then countSymbol (encodeOne a (symPull (symAvail s).2)).2
      else finish (encodeOne a (symPull (symAvail s).2)).1 (encodeOne a (symPull (symAvail s).2)).2 := by
  simp only [encIteration, symAvail, h]
  rcases encodeOne a (symPull { s with symSource := s.symSource.avail.2 }) with ⟨st, u⟩
  cases st <;> rfl

/-- EncodeOne leaves CODE, RUNKIND and COUNT, so an iteration that goes on differs from the step in these alone (R95, R158). -/
theorem countSymbol_encodeOne {s : State} (hk : s.runKind = .enc) (a : Symbol) (c : StatusCode) :
    countSymbol (encodeOne a s).2 =
      { finish c (encodeOne a s).2 with code := s.code, runKind := .enc, count := s.count + 1 } := by
  rw [encodeOne_frame, ← hk]
  rfl

/-- Settles O46: the iteration and ENC_STEP share EncodeOne, and differ in what its status does to the run. -/
theorem encRunIterationIsAStep : Obligations.EncRunIterationIsAStep := by
  refine fun s hk hp hh => ⟨fun h => ?_, fun a h => ⟨_, exec_encStep (s := symPull (symAvail s).2) hp a, ?_⟩⟩
  · rw [step_of_enc hk hh, encIteration_of_none h]
    rfl
  · rw [step_of_enc hk hh, encIteration_of_some h, finish_code]
    split
    · rw [countSymbol_encodeOne (s := symPull (symAvail s).2) hk]
      rfl
    · rfl

/-! ### A whole ENC_RUN (R156) -/

/-- The block after an ENC_RUN whose sink took the codewords of all of a finite source's symbols (R152, R156). -/
def sourceEncoded (xs : List Symbol) (s : State) : State :=
  { s with
    symSource := ⟨[], none, []⟩
    bitSink := ⟨s.bitSink.taken ++ xs.flatMap (fun a => msbFirst (depthOf s a) (codeOf s a)),
      s.bitSink.answers.drop (xs.map (depthOf s)).sum, s.bitSink.rest⟩
    bitCount := s.bitCount + BitVec.ofNat 32 (xs.map (depthOf s)).sum
    encLastBits := (xs.getLast?.map fun a => (entryAt s a).depth).getD s.encLastBits
    count := s.count + BitVec.ofNat 32 xs.length, code := .ok, runKind := .none }

/-- The source found exhausted at once. -/
theorem sourceEncoded_exhausted {s : State} (h : s.symSource = ⟨[], none, []⟩) :
    finish .ok (symAvail s).2 = sourceEncoded [] s := by
  simp [finish, symAvail, sourceEncoded, h, Source.avail]

/-- A symbol encoded before the rest of the source. -/
theorem sourceEncoded_countSymbol (xs : List Symbol) (a : Symbol) (s : State) :
    sourceEncoded xs (countSymbol (codewordSent a (symPull (symAvail s).2))) = sourceEncoded (a :: xs) s := by
  have hlast : ((a :: xs).getLast?.map fun b => (entryAt s b).depth).getD s.encLastBits =
      (xs.getLast?.map fun b => (entryAt s b).depth).getD (entryAt s a).depth := by
    rw [List.getLast?_cons, Option.map_some, Option.getD_some, Option.getD_map (fun b => (entryAt s b).depth)]
  have hcount : s.count + BitVec.ofNat 32 (a :: xs).length = s.count + 1 + BitVec.ofNat 32 xs.length := by
    rw [BitVec.add_assoc, List.length_cons, Nat.add_comm, BitVec.ofNat_add]
    rfl
  simp only [sourceEncoded, hlast, hcount, List.flatMap_cons, ← List.append_assoc, List.map_cons, List.sum_cons,
    BitVec.ofNat_add, ← BitVec.add_assoc, ← List.drop_drop]
  rfl

/-- A run over a finite source of coded symbols, from any state of it, with a sink that never refuses. -/
theorem run_encIterations (xs : List Symbol) {s : State} (hk : s.runKind = .enc) (hh : s.host = [])
    (hsrc : s.symSource = ⟨xs, none, []⟩) (hans : s.bitSink.answers = []) (hrest : s.bitSink.rest = true)
    (hcoded : ∀ a ∈ xs, Coded s a) : core.run (xs.length + 1) s = .next (sourceEncoded xs s) := by
  have hstep := step_of_enc hk hh
  induction xs generalizing s with
  | nil =>
    rw [encIteration_of_none (by rw [hsrc]; rfl), sourceEncoded_exhausted hsrc] at hstep
    exact run_of_step (M := core) 0 hstep
  | cons x xs ih =>
    have hsent : encodeOne x (symPull (symAvail s).2) = (.ok, codewordSent x (symPull (symAvail s).2)) :=
      encodeOne_of_taken (hcoded x List.mem_cons_self) fun n _ => by simp [Sink.answerAt, hans, hrest]
    rw [encIteration_of_some (a := x) (by rw [hsrc]; rfl), hsent, if_pos rfl] at hstep
    have hrun := ih (s := countSymbol (codewordSent x (symPull (symAvail s).2))) hk hh
      (by simp [codewordSent, hsrc, Source.avail, Source.pull]) (by simp [codewordSent, hans]) hrest
      (fun a ha => hcoded a (List.mem_cons_of_mem x ha)) (step_of_enc hk hh)
    rw [sourceEncoded_countSymbol] at hrun
    exact (run_of_step (M := core) _ hstep).trans hrun

/-- Settles O47: ENC_RUN starts at COUNT 0, and its run sends the codewords of the source's symbols. -/
theorem encRunEncodesTheSource : Obligations.EncRunEncodesTheSource := by
  intro s xs hp hh hsrc hans hrest hcoded
  have hrun := run_encIterations xs (s := startRun .enc s) rfl hh hsrc hans hrest hcoded
  have hcount : (startRun .enc s).count + BitVec.ofNat 32 xs.length = BitVec.ofNat 32 xs.length := BitVec.zero_add _
  rw [sourceEncoded, hcount, startRun_bitSink, hans, hrest, List.drop_nil] at hrun
  exact ⟨startRun .enc s, _, exec_of_phaseOk (i := .encRun) (beq_of_eq hp), hrun, rfl⟩

/-! ### ENC_DONE (R160, R161) -/

theorem exec_encDone_again {s : State} (h : s.phase = .encDone) : exec .encDone s = .next (finish .ok s) := by
  rw [exec_of_phaseOk (by rw [h]; rfl), bodyOf, encDoneBody, if_pos h]

/-- In an encode pass ENC_DONE offers the pad bits to the sink, and ends the pass when it took them all. -/
theorem exec_encDone {s : State} (h : s.phase = .encActive) :
    exec .encDone s = .next (
      let r := sendBits (List.replicate (padCount s) true) s
      if r.all then finish .ok (setPhase .encDone r.state) else finish .outputFull r.state) := by
  rw [exec_of_phaseOk (by rw [h]; rfl), bodyOf, encDoneBody, if_neg (by simp [h])]

/-- With its padding BITCOUNT is a multiple of 8, also when it wraps (R161). -/
theorem padded_mod_eight (s : State) : (s.bitCount + BitVec.ofNat 32 (padCount s)).toNat % 8 = 0 := by
  rw [BitVec.toNat_add, BitVec.toNat_ofNat, padCount]
  omega

/-- Each pad bit taken is one fewer to come, also when BITCOUNT wraps (R160). -/
theorem padCount_after {s t : State} {n : Nat} (ht : t.bitCount = s.bitCount + BitVec.ofNat 32 n) (hn : n ≤ padCount s) :
    padCount t = padCount s - n := by
  have hcount : t.bitCount.toNat = (s.bitCount.toNat + n % 2 ^ 32) % 2 ^ 32 := by
    rw [ht, BitVec.toNat_add, BitVec.toNat_ofNat]
  simp only [padCount] at hn ⊢
  omega

/-- Settles O48: a sink that takes the pad bits ends the pass, and a pass that is done stays so. -/
theorem encDonePadsTheLastByte : Obligations.EncDonePadsTheLastByte := by
  refine fun s => ⟨fun hp h => ⟨?_, by omega, padded_mod_eight s⟩, exec_encDone_again⟩
  rw [exec_encDone hp, sendBits_all_taken (by simpa [padCount] using h), List.length_replicate]
  rfl

/-- Settles O49: ENC_DONE stops at the refused pad bit, and BITCOUNT holds what is left to push. -/
theorem refusedPadBitLeavesThePassResumable : Obligations.RefusedPadBitLeavesThePassResumable := by
  intro s n hp hn h hr
  replace hn : n < padCount s := hn
  refine ⟨_, ?_, rfl, padCount_after (s := s) rfl hn.le⟩
  rw [exec_encDone hp, sendBits_refused (by simpa using hn) h hr, List.take_replicate, Nat.min_eq_left hn.le]
  rfl

end Sys2Proof.Machine
end

section
/-! SUPPORT. The decoder: how DEC_INIT and DEC_DONE end, DecodeOne over bits that match at a length or at none, and one iteration
of DEC_RUN (spec/45_decoder.md R164 to R176). -/

namespace Sys2Proof.Machine

/-! ### DEC_INIT and DEC_DONE (R164, R176) -/

/-- The start of a decode pass over the anchors of the table in PACKED (R164, the success path). -/
def startDecode (s : State) : State :=
  finish .ok (setPhase .decActive { setAnchors s with decValid := false, decBits := 0, count := 0 })

theorem exec_decInit {s : State} (h : tableSize s.packed ≤ 256) : exec .decInit s = .next (startDecode s) := by
  rw [exec_of_phaseOk rfl, bodyOf, decInitBody, if_neg (Nat.not_lt.2 h), startDecode]

theorem exec_decInit_of_large {s : State} (h : 256 < tableSize s.packed) :
    exec .decInit s = .next (finish .preconditionViolated (setPhase .idle s)) := by
  rw [exec_of_phaseOk rfl, bodyOf, decInitBody, if_pos h]

/-- DEC_INIT of a table that fits the value section starts a pass, with anchors that match the table. -/
theorem decInit_starts {s : State} (h : tableSize s.packed ≤ 256) :
    ∃ u, exec .decInit s = .next u ∧ u.code = .ok ∧ u.phase = .decActive ∧ u.packed = s.packed ∧ u.host = s.host ∧
      u.bitSource = s.bitSource ∧ AnchorsMatch u := by
  have hexec := exec_decInit h
  have hmatch := anchorsMatch_setAnchors s
  obtain ⟨f, x, hframe⟩ := setAnchors_frame s
  rw [startDecode, hframe] at hexec
  rw [hframe] at hmatch
  exact ⟨_, hexec, rfl, rfl, rfl, rfl, rfl, hmatch⟩

/-- Settles O51: DEC_INIT writes the anchors as BUILD_ANCHORS does, behind its check of V1. -/
theorem decInitLatchesTheAnchors : Obligations.DecInitLatchesTheAnchors := by
  refine fun s => ⟨fun h => ⟨_, exec_buildAnchors s, ?_⟩, exec_decInit_of_large⟩
  obtain ⟨f, x, hframe⟩ := setAnchors_frame s
  rw [exec_decInit h, startDecode, hframe]
  rfl

/-- Settles O59: DEC_DONE's rule has one branch for each of its two phases. -/
theorem decDoneOnlyChangesThePhase : Obligations.DecDoneOnlyChangesThePhase := by
  refine fun s => ⟨fun h => ?_, fun h => ?_⟩
  · rw [exec_of_phaseOk (by rw [h]; rfl), bodyOf, decDoneBody, if_neg (by simp [h])]
    rfl
  · rw [exec_of_phaseOk (by rw [h]; rfl), bodyOf, decDoneBody, if_pos h]
    rfl

/-! ### DecodeOne over bits that match at a length or at none (R168) -/

theorem inRange_iff (s : State) (L cand : Nat) : inRange s L cand = true ↔
    (firstAt s L).toNat ≤ cand ∧ cand < (firstAt s L).toNat + tableCount s.packed L := by
  simp [inRange]

/-- The first `j` of the bits, as a number, are in the range of length `j`, by the latched anchor and the live count. -/
def MatchesAt (s : State) (bs : List Bool) (j : Nat) : Prop :=
  (firstAt s j).toNat ≤ bitsValue (bs.take j) ∧
    bitsValue (bs.take j) < (firstAt s j).toNat + tableCount s.packed j

/-- The bits match at none of their lengths. -/
def Unmatched (s : State) (bs : List Bool) : Prop := ∀ j, 1 ≤ j → j ≤ bs.length → ¬ MatchesAt s bs j

section
variable {s : State} {bs : List Bool}

/-- A match at a length is a matter of the first bits alone. -/
theorem matchesAt_take {n j : Nat} (h : j ≤ n) : MatchesAt s (bs.take n) j ↔ MatchesAt s bs j := by
  rw [MatchesAt, MatchesAt, List.take_take, Nat.min_eq_left h]

/-- The first `n` bits match nowhere when no length up to `n` has a match. -/
theorem unmatched_take {n : Nat} (h : ∀ j, 1 ≤ j → j ≤ n → ¬ MatchesAt s bs j) : Unmatched s (bs.take n) := by
  intro j h1 hj
  have hjn : j ≤ n := hj.trans (List.length_take_le ..)
  exact mt (matchesAt_take hjn).1 (h j h1 hjn)

/-- DecodeOne takes bits that match nowhere and goes on after them. -/
theorem decodeOne_of_unmatched (h16 : bs.length ≤ 16) (hd : s.bitSource.delivers bs)
    (hy : s.bitSource.answersYes bs.length) (hu : Unmatched s bs) :
    decodeOne s = decodeFrom (16 - bs.length) (bs.length + 1) (bitsValue bs)
      { s with bitSource := s.bitSource.after bs.length bs.length } := by
  have h := decodeFrom_no_match (fuel := 16 - bs.length) [] hd hy fun j h1 hj =>
    Bool.eq_false_iff.2 (mt (inRange_iff s _ _).1 (by simpa [MatchesAt] using hu j h1 hj))
  rw [Nat.sub_add_cancel h16] at h
  rw [List.length_nil, Nat.zero_add, Nat.zero_add, List.nil_append] at h
  exact h

/-- Sixteen bits without a match. -/
theorem decodeOne_of_corrupt (h16 : bs.length = 16) (hd : s.bitSource.delivers bs)
    (hy : s.bitSource.answersYes bs.length) (hu : Unmatched s bs) :
    decodeOne s = (.corruptTable, decodeFailed 16 { s with bitSource := s.bitSource.after 16 16 }) := by
  rw [decodeOne_of_unmatched h16.le hd hy hu, h16]
  rfl

/-- Fewer bits without a match, and then none. -/
theorem decodeOne_of_truncated (h16 : bs.length < 16) (hd : s.bitSource.delivers bs)
    (hy : s.bitSource.answersYes bs.length) (hu : Unmatched s bs) (hdry : s.bitSource.dryAfter bs.length) :
    decodeOne s = (.truncatedStream,
      decodeFailed bs.length { s with bitSource := s.bitSource.after (bs.length + 1) bs.length }) := by
  obtain ⟨fuel, hfuel⟩ : ∃ fuel, 16 - bs.length = fuel + 1 := ⟨15 - bs.length, by omega⟩
  have hdry' : (s.bitSource.after bs.length bs.length).dryAfter 0 := by
    simpa [Source.dryAfter, Source.after, Source.nth] using hdry
  rw [decodeOne_of_unmatched h16.le hd hy hu, hfuel, decodeFrom_dry (avail_of_dry hdry')]
  simp [after_after]

/-- A match at the last of the bits, and at none before it. -/
theorem decodeOne_of_match {L : Nat} (hL : bs.length = L) (h1 : 1 ≤ L) (h16 : L ≤ 16) (hd : s.bitSource.delivers bs)
    (hy : s.bitSource.answersYes L) (hno : ∀ j, 1 ≤ j → j < L → ¬ MatchesAt s bs j) (hm : MatchesAt s bs L) :
    decodeOne s =
      let k := (indexAt s L).toNat + (bitsValue bs - (firstAt s L).toNat)
      let u := { s with bitSource := s.bitSource.after L L }
      if 256 ≤ k then (.preconditionViolated, decodeFailed L u) else (.ok, decodeGave L (tableValue s.packed k) u) := by
  obtain ⟨init, b, rfl⟩ := (List.eq_nil_or_concat' bs).resolve_left (List.ne_nil_of_length_pos (hL ▸ h1))
  obtain rfl : init.length + 1 = L := by simpa using hL
  obtain ⟨fuel, hfuel⟩ : ∃ fuel, 16 - init.length = fuel + 1 := ⟨15 - init.length, by omega⟩
  have hinit : s.bitSource.delivers init := fun n hn => by
    rw [hd n (by simp; omega), List.getElem?_append_left hn]
  have hu : Unmatched s init := by
    have := unmatched_take (n := init.length) fun j h1 hj => hno j h1 (Nat.lt_succ_of_le hj)
    rwa [List.take_left] at this
  have hlast : (s.bitSource.after init.length init.length).avail.1 = some b := by
    rw [avail_of_yes (answersYes_after _ hy), nth_after, Nat.add_zero, hd init.length (by simp)]
    simp
  rw [decodeOne_of_unmatched (by omega) hinit (answersYes_mono (Nat.le_succ _) hy) hu, hfuel, decodeFrom_bit hlast,
    ← bitsValue_concat]
  simp only [after_after]
  exact if_pos ((inRange_iff _ _ _).2 (by rwa [MatchesAt, List.take_of_length_le hL.le] at hm))

/-- In a decode pass DEC_STEP is DecodeOne, finished with its status (R167). -/
theorem exec_decStep (hp : s.phase = .decActive) :
    exec .decStep s = .next (finish (decodeOne s).1 (decodeOne s).2) := exec_of_phaseOk (beq_of_eq hp)

end

/-- Settles O52: DecodeOne's index is the statement's, and either in the value section or past it. -/
theorem decStepDecodesTheFirstMatch : Obligations.DecStepDecodesTheFirstMatch := by
  intro s bs hp h1 h16 hd hy hno hlo hhi
  have hm : MatchesAt s bs bs.length := by rw [MatchesAt, List.take_length]; exact ⟨hlo, hhi⟩
  rw [exec_decStep hp, decodeOne_of_match rfl h1 h16 hd hy hno hm]
  refine ⟨fun hk => ?_, fun hk => ?_⟩
  · dsimp only
    rw [if_neg (Nat.not_le.2 hk)]
    rfl
  · dsimp only
    rw [if_pos hk]
    rfl

/-- Settles O53: DecodeOne takes the bits, and then has no length left or no bit. -/
theorem decStepFailsWithoutAMatch : Obligations.DecStepFailsWithoutAMatch := by
  refine fun s bs hp _ hd hy hu => ⟨fun h16 => ?_, fun hlt hdry => ?_⟩
  · rw [exec_decStep hp, decodeOne_of_corrupt h16 hd hy hu]
    rfl
  · rw [exec_decStep hp, decodeOne_of_truncated hlt hd hy hu hdry]
    rfl

/-! ### One DEC_RUN iteration (R173) -/

theorem step_of_dec {s : State} (hk : s.runKind = .dec) (hh : s.host = []) : step s = .next (decIteration s) := by
  rw [step_nil hh, iterate, hk]

/-- With the bit source exhausted the iteration ends the run. -/
theorem decIteration_of_none {s : State} (h : s.bitSource.avail.1 = none) :
    decIteration s = finish .ok (bitAvail s).2 := by
  simp [decIteration, bitAvail, h]

/-- With a sink that refuses the iteration ends the run before it takes a bit. -/
theorem decIteration_of_refused {s : State} (h : s.bitSource.avail.1 ≠ none) (hc : s.symSink.canAccept.1 = false) :
    decIteration s = finish .outputFull (symCanAccept (bitAvail s).2).2 := by
  obtain ⟨b, hb⟩ := Option.ne_none_iff_exists'.1 h
  simp [decIteration, bitAvail, symCanAccept, hb, hc]

/-- With a bit available and a sink that accepts the iteration decodes. -/
theorem decIteration_of_accepted {s : State} (h : s.bitSource.avail.1 ≠ none) (hc : s.symSink.canAccept.1 = true) :
    decIteration s =
      let r := decodeOne (symCanAccept (bitAvail s).2).2
      if r.1 = .ok then countSymbol (symPush r.2.decSym r.2) else finish r.1 r.2 := by
  obtain ⟨b, hb⟩ := Option.ne_none_iff_exists'.1 h
  simp only [decIteration, bitAvail, symCanAccept, hb, hc]
  generalize decodeOne _ = r
  obtain ⟨st, u⟩ := r
  cases st <;> rfl

/-- DecodeOne leaves CODE, RUNKIND, COUNT and the symbol sink, so an iteration that goes on differs from the step in these
alone (R95, R173). -/
theorem countSymbol_symPush_decodeOne {s : State} (hk : s.runKind = .dec) (c : StatusCode) :
    countSymbol (symPush (decodeOne s).2.decSym (decodeOne s).2) =
      { finish c (decodeOne s).2 with
        code := s.code, runKind := .dec, count := s.count + 1,
        symSink := ⟨s.symSink.taken ++ [(finish c (decodeOne s).2).decSym], s.symSink.answers, s.symSink.rest⟩ } := by
  rw [decodeOne_frame, ← hk]
  rfl

/-- Settles O56: the iteration and DEC_STEP share DecodeOne, and differ in what its status does to the run. -/
theorem decRunIterationIsAStep : Obligations.DecRunIterationIsAStep := by
  refine fun s hk hp hh => ⟨fun h => ?_, fun h hc => ?_, fun h hc =>
    ⟨_, exec_decStep (s := (symCanAccept (bitAvail s).2).2) hp, ?_⟩⟩
  · rw [step_of_dec hk hh, decIteration_of_none h]
    rfl
  · rw [step_of_dec hk hh, decIteration_of_refused h hc]
    rfl
  · rw [step_of_dec hk hh, decIteration_of_accepted h hc, finish_code]
    dsimp only
    split
    · rw [countSymbol_symPush_decodeOne (s := (symCanAccept (bitAvail s).2).2) hk]
      rfl
    · rfl

end Sys2Proof.Machine
end

section
/-! SUPPORT. Decoding a valid table's codewords: none of them matches at a length below its own, and no run of one-bits matches
at all (spec/45_decoder.md R168 to R170, spec/42_table_codec.md R122, R126). -/

namespace Sys2Proof.Machine

/-! ### Codewords and runs of one-bits as numbers -/

/-- The leading bits of a codeword spell its quotient. -/
theorem bitsValue_take_msbFirst {L c : Nat} (j : Nat) (hc : c < 2 ^ L) :
    bitsValue ((msbFirst L c).take j) = c / 2 ^ (L - j) := by
  have hval : bitsValue ((msbFirst L c).take j) * 2 ^ (L - j) + bitsValue ((msbFirst L c).drop j) = c := by
    have h := bitsValue_append ((msbFirst L c).take j) ((msbFirst L c).drop j)
    rwa [List.take_append_drop, bitsValue_msbFirst, Nat.mod_eq_of_lt hc, List.length_drop, length_msbFirst, eq_comm] at h
  have hrest : bitsValue ((msbFirst L c).drop j) < 2 ^ (L - j) := by
    simpa using bitsValue_lt ((msbFirst L c).drop j)
  rw [eq_comm, Nat.div_eq_iff (Nat.two_pow_pos _)]
  omega

theorem bitsValue_replicate_true (n : Nat) : bitsValue (List.replicate n true) + 1 = 2 ^ n := by
  induction n with
  | zero => rfl
  | succ n ih =>
    rw [List.replicate_succ', bitsValue_concat, Nat.pow_succ, ← ih, Bool.toNat_true]
    omega

/-! ### What matches in a valid table (R168, R170) -/

/-- An assignment of a table stands at a place of it. -/
theorem exists_place_of_mem {m : Memory} {y : Assignment} (hy : y ∈ tableAssignments m) :
    ∃ L k, 1 ≤ L ∧ L ≤ 16 ∧ k < tableCount m L ∧ y = ⟨tableValue m (canonIndex m L + k), L, canonFirst m L + k⟩ := by
  obtain ⟨L, hL, hy⟩ := List.mem_flatMap.1 hy
  obtain ⟨k, hk, rfl⟩ := List.mem_map.1 hy
  obtain ⟨h1, h16⟩ := mem_lengths.1 hL
  exact ⟨L, k, h1, h16, List.mem_range.1 hk, rfl⟩

section
variable {s : State} (ha : AnchorsMatch s)
include ha

/-- Bits that match spell the code of an assignment of the table. -/
theorem AnchorsMatch.exists_assignment {bs : List Bool} {j : Nat} (h1 : 1 ≤ j) (h16 : j ≤ 16) (hm : MatchesAt s bs j) :
    ∃ x ∈ tableAssignments s.packed, x.depth = j ∧ x.code = bitsValue (bs.take j) := by
  obtain ⟨hlo, hhi⟩ := hm
  rw [(ha j h1 h16).1] at hlo hhi
  obtain ⟨k, hk⟩ := Nat.exists_eq_add_of_le hlo
  exact ⟨_, mem_tableAssignments (k := k) h1 h16 (by omega), rfl, hk.symm⟩

variable (hv : tableValid s.packed = true)
include hv

/-- One-bits match at no length of a valid table, since no codeword of it is all ones (C2). -/
theorem AnchorsMatch.unmatched_ones {n : Nat} (h16 : n ≤ 16) : Unmatched s (List.replicate n true) := by
  intro j h1 hj hm
  rw [List.length_replicate] at hj
  obtain ⟨x, hx, hd, hc⟩ := ha.exists_assignment h1 (hj.trans h16) hm
  rw [List.take_replicate, Nat.min_eq_left hj] at hc
  have hlt := (canonicalCode_tableAssignments hv).code_lt hx
  rw [hd, hc, bitsValue_replicate_true] at hlt
  exact Nat.lt_irrefl _ hlt

variable {y : Assignment} (hy : y ∈ tableAssignments s.packed)
include hy

/-- A codeword matches at no length below its own: the codes of that length are before it, with all their extensions. -/
theorem AnchorsMatch.not_matchesAt_below {j : Nat} (h1 : 1 ≤ j) (hj : j < y.depth) :
    ¬ MatchesAt s (msbFirst y.depth y.code) j := by
  intro hm
  have hl := canonicalCode_tableAssignments hv
  have hylt := hl.code_lt hy
  obtain ⟨x, hx, rfl, hc⟩ := ha.exists_assignment h1 (hj.le.trans (hl.depth_inRange hy).2) hm
  rw [bitsValue_take_msbFirst _ (by omega)] at hc
  rcases before_or_before (followsFrom_pairwise hl.follows) hx hy (by rintro rfl; omega) with hb | hb
  · have := (Nat.le_div_iff_mul_le (Nat.two_pow_pos _)).2 hb.2
    omega
  · exact absurd hb.1 (Nat.not_le.2 hj)

/-- The bits of a codeword decode to its symbol after exactly its length (R169). -/
theorem AnchorsMatch.decodeOne_codeword (hd : s.bitSource.delivers (msbFirst y.depth y.code))
    (hyes : s.bitSource.answersYes y.depth) :
    decodeOne s =
      (.ok, decodeGave y.depth y.sym { s with bitSource := s.bitSource.after y.depth y.depth }) := by
  have hylt := (canonicalCode_tableAssignments hv).code_lt hy
  have hval : bitsValue (msbFirst y.depth y.code) = y.code := by rw [bitsValue_msbFirst, Nat.mod_eq_of_lt (by omega)]
  have hbelow := fun j => ha.not_matchesAt_below hv hy (j := j)
  obtain ⟨L, k, h1, h16, hk, rfl⟩ := exists_place_of_mem hy
  dsimp only at hd hyes hval hbelow ⊢
  obtain ⟨hfirst, hindex⟩ := ha L h1 h16
  have hm : MatchesAt s (msbFirst L (canonFirst s.packed L + k)) L := by
    rw [MatchesAt, List.take_of_length_le (length_msbFirst _ _).le, hval, hfirst]
    omega
  have hplace := canonIndex_add_tableCount_le s.packed h16
  have hsize := ((tableValid_iff _).1 hv).1
  rw [decodeOne_of_match (length_msbFirst _ _) h1 h16 hd hyes hbelow hm, hval, hfirst, hindex, Nat.add_sub_cancel_left]
  exact if_neg (by omega)

/-- Fewer bits of a codeword than its length, and then none (R169). -/
theorem AnchorsMatch.decodeOne_cut {n : Nat} (hn : n < y.depth)
    (hd : s.bitSource.delivers ((msbFirst y.depth y.code).take n)) (hyes : s.bitSource.answersYes n)
    (hdry : s.bitSource.dryAfter n) :
    decodeOne s = (.truncatedStream, decodeFailed n { s with bitSource := s.bitSource.after (n + 1) n }) := by
  have hlen : ((msbFirst y.depth y.code).take n).length = n := by simpa using hn.le
  have h16 := ((canonicalCode_tableAssignments hv).depth_inRange hy).2
  have hu := unmatched_take fun j h1 (hj : j ≤ n) => ha.not_matchesAt_below hv hy h1 (hj.trans_lt hn)
  have h := decodeOne_of_truncated (by omega) hd (by rwa [hlen]) hu (by rwa [hlen])
  rwa [hlen] at h

end

/-- Settles O54: the codeword of a place is that of an assignment of the table, and it matches at its own length first. -/
theorem decodingInvertsEncoding : Obligations.DecodingInvertsEncoding := by
  intro s L k hp hv ha h1 h16 hk
  have hy := mem_tableAssignments h1 h16 hk
  refine ⟨fun hd hyes => ?_, fun n hn hd hyes hdry => ?_⟩
  · rw [exec_decStep hp, ha.decodeOne_codeword hv hy hd hyes]
    rfl
  · rw [exec_decStep hp, ha.decodeOne_cut hv hy hn hd hyes hdry]
    rfl

/-- Settles O58: sixteen one-bits match at no length. -/
theorem sixteenOnesMatchNoValidTable : Obligations.SixteenOnesMatchNoValidTable := by
  intro s hp hv ha hd hyes
  rw [exec_decStep hp, decodeOne_of_corrupt (List.length_replicate ..) hd hyes (ha.unmatched_ones hv le_rfl)]
  rfl

/-! ### An exported table (R126, R177) -/

/-- The table TABLE_ENCODE exports from a canonical code is valid. -/
theorem CanonicalCode.tableValid_encoded {l : List Assignment} {s : State} (hl : CanonicalCode l)
    (hs : s.entry = entriesOf l) : tableValid (encodedTable s) = true :=
  tableValid_of_canonicalCode ((hl.tableAssignments_encoded hs).symm ▸ hl)

/-- Settles O55: the exported table assigns what the entries hold, and DEC_INIT's anchors match it. -/
theorem exportedTableDecodesTheCodewords : Obligations.ExportedTableDecodesTheCodewords := by
  intro s a h hc hd hyes
  have hl := h.canonicalCode
  have hs : s.entry = entriesOf (entryAssignments s) := (entriesOf_entryAssignments h.uncodedIsZero).symm
  have hv := hl.tableValid_encoded hs
  have hy : entryAssignment s a ∈ tableAssignments (encodedTable s) :=
    hl.tableAssignments_encoded hs ▸ List.mem_map_of_mem (mem_codedSequence.2 hc)
  obtain ⟨u, hinit, hok, hphase, hpacked, -, hsrc, ha⟩ :=
    decInit_starts (s := finish .ok (setPacked (encodedTable s) s)) ((tableValid_iff _).1 hv).1
  replace hpacked : u.packed = encodedTable s := hpacked
  replace hsrc : u.bitSource = s.bitSource := hsrc
  rw [← hpacked] at hv hy
  rw [← hsrc] at hd hyes ⊢
  refine ⟨_, u, _, hl.tableEncode_ok hs, hinit, hok, exec_decStep hphase, ?_⟩
  rw [ha.decodeOne_codeword hv hy hd hyes]
  exact ⟨rfl, rfl, by simp [entryAssignment, depthOf], rfl⟩

end Sys2Proof.Machine
end

section
/-! SUPPORT. A whole DEC_RUN over the codewords of a valid table and up to seven pad bits (spec/45_decoder.md R169 to R173). -/

namespace Sys2Proof.Machine

/-! ### Sources that hold bits and answer yes (R61) -/

theorem answersYes_of_answers_nil {α : Type} {p : Source α} (h : p.answers = []) (n : Nat) : p.answersYes n := by
  simp [Source.answersYes, h]

theorem delivers_of_items {α : Type} {p : Source α} {xs ys : List α} (h : p.items = xs ++ ys) : p.delivers xs := by
  intro n hn
  simp [Source.nth, h, List.getElem?_append_left hn, List.getElem?_eq_getElem hn]

/-- An availability call to an agent with no answers listed leaves it as it was. -/
theorem bitAvail_of_answers_nil {s : State} (h : s.bitSource.answers = []) : (bitAvail s).2 = s := by
  have hsrc : s.bitSource.avail.2 = s.bitSource := by rw [Source.avail, h, List.tail_nil, ← h]
  rw [bitAvail, hsrc]

theorem symCanAccept_of_answers_nil {s : State} (h : s.symSink.answers = []) : (symCanAccept s).2 = s := by
  have hsnk : s.symSink.canAccept.2 = s.symSink := by rw [Sink.canAccept, h, List.tail_nil, ← h]
  rw [symCanAccept, hsnk]

/-! ### Iterations over codewords and pad bits (R173) -/

/-- The bits of assignments' codewords, one after the other with no delimiter (R152). -/
def codewordBits (ys : List Assignment) : List Bool := ys.flatMap fun y => msbFirst y.depth y.code

/-- The block after an iteration has decoded the codeword of `y` (R169, R173). -/
def symbolDecoded (y : Assignment) (s : State) : State :=
  countSymbol (symPush y.sym (decodeGave y.depth y.sym { s with bitSource := s.bitSource.after y.depth y.depth }))

/-- How a DEC_RUN from `s` over the codewords of the symbols `vs` and `p` pad bits ends. -/
structure DecRunEnd (vs : List Symbol) (p : Nat) (s t : State) : Prop where
  idle : t.runKind = .none
  pushed : t.symSink.taken = s.symSink.taken ++ vs
  counted : t.count = s.count + BitVec.ofNat 32 vs.length
  drained : t.bitSource.items = []
  phase : t.phase = s.phase
  ok : p = 0 → t.code = .ok
  cut : 0 < p → t.code = .truncatedStream ∧ t.decBits = BitVec.ofNat 5 p ∧ t.decValid = false

/-- A symbol decoded before the others. -/
theorem DecRunEnd.cons {vs : List Symbol} {p : Nat} {y : Assignment} {s t : State}
    (h : DecRunEnd vs p (symbolDecoded y s) t) : DecRunEnd (y.sym :: vs) p s t where
  idle := h.idle
  pushed := by simpa [symbolDecoded, Sink.push] using h.pushed
  counted := by
    rw [h.counted, List.length_cons, Nat.add_comm, BitVec.ofNat_add, ← BitVec.add_assoc]
    rfl
  drained := h.drained
  phase := h.phase
  ok := h.ok
  cut := h.cut

/-- A block whose bit source holds the codewords of `ys`, all of them assignments of the valid table in PACKED with its anchors,
and `p` pad bits, and whose symbol sink takes everything. -/
structure ReadyToDecode (ys : List Assignment) (p : Nat) (s : State) : Prop where
  quiet : s.host = []
  answers : s.symSink.answers = []
  accepts : s.symSink.rest = true
  anchors : AnchorsMatch s
  valid : tableValid s.packed = true
  assigned : ∀ y ∈ ys, y ∈ tableAssignments s.packed
  padded : p ≤ 7
  bits : s.bitSource = ⟨codewordBits ys ++ List.replicate p true, none, []⟩

section
variable {s : State} {y : Assignment} {ys : List Assignment} {p : Nat}

/-- With bits left and a sink that takes everything the iteration is DecodeOne. -/
theorem decIteration_of_bits {b : Bool} {bs : List Bool} (hsrc : s.bitSource = ⟨b :: bs, none, []⟩)
    (hans : s.symSink.answers = []) (hrest : s.symSink.rest = true) :
    decIteration s =
      if (decodeOne s).1 = .ok then countSymbol (symPush (decodeOne s).2.decSym (decodeOne s).2)
      else finish (decodeOne s).1 (decodeOne s).2 := by
  have h := decIteration_of_accepted (s := s) (by rw [hsrc]; simp [Source.avail, Source.offer])
    (by simp [Sink.canAccept, hans, hrest])
  rwa [bitAvail_of_answers_nil (by rw [hsrc]), symCanAccept_of_answers_nil hans] at h

/-- The codeword at the head of the source. -/
theorem ReadyToDecode.bits_cons (h : ReadyToDecode (y :: ys) p s) :
    s.bitSource = ⟨msbFirst y.depth y.code ++ (codewordBits ys ++ List.replicate p true), none, []⟩ := by
  rw [h.bits, codewordBits, List.flatMap_cons, List.append_assoc, codewordBits]

/-- An iteration over a codeword decodes it. -/
theorem ReadyToDecode.decIteration_cons (h : ReadyToDecode (y :: ys) p s) : decIteration s = symbolDecoded y s := by
  have hy := h.assigned y List.mem_cons_self
  have hsrc := h.bits_cons
  have hdec := h.anchors.decodeOne_codeword h.valid hy (delivers_of_items (by rw [hsrc]))
    (answersYes_of_answers_nil (by rw [hsrc]) _)
  obtain ⟨n, hn⟩ := Nat.exists_eq_add_of_le' ((canonicalCode_tableAssignments h.valid).depth_inRange hy).1
  rw [hn, msbFirst_succ, List.cons_append] at hsrc
  rw [decIteration_of_bits hsrc h.answers h.accepts, hdec, if_pos rfl]
  rfl

/-- After it the block is ready for the other codewords. -/
theorem ReadyToDecode.tail (h : ReadyToDecode (y :: ys) p s) : ReadyToDecode ys p (symbolDecoded y s) :=
  { h with
    assigned := fun z hz => h.assigned z (List.mem_cons_of_mem y hz)
    bits := by simp [symbolDecoded, h.bits_cons, Source.after] }

/-- The last iteration: no bit is left, or pad bits alone, which match nowhere before the source ends (R171). -/
theorem ReadyToDecode.decIteration_nil (h : ReadyToDecode [] p s) : DecRunEnd [] p s (decIteration s) := by
  have hsrc : s.bitSource = ⟨List.replicate p true, none, []⟩ := h.bits
  have hp := h.padded
  cases p with
  | zero =>
    rw [decIteration_of_none (by rw [hsrc]; rfl), bitAvail_of_answers_nil (by rw [hsrc])]
    exact ⟨rfl, by simp, by simp, by simp [hsrc], rfl, fun _ => rfl, fun h => absurd h (Nat.lt_irrefl 0)⟩
  | succ n =>
    have hlen : (List.replicate (n + 1) true).length = n + 1 := List.length_replicate ..
    have hdry : s.bitSource.dryAfter (n + 1) := .inr (by simp [hsrc, Source.nth])
    have hdec := decodeOne_of_truncated (by omega) (delivers_of_items (ys := []) (by rw [hsrc, List.append_nil]))
      (answersYes_of_answers_nil (by rw [hsrc]) _) (h.anchors.unmatched_ones h.valid (n := n + 1) (by omega)) (by rwa [hlen])
    rw [decIteration_of_bits (bs := List.replicate n true) hsrc h.answers h.accepts, hdec, hlen, if_neg (by simp)]
    exact ⟨rfl, by simp, by simp, by simp [hsrc, Source.after], rfl, fun h => absurd h (Nat.succ_ne_zero n),
      fun _ => ⟨rfl, rfl, rfl⟩⟩

/-- A run over codewords and pad bits, from any state of it. -/
theorem ReadyToDecode.run (h : ReadyToDecode ys p s) (hk : s.runKind = .dec) :
    ∃ t, core.run (ys.length + 1) s = .next t ∧ DecRunEnd (ys.map Assignment.sym) p s t := by
  have hstep := step_of_dec hk h.quiet
  induction ys generalizing s with
  | nil => exact ⟨_, run_of_step (M := core) 0 hstep, h.decIteration_nil⟩
  | cons y ys ih =>
    rw [h.decIteration_cons] at hstep
    obtain ⟨t, hrun, hend⟩ := ih h.tail hk (step_of_dec hk h.quiet)
    exact ⟨t, (run_of_step (M := core) _ hstep).trans hrun, hend.cons⟩

/-- DEC_RUN over codewords and pad bits, from its start at COUNT 0 (R172). -/
theorem ReadyToDecode.ran (h : ReadyToDecode ys p s) (hphase : s.phase = .decActive) :
    ∃ t, Ran .decRun (ys.length + 1) s t ∧ DecRunEnd (ys.map Assignment.sym) p (startRun .dec s) t := by
  have hstart : ReadyToDecode ys p (startRun .dec s) := { h with }
  obtain ⟨t, hrun, hend⟩ := hstart.run rfl
  exact ⟨t, ⟨_, exec_of_phaseOk (i := .decRun) (beq_of_eq hphase), hrun⟩, hend⟩

end

/-- The assignment at a place of a table. -/
def placeAssignment (m : Memory) (q : Nat × Nat) : Assignment :=
  ⟨tableValue m (canonIndex m q.1 + q.2), q.1, canonFirst m q.1 + q.2⟩

/-- Settles O57: the places are assignments of the table. -/
theorem decRunRecoversTheSymbols : Obligations.DecRunRecoversTheSymbols := by
  intro s ps p hphase hh hv ha hps hp hsrc hans hrest
  have hys : ∀ y ∈ ps.map (placeAssignment s.packed), y ∈ tableAssignments s.packed := by
    rw [List.forall_mem_map]
    rintro q hq
    obtain ⟨h1, h16, hk⟩ := hps q hq
    exact mem_tableAssignments h1 h16 hk
  have hready : ReadyToDecode (ps.map (placeAssignment s.packed)) p s :=
    ⟨hh, hans, hrest, ha, hv, hys, hp, by rw [hsrc, codewordBits, List.flatMap_map]; rfl⟩
  obtain ⟨t, ⟨s1, hstart, hrun⟩, hend⟩ := hready.ran hphase
  rw [List.length_map] at hrun
  refine ⟨s1, t, hstart, hrun, hend.idle, ?_, ?_, hend.drained, hend.phase.trans hphase, hend.ok, hend.cut⟩
  · rw [hend.pushed, List.map_map]
    rfl
  · exact hend.counted.trans ((BitVec.zero_add _).trans (by rw [List.length_map, List.length_map]))

end Sys2Proof.Machine
end

section
/-! SUPPORT. The round trip (spec/45_decoder.md R177): what an encode pass leaves in PACKED and in the bit sink decodes, on any
block that holds the same bytes of PACKED. -/

namespace Sys2Proof.Machine

/-! ### The table of a block that holds the same bytes (R34, R121) -/

section
variable {m m' : Memory} (h : ∀ i, i < 272 → readByte m' i = readByte m i)
include h

theorem tableCount_congr {L : Nat} (h16 : L ≤ 16) : tableCount m' L = tableCount m L := by
  rw [tableCount, tableCount, h _ (by omega)]

theorem canonFirst_congr {L : Nat} (h16 : L ≤ 16) : canonFirst m' L = canonFirst m L := by
  induction L with
  | zero => rfl
  | succ L ih => rw [canonFirst, canonFirst, ih (by omega), tableCount_congr h (by omega)]

theorem canonIndex_congr {L : Nat} (h16 : L ≤ 16) : canonIndex m' L = canonIndex m L := by
  induction L with
  | zero => rfl
  | succ L ih => rw [canonIndex, canonIndex, ih (by omega), tableCount_congr h (by omega)]

/-- A table that fits the value section is known by the 272 bytes of PACKED. -/
theorem tableAssignments_congr (hsize : tableSize m ≤ 256) : tableAssignments m' = tableAssignments m := by
  refine List.flatMap_congr fun L hL => ?_
  obtain ⟨-, h16⟩ := mem_lengths.1 hL
  rw [tableCount_congr h h16, canonFirst_congr h h16, canonIndex_congr h h16]
  refine List.map_congr_left fun k hk => ?_
  have hplace := canonIndex_add_tableCount_le m h16
  rw [List.mem_range] at hk
  rw [tableValue, tableValue, h _ (by omega)]

end

/-! ### The parts of R177's program -/

/-- CLEAR and STAT_FREQ count the sequence from 0. -/
theorem clear_statFreq_counts (s : State) (xs : List Symbol) (hh : s.host = []) (hcount : ∀ x, xs.count x < 2 ^ 32) :
    ∃ a b, exec .clear s = .next a ∧ Ran .statFreq (xs.length + 1) { a with symSource := ⟨xs, none, []⟩ } b ∧
      b.runKind = .none ∧ b.code = .ok ∧ b.host = [] ∧ ∀ x, (freqAt b x).toNat = xs.count x := by
  have hzero (x : Symbol) : freqAt (clearBody s) x = 0 := by simp [freqAt, clearBody]
  obtain ⟨u, f, hstart, hrun, hf⟩ := statFreqCountsEverySymbol { clearBody s with symSource := ⟨xs, none, []⟩ } xs hh rfl
    fun x => by
      rw [show freqAt { clearBody s with symSource := ⟨xs, none, []⟩ } x = 0 from hzero x]
      simpa using hcount x
  refine ⟨_, _, exec_of_phaseOk (i := .clear) rfl, ⟨u, hstart, hrun⟩, rfl, rfl, hh, fun x => (hf x).trans ?_⟩
  rw [show freqAt { clearBody s with symSource := ⟨xs, none, []⟩ } x = 0 from hzero x]
  simp

/-- ENC_INIT mode 0 codes the symbols counted (R112 G1). -/
theorem encInit_codes_counted {s : State} (hh : s.host = []) :
    ∃ c, exec (.encInit 0) s = .next c ∧ c.code = .ok ∧ c.phase = .encActive ∧ c.host = [] ∧
      c.entry = entriesOf (builtCodes s.freq) ∧ ∀ x, 0 < (freqAt s x).toNat → Coded c x := by
  refine ⟨startEncode (entriesOf (builtCodes s.freq)) s, ?_, rfl, rfl, hh, rfl, fun x hx => ?_⟩
  · rw [exec_of_phaseOk rfl, bodyOf, encInitBody_fromFrequency]
  · exact (coded_iff_present rfl x).2 ((mem_present_iff s x).2 hx)

/-- ENC_RUN over a finite source of coded symbols, into an empty sink that takes everything. -/
theorem encRun_sends_codewords {s : State} (xs : List Symbol) (hp : s.phase = .encActive) (hh : s.host = [])
    (hcoded : ∀ x ∈ xs, Coded s x) :
    ∃ d, Ran .encRun (xs.length + 1) { s with symSource := ⟨xs, none, []⟩, bitSink := ⟨[], [], true⟩ } d ∧
      d.runKind = .none ∧ d.code = .ok ∧ d.count = BitVec.ofNat 32 xs.length ∧ d.phase = .encActive ∧
      d.entry = s.entry ∧ d.bitSink = ⟨codewordBits (xs.map (entryAssignment s)), [], true⟩ := by
  obtain ⟨u, n, hstart, hrun, -⟩ := encRunEncodesTheSource
    { s with symSource := ⟨xs, none, []⟩, bitSink := ⟨[], [], true⟩ } xs hp hh rfl rfl rfl hcoded
  refine ⟨_, ⟨u, hstart, hrun⟩, rfl, rfl, rfl, hp, rfl, ?_⟩
  rw [codewordBits, List.flatMap_map]
  rfl

/-- ENC_DONE and TABLE_ENCODE over the entries of a canonical code: the pad bits stand behind the bits sent, and PACKED holds
the code. -/
theorem encDone_tableEncode_exports {l : List Assignment} {s : State} (hl : CanonicalCode l) (hs : s.entry = entriesOf l)
    (hp : s.phase = .encActive) {bits : List Bool} (hsink : s.bitSink = ⟨bits, [], true⟩) :
    ∃ e f, exec .encDone s = .next e ∧ e.code = .ok ∧ exec .tableEncode e = .next f ∧ f.code = .ok ∧
      f.bitSink.taken = bits ++ List.replicate (padCount s) true ∧ tableAssignments f.packed = l := by
  have hdone := ((encDonePadsTheLastByte s).1 hp fun n _ => by simp [Sink.answerAt, hsink]).1
  rw [hsink] at hdone
  exact ⟨_, _, hdone, rfl, hl.tableEncode_ok hs, rfl, rfl, hl.tableAssignments_encoded hs⟩

/-- DEC_INIT and DEC_RUN over codewords of a canonical code and pad bits, on a block whose PACKED holds the code. -/
theorem decInit_decRun_decodes {s : State} (hl : CanonicalCode (tableAssignments s.packed)) (hh : s.host = [])
    (ys : List Assignment) (hys : ∀ y ∈ ys, y ∈ tableAssignments s.packed) {p : Nat} (hp : p ≤ 7) :
    ∃ g t, exec .decInit s = .next g ∧ g.code = .ok ∧
      Ran .decRun (ys.length + 1)
        { g with
          bitSource := ⟨codewordBits ys ++ List.replicate p true, none, []⟩, symSink := ⟨[], [], true⟩ } t ∧
      t.runKind = .none ∧ t.symSink.taken = ys.map Assignment.sym ∧ t.count = BitVec.ofNat 32 ys.length ∧
      (p = 0 → t.code = .ok) ∧ (0 < p → t.code = .truncatedStream ∧ t.decBits = BitVec.ofNat 5 p) := by
  have hv := tableValid_of_canonicalCode hl
  obtain ⟨g, hinit, hok, hphase, hpacked, hhost, -, ha⟩ := decInit_starts ((tableValid_iff _).1 hv).1
  rw [← hpacked] at hv hys
  have hready : ReadyToDecode ys p
      { g with bitSource := ⟨codewordBits ys ++ List.replicate p true, none, []⟩, symSink := ⟨[], [], true⟩ } :=
    ⟨hhost.trans hh, rfl, rfl, ha, hv, hys, hp, rfl⟩
  obtain ⟨t, hrun, hend⟩ := hready.ran hphase
  refine ⟨g, t, hinit, hok, hrun, hend.idle, hend.pushed, ?_, hend.ok, fun h => ?_⟩
  · exact hend.counted.trans ((BitVec.zero_add _).trans (by rw [List.length_map]))
  · obtain ⟨hcode, hbits, -⟩ := hend.cut h
    exact ⟨hcode, hbits⟩

/-- The assignment a coded symbol's entry holds is one of the code the entries are of. -/
theorem CanonicalCode.entryAssignment_mem {l : List Assignment} {s : State} (hl : CanonicalCode l)
    (hs : s.entry = entriesOf l) {a : Symbol} (ha : Coded s a) : entryAssignment s a ∈ l := by
  obtain ⟨x, hx, rfl⟩ := (hl.coded_iff hs a).1 ha
  obtain ⟨hd, hc⟩ := hl.entry_of_mem hs hx
  rwa [entryAssignment, hd, hc]

/-- Settles O60: the statistics make every symbol of the sequence coded, so the bits are codewords of the code that
TABLE_ENCODE puts in PACKED, and they decode. -/
theorem roundTrip : Obligations.RoundTrip := by
  intro s xs _ hh hcount
  obtain ⟨a, b, hclear, hstat, hbidle, hbok, hbhost, hfreq⟩ := clear_statFreq_counts s xs hh hcount
  obtain ⟨c, hinit, hcok, hcphase, hchost, hcentry, hcoded⟩ := encInit_codes_counted hbhost
  have hcodedOf : ∀ x ∈ xs, Coded c x := fun x hx => hcoded x (by rw [hfreq]; exact List.count_pos_iff.2 hx)
  obtain ⟨d, hrun, hdidle, hdok, hdcount, hdphase, hdentry, hdsink⟩ := encRun_sends_codewords xs hcphase hchost hcodedOf
  have hl := canonicalCode_builtCodes b.freq
  obtain ⟨e, f, hdone, heok, hexport, hfok, hbits, hcode⟩ :=
    encDone_tableEncode_exports hl (hdentry.trans hcentry) hdphase hdsink
  refine ⟨a, b, c, d, e, f, hclear, hstat, by simp [busy, hbidle], hbok, hinit, hcok, hrun, by simp [busy, hdidle], hdok,
    hdcount, hdone, heok, hexport, hfok, fun s' hh' hbytes => ?_⟩
  have hv : tableValid f.packed = true := tableValid_of_canonicalCode (hcode ▸ hl)
  have hcode' : tableAssignments s'.packed = builtCodes b.freq :=
    (tableAssignments_congr hbytes ((tableValid_iff _).1 hv).1).trans hcode
  have hys : ∀ y ∈ xs.map (entryAssignment c), y ∈ tableAssignments s'.packed := by
    rw [List.forall_mem_map, hcode']
    exact fun x hx => hl.entryAssignment_mem hcentry (hcodedOf x hx)
  obtain ⟨g, t, hdecInit, hgok, hdecRun, htidle, htaken, htcount, htok, htcut⟩ :=
    decInit_decRun_decodes (hcode' ▸ hl) hh' _ hys (p := padCount d) (by rw [padCount]; omega)
  rw [List.length_map] at hdecRun htcount
  rw [List.map_map, Function.comp_def] at htaken
  refine ⟨g, t, hdecInit, hgok, hbits ▸ hdecRun, by simp [busy, htidle], htaken.trans ?_, htcount, htok, htcut⟩
  exact List.map_id' xs

end Sys2Proof.Machine
end

section
/-! SUPPORT. How commands end: every command and step answers a next state, the statuses of R183, and the idle block
(spec/60_exceptions.md R183, R189, spec/70_reset_and_hazards.md R198, R201). -/

namespace Sys2Proof.Machine

/-! ### No command and no step stops (R15, R189) -/

/-- Every command is its rule behind the phase check, and both branches of the check answer. -/
theorem exec_answers (i : Instr) (s : State) : ∃ t, exec i s = .next t := ⟨_, exec_eq_guarded i s⟩

theorem issue_answers (w : Word) (s : State) : ∃ t, issue w s = .next t := by
  unfold issue
  split
  · exact exec_answers _ _
  · exact ⟨_, rfl⟩

/-- A write answers at once, or issues a word. -/
theorem serveWrite_answers (width : Nat) (off : Offset) (v : Word) (s : State) :
    ∃ t, serveWrite width off v s = .next t := by
  unfold serveWrite
  split
  · exact ⟨_, rfl⟩
  · split
    · split
      · exact issue_answers v s
      · exact ⟨_, rfl⟩
    · exact ⟨_, rfl⟩

theorem serve_answers (e : Event) (s : State) : ∃ t, serve e s = .next t := by
  cases e with
  | write width off v => exact serveWrite_answers width off v s
  | read | poll | pass | reset => exact ⟨_, rfl⟩

theorem step_answers (s : State) : ∃ t, step s = .next t := by
  cases hh : s.host with
  | nil => exact ⟨_, step_nil hh⟩
  | cons e rest =>
    rw [step_cons hh]
    exact serve_answers e _

/-- Settles O12: a step is an iteration or the service of an event, which answers at once or issues a command. -/
theorem everyStepAnswersANextState : Obligations.EveryStepAnswersANextState := ⟨exec_answers, step_answers⟩

/-! ### The idle block (R198, R201) -/

theorem iterate_of_idle {s : State} (h : busy s = false) : iterate s = s := by
  have hk : s.runKind = .none := by simpa [busy] using h
  rw [iterate, hk]

/-- Settles O15: with no access, or a pass, a step is an iteration, and an idle block's iteration is nothing. -/
theorem idleBlockDoesNothing : Obligations.IdleBlockDoesNothing := by
  refine fun s hb => ⟨fun hh => ?_, fun rest hh => ?_⟩
  · rw [step_nil hh, iterate_of_idle hb]
  · rw [step_cons hh, serve, iterate_of_idle (s := { s with host := rest }) hb]

/-! ### The statuses of EncodeOne and DecodeOne (R149, R168) -/

theorem encodeOne_mayFinish (a : Symbol) (s : State) : mayFinish .encRun (encodeOne a s).1 = true := by
  unfold encodeOne
  split
  · rfl
  · dsimp only
    split <;> rfl

/-- At every length DecodeOne ends with one of its statuses or goes on, and past length 16 the table is corrupt. -/
theorem decodeFrom_mayFinish (fuel L cand : Nat) (s : State) :
    mayFinish .decStep (decodeFrom fuel L cand s).1 = true := by
  induction fuel generalizing L cand s with
  | zero => rfl
  | succ fuel ih =>
    cases hb : s.bitSource.avail.1 with
    | none => rw [decodeFrom_dry hb]; rfl
    | some b =>
      rw [decodeFrom_bit hb]
      split
      · split <;> rfl
      · exact ih _ _ _

theorem decodeOne_mayFinish (s : State) : mayFinish .decStep (decodeOne s).1 = true := decodeFrom_mayFinish _ _ _ s

/-- DEC_RUN's row of R183 has every status of DEC_STEP's. -/
theorem mayFinish_decRun_of_decStep {c : StatusCode} (h : mayFinish .decStep c = true) : mayFinish .decRun c = true := by
  cases c with
  | symbolNotCoded | tableOverflow | outputFull | illegalCommand => cases h
  | _ => rfl

theorem encodeOne_runKind (a : Symbol) (s : State) : (encodeOne a s).2.runKind = s.runKind := by rw [encodeOne_frame]

theorem decodeOne_runKind (s : State) : (decodeOne s).2.runKind = s.runKind := by rw [decodeOne_frame]

/-! ### The statuses a command finishes with (R183) -/

/-- A command with phases has ILLEGAL_STATE in its row. -/
theorem mayFinish_illegalState {i : Instr} {p : Phase} (h : phaseOk i p = false) : mayFinish i .illegalState = true := by
  cases i with
  | encStep | encRun | encDone | decStep | decRun | decDone => rfl
  | _ => cases h

/-- E6 of R32 is what TABLE_ENCODE checks, so under the invariant it finishes OK (R125). -/
theorem tableEncodeBody_code {s : State} (hs : EntryInvariant s) : (tableEncodeBody s).code = .ok := by
  have hexec : Host.Outcome.next (tableEncodeBody s) = .next (finish .ok (setPacked (encodedTable s) s)) :=
    (exec_of_phaseOk (i := .tableEncode) rfl).symm.trans (exec_tableEncode fun L h1 _ => hs.countFits L h1)
  injection hexec with hbody
  rw [hbody, finish_code]

/-- In mode 0 ENC_INIT finishes OK, as Build never overflows; in mode 1 it checks the table (R146). -/
theorem encInitBody_mayFinish {mode : BitVec 8} (hw : (Instr.encInit mode).wellFormed = true) (s : State) :
    mayFinish (.encInit mode) (encInitBody mode s).code = true := by
  have hlt : mode.toNat < 2 := by simpa [Instr.wellFormed] using hw
  obtain h | h : mode.toNat = 0 ∨ mode.toNat = 1 := by omega
  · obtain rfl : mode = 0 := BitVec.eq_of_toNat_eq h
    rw [encInitBody_fromFrequency]
    rfl
  · obtain rfl : mode = 1 := BitVec.eq_of_toNat_eq h
    rw [encInitBody_fromTable]
    split <;> rfl

/-- ENC_DONE finishes OK, or OUTPUT_FULL at a refused pad bit (R160). -/
theorem encDoneBody_mayFinish (s : State) : mayFinish .encDone (encDoneBody s).code = true := by
  unfold encDoneBody
  split
  · rfl
  · dsimp only
    split <;> rfl

/-- A command's rule starts a run or finishes with a status of its row. -/
theorem bodyOf_mayFinish {i : Instr} {s : State} (hw : i.wellFormed = true) (hs : EntryInvariant s)
    (hb : busy (bodyOf i s) = false) : mayFinish i (bodyOf i s).code = true := by
  cases i with
  | statFreq | encRun | decRun => cases hb
  | clear | buildAnchors => rfl
  | buildFreq => rw [bodyOf, buildFreqBody, build_eq]; rfl
  | tableDecode => rcases tableDecodeBody_cases s with ⟨_, h⟩ | h <;> rw [bodyOf, h] <;> rfl
  | tableEncode => exact beq_of_eq (tableEncodeBody_code hs)
  | loadRef k => rw [bodyOf, loadRefBody, if_pos (show refNumberOk k = true from hw)]; rfl
  | encInit mode => exact encInitBody_mayFinish hw s
  | encStep sym => exact encodeOne_mayFinish sym s
  | encDone => exact encDoneBody_mayFinish s
  | decInit => rcases decInitBody_cases s with h | h <;> rw [bodyOf, h] <;> rfl
  | decStep => exact decodeOne_mayFinish s
  | decDone => obtain ⟨_, h⟩ := decDoneBody_cases s; rw [bodyOf, h]; rfl

/-! ### The statuses an iteration finishes with (R183) -/

theorem statIteration_mayFinish {s : State} (hk : s.runKind = .stat) (hb : busy (statIteration s) = false) :
    mayFinish .statFreq (statIteration s).code = true := by
  rcases statIteration_cases s with h | ⟨_, _, _, h⟩ | ⟨_, _, _, h⟩ <;> rw [h] at hb ⊢
  · rfl
  · rfl
  · simp [busy, hk] at hb

theorem encIteration_mayFinish {s : State} (hk : s.runKind = .enc) (hb : busy (encIteration s) = false) :
    mayFinish .encRun (encIteration s).code = true := by
  rcases encIteration_cases s with h | ⟨a, _, h⟩ <;> rw [h] at hb ⊢
  · rfl
  · split at hb
    · simp [busy, encodeOne_runKind, hk] at hb
    · next hst =>
      rw [if_neg hst]
      exact encodeOne_mayFinish _ _

theorem decIteration_mayFinish {s : State} (hk : s.runKind = .dec) (hb : busy (decIteration s) = false) :
    mayFinish .decRun (decIteration s).code = true := by
  rcases decIteration_cases s with h | h | h <;> rw [h] at hb ⊢
  · rfl
  · rfl
  · split at hb
    · simp [busy, decodeOne_runKind, hk] at hb
    · next hst =>
      rw [if_neg hst]
      exact mayFinish_decRun_of_decStep (decodeOne_mayFinish _)

/-- Settles O13: a command is turned away or follows its rule, Build never overflows, and an iteration that is not the last
keeps RUNKIND. -/
theorem commandsFinishWithTheirStatuses : Obligations.CommandsFinishWithTheirStatuses := by
  refine ⟨fun i s t hw hs h hb => ?_, fun s t h => ?_, fun s hb => ⟨fun hk => ?_, fun hk => ?_, fun hk => ?_⟩⟩
  · rcases exec_cases h with ⟨_, rfl⟩ | ⟨hp, rfl⟩
    · exact bodyOf_mayFinish hw hs hb
    · exact mayFinish_illegalState hp
  · rcases h with h | h
    · rw [exec_buildFreq] at h
      injection h with h
      rw [← h, finish_code]
    · rw [exec_of_phaseOk rfl, bodyOf, encInitBody_fromFrequency] at h
      injection h with h
      rw [← h, startEncode, finish_code]
  all_goals rw [iterate, hk] at hb ⊢
  · exact statIteration_mayFinish hk hb
  · exact encIteration_mayFinish hk hb
  · exact decIteration_mayFinish hk hb

end Sys2Proof.Machine
end

section
/-! SUPPORT. Runs that do not end: a source that repeats one value and a sink that never refuses keep ENC_RUN and DEC_RUN going
(spec/70_reset_and_hazards.md R212, spec/40_session.md R94). -/

namespace Sys2Proof.Machine

/-! ### Runs that count every step -/

/-- A condition under which the block is busy, and every step keeps the condition and goes one up in COUNT. -/
structure KeepsCounting (P : State → Prop) : Prop where
  busy_of : ∀ {s}, P s → busy s = true
  step_of : ∀ {s}, P s → ∃ t, step s = .next t ∧ P t ∧ t.count = s.count + 1

/-- Under such a condition every run leaves the block busy, each of its steps counted. -/
theorem KeepsCounting.run {P : State → Prop} (h : KeepsCounting P) (k : Nat) {s : State} (hs : P s) :
    ∃ t, core.run k s = .next t ∧ busy t = true ∧ t.count = s.count + BitVec.ofNat 32 k := by
  induction k generalizing s with
  | zero => exact ⟨s, rfl, h.busy_of hs, (BitVec.add_zero _).symm⟩
  | succ k ih =>
    obtain ⟨u, hstep, hu, hcount⟩ := h.step_of hs
    obtain ⟨t, hrun, hbusy, hcount'⟩ := ih hu
    refine ⟨t, (run_of_step (M := core) k hstep).trans hrun, hbusy, ?_⟩
    rw [hcount', hcount, Nat.add_comm k, BitVec.ofNat_add, ← BitVec.add_assoc]
    rfl

/-! ### ENC_RUN over one repeated symbol (R158) -/

/-- An ENC_RUN over a source that repeats the coded symbol `a`, with a sink that takes everything. -/
structure EncodesForever (a : Symbol) (s : State) : Prop where
  running : s.runKind = .enc
  quiet : s.host = []
  repeats : s.symSource = ⟨[], some a, []⟩
  answers : s.bitSink.answers = []
  accepts : s.bitSink.rest = true
  coded : Coded s a

/-- An iteration sends the codeword of `a` and leaves source, sink and entries as they were. -/
theorem EncodesForever.keepsCounting (a : Symbol) : KeepsCounting (EncodesForever a) where
  busy_of h := by simp [busy, h.running]
  step_of := by
    intro s h
    have hsent : encodeOne a (symPull (symAvail s).2) = (.ok, codewordSent a (symPull (symAvail s).2)) :=
      encodeOne_of_taken h.coded fun n _ => by simp [Sink.answerAt, h.answers, h.accepts]
    refine ⟨countSymbol (codewordSent a (symPull (symAvail s).2)), ?_, ?_, rfl⟩
    · rw [step_of_enc h.running h.quiet, encIteration_of_some (a := a) (by rw [h.repeats]; rfl), hsent, if_pos rfl]
    · exact { h with
        repeats := by simp [codewordSent, h.repeats, Source.avail, Source.pull]
        answers := by simp [codewordSent, h.answers] }

/-! ### DecodeOne over one repeated bit (R168) -/

/-- DecodeOne's status is a matter of the bit source, the anchors and the counts alone. -/
theorem decodeFrom_fst_congr {s t : State} (hsrc : t.bitSource = s.bitSource) (hfirst : t.first = s.first)
    (hindex : t.index = s.index) (hpacked : t.packed = s.packed) (fuel L cand : Nat) :
    (decodeFrom fuel L cand t).1 = (decodeFrom fuel L cand s).1 := by
  induction fuel generalizing s t L cand with
  | zero => rfl
  | succ fuel ih =>
    cases hav : s.bitSource.avail.1 with
    | none => rw [decodeFrom_dry hav, decodeFrom_dry (by rwa [hsrc])]
    | some b =>
      have hF : firstAt t L = firstAt s L := by rw [firstAt, hfirst, firstAt]
      have hI : indexAt t L = indexAt s L := by rw [indexAt, hindex, indexAt]
      have hR : inRange t L (2 * cand + b.toNat) = inRange s L (2 * cand + b.toNat) := by
        rw [inRange, hF, hpacked, inRange]
      have hrec := ih (s := { s with bitSource := s.bitSource.after 1 1 })
        (t := { t with bitSource := t.bitSource.after 1 1 }) (by rw [hsrc]) hfirst hindex hpacked (L + 1)
        (2 * cand + b.toNat)
      rw [decodeFrom_bit hav, decodeFrom_bit (by rwa [hsrc]), hR, hI, hF]
      split
      · split <;> rfl
      · exact hrec

/-- A decode of a repeated bit that succeeds leaves the source as it was. -/
theorem decodeFrom_of_repeats {b : Bool} {s : State} (hsrc : s.bitSource = ⟨[], some b, []⟩) {fuel L cand : Nat}
    (hok : (decodeFrom fuel L cand s).1 = .ok) : ∃ n v, decodeFrom fuel L cand s = (.ok, decodeGave n v s) := by
  have hsame : { s with bitSource := s.bitSource.after 1 1 } = s := by
    rw [show s.bitSource.after 1 1 = s.bitSource by rw [hsrc]; rfl]
  induction fuel generalizing L cand with
  | zero => cases hok
  | succ fuel ih =>
    have hbit := decodeFrom_bit (fuel := fuel) (L := L) (cand := cand) (b := b) (by rw [hsrc]; rfl)
    rw [hsame] at hbit
    rw [hbit] at hok ⊢
    split at hok
    · split at hok
      · cases hok
      · next hr hk =>
        rw [if_pos hr, if_neg hk]
        exact ⟨_, _, rfl⟩
    · next hr =>
      rw [if_neg hr]
      exact ih hok

/-! ### DEC_RUN over one repeated bit (R173) -/

/-- A DEC_RUN over a source that repeats a bit which decodes, with a sink that takes everything. -/
structure DecodesForever (b : Bool) (s : State) : Prop where
  running : s.runKind = .dec
  quiet : s.host = []
  repeats : s.bitSource = ⟨[], some b, []⟩
  answers : s.symSink.answers = []
  accepts : s.symSink.rest = true
  decodes : (decodeOne s).1 = .ok

/-- An iteration pushes a symbol and leaves source, anchors and table as they were, so the bit decodes again. -/
theorem DecodesForever.keepsCounting (b : Bool) : KeepsCounting (DecodesForever b) where
  busy_of h := by simp [busy, h.running]
  step_of := by
    intro s h
    obtain ⟨n, v, hdec⟩ := decodeFrom_of_repeats h.repeats h.decodes
    have hiter := decIteration_of_accepted (s := s) (by rw [h.repeats]; simp [Source.avail, Source.offer])
      (by simp [Sink.canAccept, h.answers, h.accepts])
    rw [bitAvail_of_answers_nil (by rw [h.repeats]), symCanAccept_of_answers_nil h.answers, decodeOne, hdec,
      if_pos rfl] at hiter
    refine ⟨countSymbol (symPush v (decodeGave n v s)), ?_, ?_, rfl⟩
    · rw [step_of_dec h.running h.quiet, hiter]
      rfl
    · have hagain := decodeFrom_fst_congr (s := s) (t := countSymbol (symPush v (decodeGave n v s))) rfl rfl rfl rfl
      exact { h with decodes := (hagain _ _ _).trans h.decodes }

/-- Settles O50: in both runs an iteration keeps what the next one needs. That DEC_STEP succeeds says that the repeated bit
decodes. -/
theorem endlessSourceKeepsTheBlockBusy : Obligations.EndlessSourceKeepsTheBlockBusy := by
  refine ⟨fun s a k hk hh hsrc hans hrest hc => ?_, fun s u b k hk hp hh hsrc hans hrest hexec hok => ?_⟩
  · exact (EncodesForever.keepsCounting a).run k ⟨hk, hh, hsrc, hans, hrest, hc⟩
  · rw [exec_decStep hp] at hexec
    injection hexec with hu
    have hdec : (decodeOne s).1 = .ok := by rw [← hok, ← hu, finish_code]
    exact (DecodesForever.keepsCounting b).run k ⟨hk, hh, hsrc, hans, hrest, hdec⟩

end Sys2Proof.Machine
end
